-- ==== Sys2Proof/Word.lean ====
section
/-! DEFINITION. The word types of the block (00_scope.md R5, R14, R15). All values are unsigned. -/

namespace Sys2Proof

/-- A data symbol or payload byte, `SYM_BITS` = 8 bits (R5). -/
abbrev Byte := BitVec 8

/-- A command word, a response or a register word, `CMD_W` = `REG_W` = 32 bits (R5). -/
abbrev Word := BitVec 32

/-- A node reference, `REF_W` = 10 bits, `L` = bit 9, `E` = bit 8, `V` = bits 7:0 (R96). -/
abbrev Ref := BitVec 10

/-- A symbol id, `SYMID_W` = 9 bits: 0..255 a byte, 256 the end-of-stream marker (R97). -/
abbrev SymId := BitVec 9

/-- A register address, `REGADDR_W` = 16 bits, naming a 32-bit word (R40). -/
abbrev RegAddr := BitVec 16

/-- A stream token, `TOKEN_W` = 9 bits, `end` in bit 8 and `data` in bits 7:0 (R98). -/
abbrev Token := BitVec 9

/-- A path: the steps from the root, first step first, `false` = left = 0, `true` = right = 1 (R15). -/
abbrev Path := List Bool

end Sys2Proof
end

