-- ==== Sys2Proof/Machine/Flags.lean ====
section
/-! DEFINITION. The flags of the block: the ten sticky bits of `ERR` (10_state.md R28, R30), and the job faults with their
`ERR` bit and `CAUSE` code (60_exceptions.md R190). -/

namespace Sys2Proof.Machine

/-- The bits of `ERR` (R30). -/
inductive ErrBit where
  | illcmd | busycmd | badaddr | noroot | badnode | dupsym | depth | noeof | unksym | trunc
  deriving DecidableEq, Repr

/-- The bit position of a flag in `ERR` (R30). -/
def ErrBit.pos : ErrBit → Nat
  | .illcmd => 0
  | .busycmd => 1
  | .badaddr => 2
  | .noroot => 3
  | .badnode => 4
  | .dupsym => 5
  | .depth => 6
  | .noeof => 7
  | .unksym => 8
  | .trunc => 9

/-- `ERR.F <- 1`: one bit set, the others kept (R28). -/
def errSet (f : ErrBit) (err : BitVec 10) : BitVec 10 := err ||| BitVec.twoPow 10 f.pos

/-- `ERR.F`: whether the bit is set (R30). -/
def errHas (f : ErrBit) (err : BitVec 10) : Bool := err.getLsbD f.pos

/-- The seven job faults (R190). -/
inductive JobFault where
  | noroot | badnode | dupsym | depth | noeof | unksym | trunc
  deriving DecidableEq, Repr

/-- The `CAUSE` code of a job fault (R190). -/
def JobFault.cause : JobFault → BitVec 4
  | .noroot => 1
  | .badnode => 2
  | .dupsym => 3
  | .depth => 4
  | .noeof => 5
  | .unksym => 6
  | .trunc => 7

/-- The `ERR` bit of a job fault (R190). -/
def JobFault.bit : JobFault → ErrBit
  | .noroot => .noroot
  | .badnode => .badnode
  | .dupsym => .dupsym
  | .depth => .depth
  | .noeof => .noeof
  | .unksym => .unksym
  | .trunc => .trunc

end Sys2Proof.Machine
end

