-- ==== Sys2Proof/Config.lean ====
section
/-! DEFINITION. The block's parameters (00_scope.md R5; none is left open) and the model's one free value. -/

namespace Sys2Proof.Config

/-- `NNODE`: the internal-node entries of the tree store (R5, R34). -/
abbrev numNodes : Nat := 256

/-- `NSYM`: the symbols, 256 bytes and the end-of-stream marker, so the entries of the code table (R5, R37). -/
abbrev numSyms : Nat := 257

/-- `EOF_ID`: the symbol id of the end-of-stream marker (R5, R97). -/
abbrev eofId : SymId := 256

/-- `MAXLEN`: the longest path the code table can hold (R5, R166). -/
abbrev maxLen : Nat := 256

/-- FREE VALUE (DESIGN CHOICE, safe; log 2). R17: "When several steps are enabled, any one of them may be taken next."
Where the run's parameters (`State.turns`) do not say who moves, an engine and the command side can both have an
enabled step: the `n`-th time this happens the engine moves if `engineMovesFirst n` is true, else the command side.
It has no body: every claim holds for every order. -/
opaque engineMovesFirst : Nat → Bool

end Sys2Proof.Config
end

