-- ==== Sys2Proof/Machine/Operands.lean ====
section
/-! DEFINITION. The operand forms of the block: node references (30_encoding.md R96), symbol ids (R97) and stream
tokens (R98). -/

namespace Sys2Proof

/-- `isLeaf(r)`: the leaf-detect bit `L` = `r[9]` (R16, R96). -/
def Ref.isLeaf (r : Ref) : Bool := r.getLsbD 9

/-- `isEof(r)`: `r[9] = 1` and `r[8] = 1` (R16). -/
def Ref.isEof (r : Ref) : Bool := r.getLsbD 9 && r.getLsbD 8

/-- `reserved(r)` of R106: `L = 0, E = 1`, or `L = 1, E = 1` with `V` not 0. -/
def Ref.reserved (r : Ref) : Bool :=
  (!r.getLsbD 9 && r.getLsbD 8) || (r.getLsbD 9 && r.getLsbD 8 && r.setWidth 8 != 0#8)

/-- `r[7:0]`: the index of an internal ref, the byte of a byte leaf (R96). -/
def Ref.val (r : Ref) : Byte := r.setWidth 8

/-- `sym(r)` = `r[8:0]`: the symbol id of a leaf ref (R16, R97). -/
def Ref.sym (r : Ref) : SymId := r.setWidth 9

/-- The internal ref that names `NODE[i]`: `L = 0, E = 0, V = i` (R96). -/
def Ref.node (i : Byte) : Ref := i.setWidth 10

/-- The leaf ref of the byte `b`: `L = 1, E = 0, V = b` (R96). -/
def Ref.byteLeaf (b : Byte) : Ref := 0x200#10 ||| b.setWidth 10

/-- The ref of the end-of-stream leaf, 0x300 (R96). -/
def Ref.eof : Ref := 0x300#10

/-- `zext_9` of a byte: the symbol id of a byte, or the `INFO` of a node index (R97, R190). -/
def Byte.zext9 (b : Byte) : SymId := b.setWidth 9

/-- The `end` flag of a token (R98). -/
def Token.isEnd (t : Token) : Bool := t.getLsbD 8

/-- The `data` bits of a token (R98). -/
def Token.payload (t : Token) : Byte := t.setWidth 8

/-- The token `DATA(b)`: end flag 0 (R16, R98). -/
def Token.data (b : Byte) : Token := b.setWidth 9

/-- An `END` token with data bits `d`; on input they are ignored (R98). -/
def Token.endWith (d : Byte) : Token := 0x100#9 ||| d.setWidth 9

/-- The `END` token the block sends: end flag 1, data 0x00 (R98). -/
def Token.fin : Token := 0x100#9

end Sys2Proof
end

