-- ==== Sys2Proof/Syntax.lean ====
section
/-! DEFINITION. The instruction set: one constructor per row of spec/opcode_table.json (R8), and what an instruction is
offered as on an input channel of the block. -/

namespace Sys2Proof

/-- The nine command words (30_encoding.md R91) and the two token kinds of each input channel (R98). -/
inductive Instr where
  /-- `NOP` (R120). -/
  | nop
  /-- `SETROOT ref` (R121). -/
  | setroot (ref : Ref)
  /-- `LDNODE idx, left, right` (R122). -/
  | ldnode (idx : Byte) (left right : Ref)
  /-- `CLRTREE` (R123). -/
  | clrtree
  /-- `ENC_START` (R160). -/
  | encStart
  /-- `DEC_START` (R140). -/
  | decStart
  /-- `ABORT` (R124). -/
  | abort
  /-- `CLRERR` (R125). -/
  | clrerr
  /-- `RDREG addr` (R131). -/
  | rdreg (addr : RegAddr)
  /-- `DATA(b)` on `enc_in` (R171). -/
  | encInData (b : Byte)
  /-- `END` on `enc_in`, with its ignored data bits (R172, R98; DESIGN CHOICE, safe; log 17). -/
  | encInEnd (d : Byte)
  /-- `DATA(b)` on `dec_in` (R143, R148). -/
  | decInData (b : Byte)
  /-- `END` on `dec_in`, with its ignored data bits (R143, R148, R98; DESIGN CHOICE, safe; log 17). -/
  | decInEnd (d : Byte)
  deriving DecidableEq, Repr

/-- An item as the host offers it: a command word, or a token on one of the two input streams. A token's word does not
say which stream it is on; the channel does (R42). -/
inductive Offer where
  | cmd (w : Word)
  | encIn (t : Token)
  | decIn (t : Token)
  deriving DecidableEq, Repr

end Sys2Proof
end

