-- ==== Sys2Proof/Machine/State.lean ====
section
/-! DEFINITION. The state of the block (10_state.md), the parameters of a run that a step consumes (00_scope.md R7, R17),
the reasons a step can stop, and the state after reset (10_state.md R47). -/

namespace Sys2Proof.Machine

/-- `JOB` (R45). -/
inductive Job where
  | idle | enc | dec | halted
  deriving DecidableEq, Repr

/-- `FAULT` (R31): the cause and the value it records. -/
structure FaultReg where
  cause : BitVec 4
  info : BitVec 9
  deriving DecidableEq, Repr

/-- `ROOT` (R32). -/
structure RootReg where
  v : Bool
  ref : Ref
  deriving DecidableEq, Repr

/-- One entry of the tree store, `NODE[i]` (R34). -/
structure NodeEntry where
  v : Bool
  left : Ref
  right : Ref
  deriving DecidableEq, Repr

/-- One entry of the code table, `TBL[s]` (R37): `V`, and `PATH` as a list of bits whose length is `LEN` (log 4). -/
structure TblEntry where
  v : Bool
  path : Path
  deriving DecidableEq, Repr

/-- The tree store's entries (R34). -/
abbrev Nodes := Vector NodeEntry 256

/-- The code table (R37). -/
abbrev Tbl := Vector TblEntry 257

/-- The response slot, `RSPV` and `RSPD` (R44). -/
structure RspSlot where
  v : Bool
  data : Word
  deriving DecidableEq, Repr

/-- `EPH` (R21). -/
inductive EncPhase where
  | wait | shift | pad | fin
  deriving DecidableEq, Repr

/-- The encoder engine registers `EPH`, `ACC`, `NB`, `PSYM`, `PIDX` (R21). -/
structure EncRegs where
  phase : EncPhase
  acc : Byte
  nb : BitVec 4
  psym : SymId
  pidx : BitVec 9
  deriving DecidableEq, Repr

/-- `DPH` (R22). -/
inductive DecPhase where
  | walk | emit | fin | drain
  deriving DecidableEq, Repr

/-- The decoder engine registers `DPH`, `CUR`, `SR`, `BN`, `OUTB` (R22). -/
structure DecRegs where
  phase : DecPhase
  cur : Ref
  sr : Byte
  bn : BitVec 4
  outb : Byte
  deriving DecidableEq, Repr

/-- The host's side of the six channels (R42, R67): what it offers and the block has not taken, and what it has received,
each oldest first. Not state of the block but parameters of a run (R7), held as data (DESIGN CHOICE, safe; log 1). -/
structure Ports where
  cmd : List Word
  encIn : List Token
  decIn : List Token
  rspOut : List Word
  encOut : List Token
  decOut : List Token
  deriving DecidableEq, Repr

/-- Who moves next (R6, R17). A turn of the block's own is taken if its step is enabled and passes otherwise; a response
or an output is accepted by the host exactly when the turn that sends it is given (R7, R228). -/
inductive Turn where
  /-- The command step (R126). -/
  | command
  /-- The response transfer (R132). -/
  | response
  /-- The one enabled step of the encoder, if any (R179). -/
  | encoder
  /-- The one enabled step of the decoder, if any (R152). -/
  | decoder
  /-- The host asserts `rst`, as an atomic event between steps (R220, 93_implementation_defined.md U11). -/
  | reset
  /-- The host offers a command word (R228). -/
  | offerCmd (w : Word)
  /-- The host offers a token on `enc_in` (R228). -/
  | offerEncIn (t : Token)
  /-- The host offers a token on `dec_in` (R228). -/
  | offerDecIn (t : Token)
  deriving DecidableEq, Repr

/-- The state: the block's own (R7, R20 to R48), then the model's own fields `ports`, `turns` and `tick` (log 1, log 2). -/
structure State where
  /-- `JOB` (R45). -/
  job : Job
  /-- `ERR`, bits 9:0 (R30). -/
  err : BitVec 10
  /-- `FAULT` (R31). -/
  fault : FaultReg
  /-- `ROOT` (R32). -/
  root : RootReg
  /-- `NODE[0..255]` (R34). -/
  nodes : Nodes
  /-- `TBL[0..256]` (R37). -/
  tbl : Tbl
  /-- The response slot (R44). -/
  rsp : RspSlot
  /-- The encoder engine registers (R21). -/
  enc : EncRegs
  /-- The decoder engine registers (R22). -/
  dec : DecRegs
  /-- What the host offers and has received (R67). -/
  ports : Ports
  /-- The order of the next moves as far as it is given (R17); the next first. -/
  turns : List Turn
  /-- How many free choices between two enabled agents were made (log 2). -/
  tick : Nat
  deriving DecidableEq, Repr

/-- Why a step stops. No instruction's meaning ends so: the spec defines no behaviour as undefined
(93_implementation_defined.md); its job faults and rejections are next states (R195, R196). -/
inductive Fault where
  /-- Raised by the encoder's step in phase `E_SHIFT` if `PSYM` is one of 257..511, which name no entry of the code table
  and "do not occur" (R97). Safe: the machine stops where no run of the block gets. -/
  | noTableEntry
  deriving DecidableEq, Repr

/-- Why an instruction has no meaning. -/
inductive Refusal where
  /-- Raised by an arm of `exec` whose instruction is not modelled; no arm is left so. Safe: it stops. -/
  | notModelled (mnemonic : String)
  deriving DecidableEq, Repr

/-- Nothing offered and nothing received. -/
def Ports.empty : Ports :=
  { cmd := [], encIn := [], decIn := [], rspOut := [], encOut := [], decOut := [] }

/-- The state right after reset (R47, R220). Where R47 says "unspecified" the field is zero, the first phase or the empty
path: "A model may initialise them to 0 without loss" (93_implementation_defined.md U5; DESIGN CHOICE, unsafe; log 3). -/
def State.reset : State where
  job := .idle
  err := 0
  fault := { cause := 0, info := 0 }
  root := { v := false, ref := 0 }
  nodes := Vector.replicate 256 { v := false, left := 0, right := 0 }
  tbl := Vector.replicate 257 { v := false, path := [] }
  rsp := { v := false, data := 0 }
  enc := { phase := .wait, acc := 0, nb := 0, psym := 0, pidx := 0 }
  dec := { phase := .walk, cur := 0, sr := 0, bn := 0, outb := 0 }
  ports := Ports.empty
  turns := []
  tick := 0

end Sys2Proof.Machine
end

