-- ==== Sys2Proof/Machine/Ops.lean ====
section
/-! DEFINITION. The named operations over the state: reading and writing the tree store and the code table, rejecting a
command (60_exceptions.md R195), raising a job fault (R196) and the recovery from one (R200), the response slot, the
channels, reset. -/

namespace Sys2Proof.Machine

/-- A map over a fixed-length store, entry by entry. -/
def mapEntries {α β : Type} {n : Nat} (f : α → β) (v : Vector α n) : Vector β n :=
  Vector.mk (Array.mk (v.toList.map f)) (by simp)

/-- `NODE[i]` (R34). -/
def State.node (s : State) (i : Byte) : NodeEntry := s.nodes[i.toNat]'i.isLt

/-- Entry `k` of a code table; none for 257..511, which are no symbol ids (R37, R97). -/
def entryOf (t : Tbl) (k : SymId) : Option TblEntry := t[k.toNat]?

/-- `TBL[k]`; none for 257..511 (R37, R97). -/
def State.entry (s : State) (k : SymId) : Option TblEntry := entryOf s.tbl k

/-- `TBL[k].V`, false where `k` is no symbol id (R37). -/
def hasEntry (t : Tbl) (k : SymId) : Bool := (entryOf t k).any TblEntry.v

/-- `TBL[s].V <- 0` for every `s`; `LEN` and `PATH` are not written (R160; DEDUCED, safe; log 15). -/
def invalidateTbl (t : Tbl) : Tbl := mapEntries (fun e => { e with v := false }) t

/-- `TBL[k].V <- 1 ; TBL[k].LEN <- |path| ; TBL[k].PATH <- path` (R161). -/
def recordEntry (t : Tbl) (k : SymId) (path : Path) : Tbl :=
  t.setIfInBounds k.toNat { v := true, path := path }

/-- `TBL[s].LEN`: at most 256 in a table the block built (R37, R166; log 4). -/
def TblEntry.len (e : TblEntry) : Nat := e.path.length

/-- `NODE[i] <- (1, left, right)` (R122). -/
def loadNode (i : Byte) (left right : Ref) (s : State) : State :=
  { s with nodes := s.nodes.set i.toNat { v := true, left := left, right := right } i.isLt }

/-- `ROOT <- (1, ref)` (R121). -/
def loadRoot (ref : Ref) (s : State) : State :=
  { s with root := { v := true, ref := ref } }

/-- `ROOT.V <- 0` and `NODE[i].V <- 0` for every `i`; the refs are not written (R123; DEDUCED, safe; log 15). -/
def clearTree (s : State) : State :=
  { s with
    root := { s.root with v := false }
    nodes := mapEntries (fun n => { n with v := false }) s.nodes }

/-- `reject F`: `ERR.F <- 1` and nothing else (R195). -/
def reject (f : ErrBit) (s : State) : State := { s with err := errSet f s.err }

/-- `raise F(info)`: the job-fault sequence, the block's one way of taking an exception (R196). -/
def raise (f : JobFault) (info : BitVec 9) (s : State) : State :=
  { s with
    err := errSet f.bit s.err
    fault := { cause := f.cause, info := info }
    job := .halted }

/-- `JOB <- IDLE`: the way out of a job and out of `HALTED` (R124, R200). -/
def endJob (s : State) : State := { s with job := .idle }

/-- `ERR <- 0 ; FAULT <- 0` (R125, R200). -/
def clearFaults (s : State) : State :=
  { s with err := 0, fault := { cause := 0, info := 0 } }

/-- The state check of R127 for a command allowed in `IDLE` only: its effect, or the rejection `BUSYCMD`. -/
def whenIdle (s effect : State) : State :=
  if s.job = .idle then effect else reject .busycmd s

/-- `RSPD <- d ; RSPV <- 1` (R131). -/
def respond (d : Word) (s : State) : State := { s with rsp := { v := true, data := d } }

/-- The response transfer: the host receives `RSPD`, `RSPV <- 0` (R132). -/
def sendResponse (s : State) : State :=
  { s with
    rsp := { s.rsp with v := false }
    ports := { s.ports with rspOut := s.ports.rspOut ++ [s.rsp.data] } }

/-- The offered command word is taken from its channel (R126). -/
def takeCmd (s : State) : State :=
  { s with ports := { s.ports with cmd := s.ports.cmd.tail } }

/-- `take(enc_in)`: the offered token is consumed (R16). -/
def takeEncIn (s : State) : State :=
  { s with ports := { s.ports with encIn := s.ports.encIn.tail } }

/-- `take(dec_in)`: the offered token is consumed (R16). -/
def takeDecIn (s : State) : State :=
  { s with ports := { s.ports with decIn := s.ports.decIn.tail } }

/-- `put(enc_out, t)`: the host receives `t` (R16, R67). -/
def putEncOut (t : Token) (s : State) : State :=
  { s with ports := { s.ports with encOut := s.ports.encOut ++ [t] } }

/-- `put(dec_out, t)`: the host receives `t` (R16, R67). -/
def putDecOut (t : Token) (s : State) : State :=
  { s with ports := { s.ports with decOut := s.ports.decOut ++ [t] } }

/-- The host offers one more item; it comes after those already offered (R67, R228). -/
def offer (o : Offer) (s : State) : State :=
  match o with
  | .cmd w => { s with ports := { s.ports with cmd := s.ports.cmd ++ [w] } }
  | .encIn t => { s with ports := { s.ports with encIn := s.ports.encIn ++ [t] } }
  | .decIn t => { s with ports := { s.ports with decIn := s.ports.decIn ++ [t] } }

/-- Reset: every state element of the block takes its reset value, no transfer happens, and what the host was offering
stays with the host (R220, R221). The run's parameters `ports`, `turns` and `tick` are not the block's (R7;
DESIGN CHOICE; log 18). -/
def resetEvent (s : State) : State :=
  { State.reset with ports := s.ports, turns := s.turns, tick := s.tick }

end Sys2Proof.Machine
end

