-- ==== Sys2Proof/Machine/Registers.lean ====
section
/-! DEFINITION. The register space as `RDREG` reads it (10_state.md R29 to R32, R39, R40; 30_encoding.md R104, R105;
40_config_commands.md R133). -/

namespace Sys2Proof.Machine

/-- The two bits of `JOB` (R45). -/
def Job.code : Job → BitVec 2
  | .idle => 0
  | .enc => 1
  | .dec => 2
  | .halted => 3

/-- `mapped(a)` (R133). -/
def mapped (a : RegAddr) : Bool :=
  a.toNat ≤ 0x0003
    || (0x0100 ≤ a.toNat && a.toNat ≤ 0x01FF)
    || (0x0200 ≤ a.toNat && a.toNat ≤ 0x0300)
    || (0x0800 ≤ a.toNat && a.toNat ≤ 0x1007)

/-- `STATUS` (R29). -/
def statusWord (s : State) : Word := s.job.code.setWidth 32

/-- `ERR` (R30). -/
def errWord (s : State) : Word := s.err.setWidth 32

/-- `FAULT`: `INFO` in bits 24:16, `CAUSE` in bits 3:0 (R31). -/
def faultWord (s : State) : Word :=
  s.fault.info.setWidth 32 <<< 16 ||| s.fault.cause.setWidth 32

/-- The valid bit of a register word, bit 31 (R32, R39, R104). -/
def validBit : Word := 0x80000000#32

/-- `ROOT` (R32). -/
def rootWord (s : State) : Word :=
  if s.root.v then validBit ||| s.root.ref.setWidth 32 else 0

/-- `NODE[i]` as a word (R104). -/
def nodeWord (n : NodeEntry) : Word :=
  if n.v then validBit ||| (n.left.setWidth 32 <<< 10 ||| n.right.setWidth 32) else 0

/-- `CLEN[k]` (R39). -/
def clenWord (e : TblEntry) : Word :=
  if e.v then validBit ||| (BitVec.ofNat 9 e.len).setWidth 32 else 0

/-- The number whose bit `j` is element `j` of the list. -/
def bitsToNat : List Bool → Nat
  | [] => 0
  | b :: bs => b.toNat + 2 * bitsToNat bs

/-- `CBITS[k][w]`: bit `j` is path bit `32*w + j`, 0 beyond the path's end (R39). -/
def cbitsWord (e : TblEntry) (w : Nat) : Word :=
  if e.v then BitVec.ofNat 32 (bitsToNat ((e.path.drop (32 * w)).take 32)) else 0

/-- A word of the code table's read view: `f` of entry `k`, 0 where there is none. -/
def tblWord (f : TblEntry → Word) (s : State) (k : Nat) : Word :=
  match s.tbl[k]? with
  | some e => f e
  | none => 0

/-- A word of the tree store's read view, `NODE[k]` (R104), 0 where there is none. -/
def nodesWord (s : State) (k : Nat) : Word :=
  match s.nodes[k]? with
  | some n => nodeWord n
  | none => 0

/-- `RegRead(a)` (R133); 0 at an unmapped address (R131). -/
def regRead (a : RegAddr) (s : State) : Word :=
  if a.toNat = 0x0000 then statusWord s
  else if a.toNat = 0x0001 then errWord s
  else if a.toNat = 0x0002 then faultWord s
  else if a.toNat = 0x0003 then rootWord s
  else if 0x0100 ≤ a.toNat ∧ a.toNat ≤ 0x01FF then nodesWord s (a.toNat - 0x0100)
  else if 0x0200 ≤ a.toNat ∧ a.toNat ≤ 0x0300 then tblWord clenWord s (a.toNat - 0x0200)
  else if 0x0800 ≤ a.toNat ∧ a.toNat ≤ 0x1007 then
    tblWord (fun e => cbitsWord e ((a.toNat - 0x0800) % 8)) s ((a.toNat - 0x0800) / 8)
  else 0

end Sys2Proof.Machine
end

