-- ==== Sys2Proof/Machine/Commands.lean ====
section
/-! DEFINITION. The configuration and system commands (40_config_commands.md R120 to R125, R131). The word itself has been
taken from its channel by the command step (R126). -/

namespace Sys2Proof.Machine

/-- `NOP`: nothing (R120). -/
def execNop (s : State) : Host.Outcome State Fault Refusal := .next s

/-- `SETROOT ref` (R121); a reserved ref is `ILLCMD` before the state check (R106, R197; log 8). -/
def execSetroot (ref : Ref) (s : State) : Host.Outcome State Fault Refusal :=
  if ref.reserved then .next (reject .illcmd s)
  else .next (whenIdle s (loadRoot ref s))

/-- `LDNODE idx, left, right` (R122); a reserved ref is `ILLCMD` before the state check (R106, R197; log 8). -/
def execLdnode (idx : Byte) (left right : Ref) (s : State) : Host.Outcome State Fault Refusal :=
  if left.reserved || right.reserved then .next (reject .illcmd s)
  else .next (whenIdle s (loadNode idx left right s))

/-- `CLRTREE` (R123). -/
def execClrtree (s : State) : Host.Outcome State Fault Refusal :=
  .next (whenIdle s (clearTree s))

/-- `ABORT`: `JOB <- IDLE` in any `JOB` (R124). -/
def execAbort (s : State) : Host.Outcome State Fault Refusal := .next (endJob s)

/-- `CLRERR` in any `JOB` (R125). -/
def execClrerr (s : State) : Host.Outcome State Fault Refusal := .next (clearFaults s)

/-- `RDREG addr` in any `JOB`: the register's value, or 0 and `BADADDR` at an unmapped address (R131, R195). -/
def execRdreg (addr : RegAddr) (s : State) : Host.Outcome State Fault Refusal :=
  if mapped addr then .next (respond (regRead addr s) s)
  else .next (respond 0 (reject .badaddr s))

end Sys2Proof.Machine
end

