-- ==== Sys2Proof/Machine/Decoder.lean ====
section
/-! DEFINITION. The decoder engine `huffman_decoder` (41_decoder.md R140 to R154): `DEC_START`, the two tokens of `dec_in`
and the steps that have no encoding. -/

namespace Sys2Proof.Machine

/-- `JOB <- DEC ; DPH <- p` (R140). -/
def startDecoder (p : DecPhase) (s : State) : State :=
  { s with dec := { s.dec with phase := p }, job := .dec }

/-- `BN <- 0` (R140). -/
def dropBits (s : State) : State := { s with dec := { s.dec with bn := 0 } }

/-- `CUR <- ROOT.REF` (R140, R146). -/
def goToRoot (s : State) : State := { s with dec := { s.dec with cur := s.root.ref } }

/-- The effect of `DEC_START` in `IDLE` (R140): `BN <- 0`, `NOROOT`; then `CUR <- ROOT.REF`, and the root decides. -/
def decStartEffect (s : State) : State :=
  if s.root.v then
    if s.root.ref.isLeaf && s.root.ref.isEof then startDecoder .fin (goToRoot (dropBits s))
    else if s.root.ref.isLeaf then raise .noeof 0 (goToRoot (dropBits s))
    else if (s.node s.root.ref.val).v then startDecoder .walk (goToRoot (dropBits s))
    else raise .badnode s.root.ref.val.zext9 (goToRoot (dropBits s))
  else raise .noroot 0 (dropBits s)

/-- `DEC_START` (R140, R127). -/
def execDecStart (s : State) : Host.Outcome State Fault Refusal :=
  .next (whenIdle s (decStartEffect s))

/-- The guard of DEC-FILL but for the offered token: `JOB = DEC`, `DPH = D_WALK`, `BN = 0` (R143). -/
def decFills (s : State) : Bool :=
  s.job = .dec && s.dec.phase = .walk && s.dec.bn = 0#4

/-- The guard of DEC-DRAIN but for the offered token: `JOB = DEC`, `DPH = D_DRAIN` (R148). -/
def decDrains (s : State) : Bool :=
  s.job = .dec && s.dec.phase = .drain

/-- `SR <- b ; BN <- 8` (R143). -/
def fillByte (b : Byte) (s : State) : State :=
  { s with dec := { s.dec with sr := b, bn := 8 } }

/-- `DATA(b)` on `dec_in`: DEC-FILL in `D_WALK` (R143), discarded in `D_DRAIN` (R148). Where neither guard holds the token
is not taken (R17, R225; log 7). -/
def execDecInData (b : Byte) (s : State) : Host.Outcome State Fault Refusal :=
  .next (if decFills s then fillByte b (takeDecIn s)
    else if decDrains s then takeDecIn s
    else s)

/-- `END` on `dec_in`, whose data bits are ignored (R98): `TRUNC(CUR[8:0])` in `D_WALK` (R143), the end of the job in
`D_DRAIN` (R148). Where neither guard holds the token is not taken (R17, R225; log 7). -/
def execDecInEnd (_d : Byte) (s : State) : Host.Outcome State Fault Refusal :=
  .next (if decFills s then raise .trunc (s.dec.cur.setWidth 9) (takeDecIn s)
    else if decDrains s then endJob (takeDecIn s)
    else s)

/-- The steps of the decoder. -/
inductive DecAct where
  /-- DEC-FILL or DEC-DRAIN, which take a token (R143, R148). -/
  | token
  /-- DEC-BIT (R144). -/
  | bit
  /-- DEC-EMIT (R146). -/
  | emit
  /-- DEC-FIN (R147). -/
  | fin
  deriving DecidableEq, Repr

/-- The one decoder step that is enabled, if any (R152). Whether the host accepts an output is the turn's business
(log 2). -/
def decAction (s : State) : Option DecAct :=
  if s.job ≠ .dec then none
  else
    match s.dec.phase with
    | .walk =>
      if s.dec.bn = 0#4 then if s.ports.decIn.isEmpty then none else some .token
      else some .bit
    | .emit => some .emit
    | .fin => some .fin
    | .drain => if s.ports.decIn.isEmpty then none else some .token

/-- The ref a walk step follows: right on 1, left on 0 (R144). -/
def child (n : NodeEntry) (bit : Bool) : Ref := if bit then n.right else n.left

/-- `bit <- SR[7] ; SR <- {SR[6:0], 0} ; BN <- BN - 1` (R144): the state after the bit is consumed. -/
def consumeBit (s : State) : State :=
  { s with dec := { s.dec with sr := s.dec.sr <<< 1, bn := s.dec.bn - 1 } }

/-- The arrival of the walk at `r`: the EOF leaf, a byte leaf, a missing node, or a node (R144, R145). -/
def arrive (r : Ref) (s : State) : State :=
  if r.isLeaf && r.isEof then { s with dec := { s.dec with phase := .fin } }
  else if r.isLeaf then { s with dec := { s.dec with outb := r.val, phase := .emit } }
  else if (s.node r.val).v then { s with dec := { s.dec with cur := r } }
  else raise .badnode r.val.zext9 s

/-- Step DEC-BIT: consume one bit, move to a child, detect a leaf (R144). -/
def decBit (s : State) : State :=
  arrive (child (s.node s.dec.cur.val) (s.dec.sr.getLsbD 7)) (consumeBit s)

/-- Step DEC-EMIT: send the decoded byte and return to the root (R146). -/
def decEmit (s : State) : State :=
  let t := putDecOut (Token.data s.dec.outb) s
  { t with dec := { s.dec with cur := s.root.ref, phase := .walk } }

/-- Step DEC-FIN: the end-of-stream leaf was reached, send `END` (R147). -/
def decFin (s : State) : State :=
  let t := putDecOut Token.fin s
  { t with dec := { s.dec with phase := .drain } }

end Sys2Proof.Machine
end

