-- ==== Sys2Proof/Machine/Encoder.lean ====
section
/-! DEFINITION. The encoder engine `huffman_encoder` (43_encoder.md R170 to R185): the two tokens of `enc_in` and the steps
that have no encoding. -/

namespace Sys2Proof.Machine

/-- The guard of ENC-TOKEN but for the offered token: `JOB = ENC`, `EPH = E_WAIT`, `NB < 8` (R171, R172). -/
def encTakesToken (s : State) : Bool :=
  s.job = .enc && s.enc.phase = .wait && s.enc.nb < 8#4

/-- `PSYM <- k ; PIDX <- 0 ; EPH <- E_SHIFT` (R171, R172). -/
def startPath (k : SymId) (s : State) : State :=
  { s with enc := { s.enc with psym := k, pidx := 0, phase := .shift } }

/-- ENC-TOKEN on `DATA(b)`: the table lookup (R171). The token is consumed also when `UNKSYM` is raised. -/
def lookupByte (b : Byte) (s : State) : State :=
  if hasEntry s.tbl b.zext9 then startPath b.zext9 (takeEncIn s)
  else raise .unksym b.zext9 (takeEncIn s)

/-- `DATA(b)` on `enc_in` (R171). Where the guard does not hold the token is not taken: it stays with the host and
nothing changes (R17, R225; log 7). -/
def execEncInData (b : Byte) (s : State) : Host.Outcome State Fault Refusal :=
  .next (if encTakesToken s then lookupByte b s else s)

/-- `END` on `enc_in`, whose data bits are ignored (R172, R98). Where the guard does not hold the token is not taken
(R17, R225; log 7). -/
def execEncInEnd (_d : Byte) (s : State) : Host.Outcome State Fault Refusal :=
  .next (if encTakesToken s then startPath Config.eofId (takeEncIn s) else s)

/-- The steps of the encoder. -/
inductive EncAct where
  /-- ENC-TOKEN (R171, R172). -/
  | token
  /-- ENC-SHIFT, with the path bit it writes (R173). -/
  | shift (bit : Bool)
  /-- ENC-NEXT (R174). -/
  | next
  /-- ENC-BYTE (R175). -/
  | byte
  /-- ENC-PAD (R176). -/
  | pad
  /-- ENC-END (R177). -/
  | fin
  /-- Phase `E_SHIFT` with a `PSYM` that names no entry (R97; log 9). -/
  | noEntry
  deriving DecidableEq, Repr

/-- Which step phase `E_SHIFT` enables: ENC-SHIFT below the path's end, ENC-NEXT at it (R173, R174). -/
def encShiftAct (s : State) : Option EncAct :=
  match s.entry s.enc.psym with
  | none => some .noEntry
  | some e =>
    if s.enc.pidx.toNat < e.len then some (.shift (e.path.getD s.enc.pidx.toNat false))
    else if s.enc.pidx.toNat = e.len then some .next
    else none

/-- The one encoder step that is enabled, if any (R179): `NB = 8` enables only ENC-BYTE (so not
ENC-END either, log 13), otherwise `EPH` selects; in states that no run reaches the guards are followed to the letter (log 14).
Whether the host accepts an output is the turn's business (log 2). -/
def encAction (s : State) : Option EncAct :=
  if s.job ≠ .enc then none
  else if s.enc.nb = 8#4 then some .byte
  else
    match s.enc.phase with
    | .wait => if encTakesToken s && !s.ports.encIn.isEmpty then some .token else none
    | .shift => if s.enc.nb < 8#4 then encShiftAct s else none
    | .pad => if s.enc.nb < 8#4 then some .pad else none
    | .fin => some .fin

/-- Step ENC-SHIFT: `ACC <- {ACC[6:0], bit} ; NB <- NB + 1 ; PIDX <- PIDX + 1` (R173). -/
def encShift (bit : Bool) (s : State) : State :=
  { s with enc := { s.enc with
      acc := s.enc.acc <<< 1 ||| (BitVec.ofBool bit).setWidth 8
      nb := s.enc.nb + 1
      pidx := s.enc.pidx + 1 } }

/-- Step ENC-NEXT: after the end-of-stream path the job pads, after any other it waits for a token (R174). -/
def encNext (s : State) : State :=
  { s with enc := { s.enc with phase := if s.enc.psym = Config.eofId then .pad else .wait } }

/-- Step ENC-BYTE: send the full byte (R175). -/
def encByte (s : State) : State :=
  let t := putEncOut (Token.data s.enc.acc) s
  { t with enc := { s.enc with acc := 0, nb := 0 } }

/-- Step ENC-PAD: fill the partial byte with zero bits, or finish if there is none (R176). -/
def encPad (s : State) : State :=
  if s.enc.nb = 0#4 then { s with enc := { s.enc with phase := .fin } }
  else { s with enc := { s.enc with acc := s.enc.acc <<< (8 - s.enc.nb.toNat), nb := 8 } }

/-- Step ENC-END: send `END`, the job is complete (R177). -/
def encEnd (s : State) : State := endJob (putEncOut Token.fin s)

end Sys2Proof.Machine
end

