-- ==== Sys2Proof/Machine/TableBuild.lean ====
section
/-! DEFINITION. `ENC_START` and the building of the code table (42_table_build.md R160 to R169). -/

namespace Sys2Proof.Machine

/-- A job fault and its `INFO`, if the build met one. -/
abbrev BuildFault := Option (JobFault × BitVec 9)

/-- `visit(r, path)` (R161) with `depth` = 256 - |path| levels left: depth first, left before right, the first fault ends
the build and the entries recorded so far stay (R169). At a node `BADNODE` is tested before `DEPTH` (R162). A leaf
whose symbol id the table cannot hold is in no store that a run reaches (R36; DEDUCED, safe; log 14). -/
def visit (nodes : Nodes) : (depth : Nat) → (r : Ref) → (path : Path) → Tbl → BuildFault × Tbl
  | depth, r, path, t =>
    if r.isLeaf then
      if hasEntry t r.sym then (some (.dupsym, r.sym), t)
      else (none, recordEntry t r.sym path)
    else
      let n : NodeEntry := nodes[r.val.toNat]'r.val.isLt
      if n.v then
        match depth with
        | 0 => (some (.depth, r.val.zext9), t)
        | depth + 1 =>
          match visit nodes depth n.left (path ++ [false]) t with
          | (some f, t') => (some f, t')
          | (none, t') => visit nodes depth n.right (path ++ [true]) t'
      else (some (.badnode, r.val.zext9), t)

/-- `build()` (R161) on the invalidated table: `NOROOT`, then the traversal, then `NOEOF` (R163). -/
def build (root : RootReg) (nodes : Nodes) (t : Tbl) : BuildFault × Tbl :=
  if root.v then
    match visit nodes Config.maxLen root.ref [] t with
    | (some f, t') => (some f, t')
    | (none, t') => if hasEntry t' Config.eofId then (none, t') else (some (.noeof, 0), t')
  else (some (.noroot, 0), t)

/-- The start of an encode job (R160): `ACC <- 0 ; NB <- 0 ; EPH <- E_WAIT ; JOB <- ENC`. -/
def startEncoder (s : State) : State :=
  { s with enc := { s.enc with acc := 0, nb := 0, phase := .wait }, job := .enc }

/-- The effect of `ENC_START` in `IDLE` (R160, R169). -/
def encStartEffect (s : State) : State :=
  match build s.root s.nodes (invalidateTbl s.tbl) with
  | (some (f, info), t) => raise f info { s with tbl := t }
  | (none, t) => startEncoder { s with tbl := t }

/-- `ENC_START` (R160, R127). -/
def execEncStart (s : State) : Host.Outcome State Fault Refusal :=
  .next (whenIdle s (encStartEffect s))

end Sys2Proof.Machine
end

