-- ==== Sys2Proof/Machine/Dispatch.lean ====
section
/-! DEFINITION. The meaning of every instruction: one arm per constructor of Instr, one direct call each. -/

namespace Sys2Proof.Machine

def exec (i : Instr) (s : State) : Host.Outcome State Fault Refusal :=
  match i with
  | .nop => Sys2Proof.Machine.execNop s
  | .setroot ref => Sys2Proof.Machine.execSetroot ref s
  | .ldnode idx left right => Sys2Proof.Machine.execLdnode idx left right s
  | .clrtree => Sys2Proof.Machine.execClrtree s
  | .encStart => Sys2Proof.Machine.execEncStart s
  | .decStart => Sys2Proof.Machine.execDecStart s
  | .abort => Sys2Proof.Machine.execAbort s
  | .clrerr => Sys2Proof.Machine.execClrerr s
  | .rdreg addr => Sys2Proof.Machine.execRdreg addr s
  | .encInData b => Sys2Proof.Machine.execEncInData b s
  | .encInEnd d => Sys2Proof.Machine.execEncInEnd d s
  | .decInData b => Sys2Proof.Machine.execDecInData b s
  | .decInEnd d => Sys2Proof.Machine.execDecInEnd d s

end Sys2Proof.Machine
end

