-- ==== Sys2Proof/WellFormed.lean ====
section
/-! DEFINITION. Which instructions are well formed: the refs of `SETROOT` and `LDNODE` are legal (30_encoding.md R96,
R99 cases 5 and 6). Every other operand is legal at every value (R100, R98). -/

namespace Sys2Proof

/-- A legal ref is one of the three kinds of R96: internal, byte leaf, EOF leaf. -/
def Ref.legal (r : Ref) : Bool := !r.reserved

/-- The well-formedness check of an instruction (R99 cases 5 and 6). -/
def Instr.wellFormed : Instr → Bool
  | .nop => true
  | .setroot ref => ref.legal
  | .ldnode _ left right => left.legal && right.legal
  | .clrtree => true
  | .encStart => true
  | .decStart => true
  | .abort => true
  | .clrerr => true
  | .rdreg _ => true
  | .encInData _ => true
  | .encInEnd _ => true
  | .decInData _ => true
  | .decInEnd _ => true

end Sys2Proof
end

