-- ==== Sys2Proof/Decode.lean ====
section
/-! DEFINITION. The decoder (30_encoding.md R90, R91, R98 to R100, R106), total on every command word and every token,
rejecting by name; and after it the encoder, from the same encoding tables. -/

namespace Sys2Proof

/-- Why a command word is reserved: the six cases of R99. Each is the rejection `ILLCMD` (R191); the names are
the model's (DESIGN CHOICE, safe; log 16). -/
inductive IllCmd where
  /-- Case 1: `OP` in 0x9..0xF. -/
  | opcode
  /-- Case 2: a format Z command with any of bits 27:0 not 0. -/
  | formatZ
  /-- Case 3: `SETROOT` with any of bits 27:10 not 0. -/
  | formatR
  /-- Case 4: `RDREG` with any of bits 27:16 not 0. -/
  | formatA
  /-- Case 5: `SETROOT` with a reserved ref. -/
  | rootRef
  /-- Case 6: `LDNODE` with a reserved `LEFT` or `RIGHT`. -/
  | nodeRef
  deriving DecidableEq, Repr

/-- `OP` = `w[31:28]` (R90). -/
def Word.op (w : Word) : BitVec 4 := w.extractLsb' 28 4

/-- `IDX` = `w[27:20]` (R100). -/
def Word.idx (w : Word) : Byte := w.extractLsb' 20 8

/-- `LEFT` = `w[19:10]` (R100). -/
def Word.left (w : Word) : Ref := w.extractLsb' 10 10

/-- `RIGHT` = `REF` = `w[9:0]` (R100). -/
def Word.right (w : Word) : Ref := w.extractLsb' 0 10

/-- `ADDR` = `w[15:0]` (R100). -/
def Word.addr (w : Word) : RegAddr := w.extractLsb' 0 16

/-- The format Z opcodes, 0 and 3 to 7 (R106). -/
def isFormatZ (op : BitVec 4) : Bool :=
  op == 0#4 || op == 3#4 || op == 4#4 || op == 5#4 || op == 6#4 || op == 7#4

/-- The row of the opcode map that a well-formed word selects (R91). -/
def selectRow (w : Word) : Instr :=
  match w.op.toNat with
  | 0 => .nop
  | 1 => .setroot w.right
  | 2 => .ldnode w.idx w.left w.right
  | 3 => .clrtree
  | 4 => .encStart
  | 5 => .decStart
  | 6 => .abort
  | 7 => .clrerr
  | _ => .rdreg w.addr

/-- The decode procedure of R106: the first test that fails decides the outcome. -/
def decodeCmd (w : Word) : Except IllCmd Instr :=
  if 8#4 < w.op then .error .opcode
  else if isFormatZ w.op && w.extractLsb' 0 28 != 0#28 then .error .formatZ
  else if w.op == 1#4 && w.extractLsb' 10 18 != 0#18 then .error .formatR
  else if w.op == 8#4 && w.extractLsb' 16 12 != 0#12 then .error .formatA
  else if w.op == 1#4 && w.right.reserved then .error .rootRef
  else if w.op == 2#4 && (w.left.reserved || w.right.reserved) then .error .nodeRef
  else .ok (selectRow w)

/-- A token on `enc_in`; tokens have no reserved encoding (R98, R99). -/
def decodeEncIn (t : Token) : Instr :=
  if t.isEnd then .encInEnd t.payload else .encInData t.payload

/-- A token on `dec_in` (R98, R99). -/
def decodeDecIn (t : Token) : Instr :=
  if t.isEnd then .decInEnd t.payload else .decInData t.payload

/-- The decoder over every item a channel can carry. -/
def decode : Offer → Except IllCmd Instr
  | .cmd w => decodeCmd w
  | .encIn t => .ok (decodeEncIn t)
  | .decIn t => .ok (decodeDecIn t)

/-- The encoder: fields packed as the format rows of R90 and the encodings of R91 and R98 lay them out, most significant
field first. -/
def encode : Instr → Offer
  | .nop => .cmd 0x00000000#32
  | .setroot ref => .cmd (0x1#4 ++ 0#18 ++ ref)
  | .ldnode idx left right => .cmd (0x2#4 ++ idx ++ left ++ right)
  | .clrtree => .cmd 0x30000000#32
  | .encStart => .cmd 0x40000000#32
  | .decStart => .cmd 0x50000000#32
  | .abort => .cmd 0x60000000#32
  | .clrerr => .cmd 0x70000000#32
  | .rdreg addr => .cmd (0x8#4 ++ 0#12 ++ addr)
  | .encInData b => .encIn (Token.data b)
  | .encInEnd d => .encIn (Token.endWith d)
  | .decInData b => .decIn (Token.data b)
  | .decInEnd d => .decIn (Token.endWith d)

/-- The item that a word of the opcode table stands for: a row of up to two bytes is a token (9 bits), a longer one a
command word. The table gives the rows of `enc_in` and `dec_in` the same 9-bit words, so a token word alone does not
say its channel; it is read as one on `enc_in` (DESIGN CHOICE, safe; log 5). -/
def tableOffer (nbits w : Nat) : Option Offer :=
  if nbits ≤ 16 then
    if w < 2 ^ 9 then some (.encIn (BitVec.ofNat 9 w)) else none
  else
    if w < 2 ^ 32 then some (.cmd (BitVec.ofNat 32 w)) else none

/-- The instruction the decoder reads from a word numbered as spec/opcode_table.json numbers it; `none` where the
decoder refuses. -/
def decodeTableWord (nbits w : Nat) : Option Instr :=
  match tableOffer nbits w with
  | some o => (decode o).toOption
  | none => none

end Sys2Proof
end

