-- ==== Sys2Proof/Machine/Fetch.lean ====
section
/-! DEFINITION. Who moves next (00_scope.md R6, R17), what that move is, and how an instruction is placed so that it is the
next one. -/

namespace Sys2Proof.Machine

/-- What a turn comes to: an instruction to run at a state, or the outcome of a step that runs none. -/
inductive Fetched where
  | instr (i : Instr) (s : State)
  | done (o : Host.Outcome State Fault Refusal)

/-- The command step (R126), its guard `RSPV = 0` and an offered word: the word is taken; one that does not decode is
rejected with `ILLCMD` (R195), any other runs. -/
def commandTurn (s : State) : Fetched :=
  if s.rsp.v then .done (.next s)
  else
    match s.ports.cmd with
    | [] => .done (.next s)
    | w :: _ =>
      match decodeCmd w with
      | .error _ => .done (.next (reject .illcmd (takeCmd s)))
      | .ok i => .instr i (takeCmd s)

/-- The response transfer (R132), its guard `RSPV = 1`; the turn is the host's acceptance. -/
def responseTurn (s : State) : Fetched :=
  .done (.next (if s.rsp.v then sendResponse s else s))

/-- The encoder's turn: its one enabled step, if any (R179). ENC-TOKEN runs the offered token's instruction. -/
def encoderTurn (s : State) : Fetched :=
  match encAction s with
  | none => .done (.next s)
  | some .token =>
    match s.ports.encIn with
    | [] => .done (.next s)
    | t :: _ => .instr (decodeEncIn t) s
  | some (.shift bit) => .done (.next (encShift bit s))
  | some .next => .done (.next (encNext s))
  | some .byte => .done (.next (encByte s))
  | some .pad => .done (.next (encPad s))
  | some .fin => .done (.next (encEnd s))
  | some .noEntry => .done (.fault .noTableEntry)

/-- The decoder's turn: its one enabled step, if any (R152). DEC-FILL and DEC-DRAIN run the offered token's
instruction. -/
def decoderTurn (s : State) : Fetched :=
  match decAction s with
  | none => .done (.next s)
  | some .token =>
    match s.ports.decIn with
    | [] => .done (.next s)
    | t :: _ => .instr (decodeDecIn t) s
  | some .bit => .done (.next (decBit s))
  | some .emit => .done (.next (decEmit s))
  | some .fin => .done (.next (decFin s))

/-- What a turn does. -/
def takeTurn (t : Turn) (s : State) : Fetched :=
  match t with
  | .command => commandTurn s
  | .response => responseTurn s
  | .encoder => encoderTurn s
  | .decoder => decoderTurn s
  | .reset => .done (.next (resetEvent s))
  | .offerCmd w => .done (.next (offer (.cmd w) s))
  | .offerEncIn w => .done (.next (offer (.encIn w) s))
  | .offerDecIn w => .done (.next (offer (.decIn w) s))

/-- The command side's enabled step: the response transfer if a response is pending, else the command step if a word is
offered (R126, R132: never both). -/
def channelReady (s : State) : Option Turn :=
  if s.rsp.v then some .response
  else if s.ports.cmd.isEmpty then none
  else some .command

/-- The engine that has an enabled step, if any; at most one has (R45). -/
def engineReady (s : State) : Option Turn :=
  if (encAction s).isSome then some .encoder
  else if (decAction s).isSome then some .decoder
  else none

/-- Whose turn it is, and the state with that turn used up. The run's parameters decide as far as they go (`turns`); after
that an enabled step is taken, by the free value `Config.engineMovesFirst` where two are enabled; if none is, the run
waits or is over (R17, R230; log 2). -/
def nextTurn (s : State) : Option Turn × State :=
  match s.turns with
  | t :: rest => (some t, { s with turns := rest })
  | [] =>
    match channelReady s, engineReady s with
    | some a, some b => (some (if Config.engineMovesFirst s.tick then b else a), { s with tick := s.tick + 1 })
    | some a, none => (some a, s)
    | none, some b => (some b, s)
    | none, none => (none, s)

/-- What the next step does: the turn that comes next, taken; with no turn left and no step enabled nothing changes
(R230). -/
def fetch (s : State) : Fetched :=
  match nextTurn s with
  | (some t, s') => takeTurn t s'
  | (none, s') => .done (.next s')

/-- `s` with a command word as the next thing the block takes: first on its channel, no response pending, the command
unit's turn (log 6). -/
def placeCmd (w : Word) (s : State) : State :=
  { s with
    rsp := { s.rsp with v := false }
    ports := { s.ports with cmd := w :: s.ports.cmd }
    turns := .command :: s.turns }

/-- `s` with a token on `enc_in` as the next thing the block takes: first on its channel, an encode job in `E_WAIT` with
an empty accumulator, the encoder's turn (log 6). -/
def placeEncIn (t : Token) (s : State) : State :=
  { s with
    job := .enc
    enc := { s.enc with phase := .wait, acc := 0, nb := 0 }
    ports := { s.ports with encIn := t :: s.ports.encIn }
    turns := .encoder :: s.turns }

/-- `s` with a token on `dec_in` as the next thing the block takes: first on its channel, a decode job in `D_WALK`
with no bits left, the decoder's turn (log 6). -/
def placeDecIn (t : Token) (s : State) : State :=
  { s with
    job := .dec
    dec := { s.dec with phase := .walk, bn := 0 }
    ports := { s.ports with decIn := t :: s.ports.decIn }
    turns := .decoder :: s.turns }

/-- An offered item placed as the next instruction. -/
def placeOffer (o : Offer) (s : State) : State :=
  match o with
  | .cmd w => placeCmd w s
  | .encIn t => placeEncIn t s
  | .decIn t => placeDecIn t s

/-- The table word placed as the next instruction; a word that is no item changes nothing (log 5, log 6). -/
def placeTableWord (nbits w : Nat) (s : State) : State :=
  match tableOffer nbits w with
  | some o => placeOffer o s
  | none => s

end Sys2Proof.Machine
end

