-- ==== Sys2Proof/Machine/Step.lean ====
section
/-! DEFINITION. One step of the machine: one atomic step of one agent (00_scope.md R6, R17). -/

namespace Sys2Proof.Machine

/-- What was fetched, done: the instruction runs, or the turn's other outcome stands. -/
def runFetched : Fetched → Host.Outcome State Fault Refusal
  | .instr i s => exec i s
  | .done o => o

/-- One step: the next turn, done. -/
def step (s : State) : Host.Outcome State Fault Refusal := runFetched (fetch s)

/-- `s` with the instruction of a table word stored where the next step fetches it (log 5, log 6). -/
def State.withFetchWord (s : State) (nbits w : Nat) : State := placeTableWord nbits w s

end Sys2Proof.Machine
end

