-- ==== Sys2Proof/Machine/Pins.lean ====
section
/-! DEFINITION. The block's output ports as functions of its state (10_state.md R42, R43; 20_memory.md R66). A `ready` or
`valid` that R66 raises "only when" a step is enabled is raised exactly then; while `rst` is high, which the model has only
as an event between steps, they are not modelled (log 10, log 11). -/

namespace Sys2Proof.Machine

/-- `busy`: 1 exactly when `JOB` is `ENC` or `DEC` (R42, R43). -/
def busyPin (s : State) : Bool := s.job = .enc || s.job = .dec

/-- `fault`: 1 exactly when `ERR` is not 0 (R42, R43, R199). -/
def faultPin (s : State) : Bool := s.err != 0#10

/-- `cmd_ready`: no response pending (R44, R66). -/
def cmdReady (s : State) : Bool := !s.rsp.v

/-- `rsp_valid`: a response is pending (R44, R132). -/
def rspValid (s : State) : Bool := s.rsp.v

/-- `rsp_data` while `rsp_valid` (R44). -/
def rspData (s : State) : Word := s.rsp.data

/-- `enc_in_ready`: ENC-TOKEN waits for a token (R66, R171). -/
def encInReady (s : State) : Bool := encTakesToken s

/-- `dec_in_ready`: DEC-FILL or DEC-DRAIN waits for a token (R66, R143, R148). -/
def decInReady (s : State) : Bool := decFills s || decDrains s

/-- The token on `enc_out`, if `enc_out_valid`: a full byte or the final `END` (R66, R175, R177). `ABORT` of the
job withdraws it untransferred (R124; DESIGN CHOICE, unsafe; log 19). -/
def encOutOffer (s : State) : Option Token :=
  match encAction s with
  | some .byte => some (Token.data s.enc.acc)
  | some .fin => some Token.fin
  | _ => none

/-- The token on `dec_out`, if `dec_out_valid`: a decoded byte or the final `END` (R66, R146, R147). `ABORT` of
the job withdraws it untransferred (R124; DESIGN CHOICE, unsafe; log 19). -/
def decOutOffer (s : State) : Option Token :=
  match decAction s with
  | some .emit => some (Token.data s.dec.outb)
  | some .fin => some Token.fin
  | _ => none

end Sys2Proof.Machine
end

