-- ==== Sys2Proof/Machine/Runs.lean ====
section
/-! DEFINITION. When a run is over, when it waits, and how a job ended (70_reset_and_hazards.md R230). -/

namespace Sys2Proof.Machine

/-- The turns that are the host's own moves: an offer, or `rst` (R228). -/
def Turn.isHost : Turn → Bool
  | .command => false
  | .response => false
  | .encoder => false
  | .decoder => false
  | .reset => true
  | .offerCmd _ => true
  | .offerEncIn _ => true
  | .offerDecIn _ => true

/-- The host has moves of its own left in the given order (DESIGN CHOICE, safe; log 20). -/
def State.hostMovesLeft (s : State) : Bool := s.turns.any Turn.isHost

/-- No step of the block is enabled: "no command or token is on offer that the block would take, no response is pending, and
no engine step is enabled" (R230). That is the end of a run or a wait. -/
def State.quiescent (s : State) : Bool :=
  (channelReady s).isNone && (engineReady s).isNone

/-- A wait, not an end: a job runs and no step is enabled because the host offers no token (R228, R230). -/
def State.waits (s : State) : Bool := s.quiescent && busyPin s

/-- The run is over: no step is enabled, no job waits, and the host has nothing left to offer (R230; log 20). -/
def State.runOver (s : State) : Bool := s.quiescent && !busyPin s && !s.hostMovesLeft

/-- The two ways a job ends (R230). -/
inductive JobEnd where
  | success | failure
  deriving DecidableEq, Repr

/-- How a job ends in the step from `s` to `t`, if one does: successfully where an engine's step returns `JOB` to `IDLE`
(ENC-END, DEC-DRAIN taking `END`); unsuccessfully where `JOB` becomes `HALTED`, or `ABORT` or reset is accepted while the
job runs (R230). -/
def jobEnd (s t : State) : Option JobEnd :=
  match t.job with
  | .halted => if s.job = .halted then none else some .failure
  | .idle =>
    if busyPin s then
      match (nextTurn s).1 with
      | some .encoder => some .success
      | some .decoder => some .success
      | _ => some .failure
    else none
  | .enc => none
  | .dec => none

end Sys2Proof.Machine
end

