-- ==== Sys2Proof/Safety.lean ====
section
/-! DEFINITION. What counts as a legal state of the block and the terms claims use: the invariant of every reachable state,
the paths of a tree, and what a payload means. -/

namespace Sys2Proof.Machine

/-- The invariants the spec derives for the block's state. -/
structure State.Inv (s : State) : Prop where
  /-- A stored root is a legal ref (R36). -/
  rootLegal : s.root.v = true → Ref.reserved s.root.ref = false
  /-- The refs of a valid node are legal (R36). -/
  nodeLegal : ∀ i : Byte, (s.node i).v = true →
    Ref.reserved (s.node i).left = false ∧ Ref.reserved (s.node i).right = false
  /-- Path lengths never exceed 256 (R37, R166). -/
  pathLen : ∀ k e, s.entry k = some e → e.len ≤ Config.maxLen
  /-- `CAUSE` codes 8..15 are never written (R190). -/
  cause : s.fault.cause.toNat ≤ 7
  /-- `NB` stays in 0..8 (R24, R181). -/
  nbBound : s.enc.nb.toNat ≤ 8
  /-- `BN` stays in 0..8 (R24). -/
  bnBound : s.dec.bn.toNat ≤ 8
  /-- Below a full byte `ACC` holds exactly `NB` bits and zeros above (R181). -/
  accZeros : s.enc.nb.toNat < 8 → s.enc.acc.toNat < 2 ^ s.enc.nb.toNat
  /-- During an encode job the end-of-stream marker has a path (R163, R172). -/
  eofEntry : s.job = .enc → hasEntry s.tbl Config.eofId = true
  /-- While a path is being emitted its symbol has an entry and `PIDX` is 0..`LEN` (R171, R181). -/
  shifting : s.job = .enc → s.enc.phase = .shift →
    ∃ e, s.entry s.enc.psym = some e ∧ e.v = true ∧ s.enc.pidx.toNat ≤ e.len
  /-- When the encoder is about to send `END` nothing is left in the accumulator (R176). -/
  finEmpty : s.job = .enc → s.enc.phase = .fin → s.enc.nb = 0#4
  /-- `CUR` is a legal ref during a decode job (R36). -/
  curLegal : s.job = .dec → Ref.reserved s.dec.cur = false
  /-- While walking or emitting, the root is an internal ref with a valid entry (R140, R146). -/
  rootNode : s.job = .dec → s.dec.phase = .walk ∨ s.dec.phase = .emit →
    s.root.v = true ∧ Ref.isLeaf s.root.ref = false ∧ (s.node (Ref.val s.root.ref)).v = true
  /-- While walking, `CUR` is an internal ref with a valid entry (R151). -/
  curNode : s.job = .dec → s.dec.phase = .walk →
    Ref.isLeaf s.dec.cur = false ∧ (s.node (Ref.val s.dec.cur)).v = true

/-- `t` comes after `s` by zero or more steps. -/
def Reaches (s t : State) : Prop := Relation.ReflTransGen (fun u v => step u = .next v) s t

/-- The refs met along a path: `follow nodes r p` is where the walk from `r` along `p` stands, if every node on the way is
valid (R15, R33, R34). -/
def follow (nodes : Nodes) : Ref → Path → Option Ref
  | r, [] => some r
  | r, b :: p =>
    if Ref.isLeaf r then none
    else
      let n : NodeEntry := nodes[(Ref.val r).toNat]'(Ref.val r).isLt
      if n.v then follow nodes (child n b) p else none

/-- `p` is the path from `r` to a leaf of symbol `k` (R15, R164). -/
def leafAt (nodes : Nodes) (r : Ref) (p : Path) (k : SymId) : Prop :=
  ∃ r', follow nodes r p = some r' ∧ Ref.isLeaf r' = true ∧ Ref.sym r' = k

/-- `q` lies to the left of `p`: where the two paths part, `q` goes left and `p` right. Of two leaves, or of a leaf and the
place where the traversal stands, the one to the left is visited first (R161). -/
def leftOf : Path → Path → Bool
  | a :: q, b :: p => if a = b then leftOf q p else !a
  | [], _ => false
  | _ :: _, [] => false

/-- Entry `k` of the table is valid and holds the path `p` (R37). -/
def holdsPath (t : Tbl) (k : SymId) (p : Path) : Prop :=
  entryOf t k = some { v := true, path := p }

/-- The valid-tree invariant of R35 for the graph reached from `ROOT`: it is finite (the paths are bounded), every internal
ref reached names a valid entry, no two leaves reached carry the same symbol (so no entry is reached twice, R164), and an
end-of-stream leaf is reached. -/
structure State.ValidTree (s : State) : Prop where
  rootValid : s.root.v = true
  finite : ∃ n, ∀ p r, follow s.nodes s.root.ref p = some r → p.length ≤ n
  nodesValid : ∀ p r, follow s.nodes s.root.ref p = some r → Ref.isLeaf r = false → (s.node (Ref.val r)).v = true
  symbolsUnique : ∀ p q k, leafAt s.nodes s.root.ref p k → leafAt s.nodes s.root.ref q k → p = q
  eofReached : ∃ p, leafAt s.nodes s.root.ref p Config.eofId

/-- The traversal from `root` reached the place at path `p` without `BADNODE` or `DEPTH`: `p` is at depth 256 at most, and to
the left of it every internal ref names a valid entry above depth 256 (R161, R162, R197). -/
def reachedClean (nodes : Nodes) (root : Ref) (p : Path) : Prop :=
  p.length ≤ Config.maxLen ∧
    ∀ q r, follow nodes root q = some r → leftOf q p = true → Ref.isLeaf r = false →
      (nodes[(Ref.val r).toNat]'(Ref.val r).isLt).v = true ∧ q.length < Config.maxLen

/-- The table holds exactly the leaves to the left of the place at path `p`: the entries recorded before the traversal came
there (R161, R169). -/
def recordedBefore (nodes : Nodes) (root : Ref) (p : Path) (t : Tbl) : Prop :=
  ∀ k q, k.toNat < Config.numSyms → (holdsPath t k q ↔ leafAt nodes root q k ∧ leftOf q p = true)

/-- The path a table gives a symbol; empty where it has none (R37). -/
def pathOf (t : Tbl) (k : SymId) : Path := ((entryOf t k).map TblEntry.path).getD []

/-- The bits of a byte in stream order, most significant first (R60, R61). -/
def byteBits (b : Byte) : List Bool :=
  [b.getLsbD 7, b.getLsbD 6, b.getLsbD 5, b.getLsbD 4, b.getLsbD 3, b.getLsbD 2, b.getLsbD 1, b.getLsbD 0]

/-- The payload bits collected in `ACC`, oldest first: `ACC[NB-1]` down to `ACC[0]` (R21). -/
def accBits (acc : Byte) (nb : Nat) : List Bool := (byteBits acc).drop (8 - nb)

/-- The bits not yet consumed of the decoder's input byte, next first: the top `BN` bits of `SR` (R22). -/
def srBits (sr : Byte) (bn : Nat) : List Bool := (byteBits sr).take bn

/-- The bits of the path being emitted that are still to come (R173). -/
def State.pathRest (s : State) : List Bool :=
  if s.enc.phase = .shift then (pathOf s.tbl s.enc.psym).drop s.enc.pidx.toNat else []

/-- The bits of the tokens the host received on `enc_out` (R60). -/
def sentBits (ts : List Token) : List Bool := ts.flatMap (fun t => byteBits (Token.payload t))

/-- What the encoder has sent, collected and is about to collect of the path at hand, as one bit sequence (R183). -/
def State.encodedBits (s : State) : List Bool :=
  sentBits s.ports.encOut ++ accBits s.enc.acc s.enc.nb.toNat ++ s.pathRest

/-- The byte whose bits, most significant first, are the given ones, zero bits after them (R60, R64). -/
def packByte (bits : List Bool) : Byte :=
  BitVec.ofNat 8 (bitsToNat ((bits.take 8 ++ List.replicate (8 - bits.length) false).reverse))

/-- The bytes of a bit sequence, the last one padded with zero bits (R60, R64, R182); at most `n` of them. -/
def packBytes : (n : Nat) → List Bool → List Byte
  | 0, _ => []
  | n + 1, bits => if bits.isEmpty then [] else packByte bits :: packBytes n (bits.drop 8)

/-- The payload of an input: every byte's path, then the end-of-stream path (R170, R183). -/
def payloadBits (t : Tbl) (input : List Byte) : List Bool :=
  input.flatMap (fun b => pathOf t (Byte.zext9 b)) ++ pathOf t Config.eofId

/-- How a walk over a bit sequence ends (R153). -/
inductive WalkEnd where
  /-- The end-of-stream leaf was reached. -/
  | eof
  /-- The bits ran out while the walk stood at `r` (`TRUNC`, R143). -/
  | trunc (r : Ref)
  /-- The walk arrived at entry `i`, which is not valid (`BADNODE`, R145). -/
  | badnode (i : Byte)
  deriving DecidableEq, Repr

/-- The reading of a bit sequence by a walk that stands at `r` and returns to `root` after every byte leaf: the decoded
bytes and how it ends (R101, R142, R153). -/
def parse (nodes : Nodes) (root : Ref) : Ref → List Bool → List Byte × WalkEnd
  | r, [] => ([], .trunc r)
  | r, b :: bits =>
    let n : NodeEntry := nodes[(Ref.val r).toNat]'(Ref.val r).isLt
    let nxt := child n b
    if Ref.isLeaf nxt && Ref.isEof nxt then ([], .eof)
    else if Ref.isLeaf nxt then
      let rest := parse nodes root root bits
      (Ref.val nxt :: rest.1, rest.2)
    else if (nodes[(Ref.val nxt).toNat]'(Ref.val nxt).isLt).v then parse nodes root nxt bits
    else ([], .badnode (Ref.val nxt))

end Sys2Proof.Machine
end

