-- ==== Sys2Proof/Certificates/Slice0/Obligations.lean ====
section
/-! DEFINITION. The statements for the provers. Each docstring names the rules of spec/ it formalises. An equation whose
right side is a record update of `s` states the frame too: every field it does not name is unchanged. -/

open Sys2Proof Sys2Proof.Machine

/-! ### Encodings (30_encoding.md) -/

/-- Words written out in 95_test_vectors.md decode to what it says: the scenario tree's first line, V1, V3, V4, V9, V12, V15
(2.1), V19g (2.2), a byte of V38 (2.5) and an `END` (2.7). That V9, V12 and V15 are refused is the spec's `ILLCMD` (R99); the
names of the three refusals are the model's choice (log 16). -/
def Obligations.VectorWordsDecode : Prop :=
  decodeCmd 0x00000000#32 = .ok .nop
    ∧ decodeCmd 0x10000241#32 = .ok (.setroot 0x241#10)
    ∧ decodeCmd 0x20098401#32 = .ok (.ldnode 0x00#8 0x261#10 0x001#10)
    ∧ decodeCmd 0x2FF3FEFF#32 = .ok (.ldnode 0xFF#8 0x0FF#10 0x2FF#10)
    ∧ decodeCmd 0x80000B08#32 = .ok (.rdreg 0x0B08#16)
    ∧ decodeCmd 0x40000100#32 = .error .formatZ
    ∧ decodeCmd 0x10000301#32 = .error .rootRef
    ∧ decodeCmd 0x20000100#32 = .error .nodeRef
    ∧ decodeEncIn 0x063#9 = .encInData 0x63#8
    ∧ decodeDecIn 0x100#9 = .decInEnd 0x00#8

/-- Decode of encode is the instruction, for every well-formed instruction and every operand value (R90, R91, R98, R100). That
the instruction of an `END` token has its ignored data bits as an operand is the model's choice (log 17). -/
def Obligations.DecodeOfEncodeIsIdentity : Prop :=
  ∀ i : Instr, i.wellFormed = true → decode (encode i) = .ok i

/-- The converse round trip: encode of what an accepted item decodes to is the item, and that instruction is well formed (R91,
R98, R99). For an `END` token whose data bits are not 0 this rests on the model's choice that the instruction carries the
ignored bits (log 17); R98 treats every such token as `END`. -/
def Obligations.EncodeOfDecodeIsIdentity : Prop :=
  ∀ (o : Offer) (i : Instr), decode o = .ok i → encode i = o ∧ i.wellFormed = true

/-- A command word is accepted exactly if it selects a row of the opcode map by its mask and match (R91) and the refs of
`SETROOT` and `LDNODE` in it are legal (R99 cases 5 and 6); any other word is reserved (R99). -/
def Obligations.AcceptedWordsAreTheMapRows : Prop :=
  ∀ w : Word, (∃ i, decodeCmd w = .ok i) ↔
    (w &&& 0xFFFFFFFF#32 = 0x00000000#32
      ∨ (w &&& 0xFFFFFC00#32 = 0x10000000#32 ∧ Ref.legal (w.extractLsb' 0 10) = true)
      ∨ (w &&& 0xF0000000#32 = 0x20000000#32 ∧ Ref.legal (w.extractLsb' 10 10) = true
          ∧ Ref.legal (w.extractLsb' 0 10) = true)
      ∨ w &&& 0xFFFFFFFF#32 = 0x30000000#32
      ∨ w &&& 0xFFFFFFFF#32 = 0x40000000#32
      ∨ w &&& 0xFFFFFFFF#32 = 0x50000000#32
      ∨ w &&& 0xFFFFFFFF#32 = 0x60000000#32
      ∨ w &&& 0xFFFFFFFF#32 = 0x70000000#32
      ∨ w &&& 0xFFFF0000#32 = 0x80000000#32)

/-! ### The step (R6, R17, R126) -/

/-- On the command unit's turn, with no response pending, an offered word that decodes is taken and its instruction runs
(R126). The turn itself is the model's (log 2). -/
def Obligations.StepRunsOfferedCommand : Prop :=
  ∀ (s : State) (ts : List Turn) (w : Word) (ws : List Word) (i : Instr),
    s.turns = .command :: ts → s.rsp.v = false → s.ports.cmd = w :: ws → decodeCmd w = .ok i →
      step s = exec i { s with turns := ts, ports := { s.ports with cmd := ws } }

/-- On an engine's turn, where its token step is enabled, the offered token's instruction runs (R171, R172, R143, R148). -/
def Obligations.StepRunsOfferedToken : Prop :=
  (∀ (s : State) (ts : List Turn) (t : Token) (tks : List Token),
    s.turns = .encoder :: ts → s.job = .enc → s.enc.phase = .wait → s.enc.nb.toNat < 8 →
      s.ports.encIn = t :: tks → step s = exec (decodeEncIn t) { s with turns := ts })
  ∧ (∀ (s : State) (ts : List Turn) (t : Token) (tks : List Token),
    s.turns = .decoder :: ts → s.job = .dec →
      (s.dec.phase = .walk ∧ s.dec.bn = 0#4) ∨ s.dec.phase = .drain →
      s.ports.decIn = t :: tks → step s = exec (decodeDecIn t) { s with turns := ts })

/-- A reserved word is taken and rejected with `ILLCMD`; nothing else changes (R99, R126, R195). -/
def Obligations.ReservedWordOnlySetsIllcmd : Prop :=
  ∀ (s : State) (ts : List Turn) (w : Word) (ws : List Word) (e : IllCmd),
    s.turns = .command :: ts → s.rsp.v = false → s.ports.cmd = w :: ws → decodeCmd w = .error e →
      step s = .next { s with
        turns := ts, ports := { s.ports with cmd := ws }, err := s.err ||| 0x001#10 }

/-- While `RSPV = 1` no command is accepted, of any kind (R44, R226), and both engines' enabled steps are what they would be
without the pending response (R132). -/
def Obligations.PendingResponseBlocksCommandsOnly : Prop :=
  (∀ (s : State) (ts : List Turn), s.turns = .command :: ts → s.rsp.v = true →
      step s = .next { s with turns := ts })
  ∧ (∀ (s : State) (r : RspSlot),
      encAction { s with rsp := r } = encAction s ∧ decAction { s with rsp := r } = decAction s)

/-- The response transfer: the host receives `RSPD` and `RSPV <- 0` (R132). -/
def Obligations.ResponseTransferClearsTheSlot : Prop :=
  ∀ (s : State) (ts : List Turn), s.turns = .response :: ts → s.rsp.v = true →
    step s = .next { s with
      turns := ts
      rsp := { s.rsp with v := false }
      ports := { s.ports with rspOut := s.ports.rspOut ++ [s.rsp.data] } }

/-- Where no order of moves is given, the step taken is that of an enabled agent: the only enabled one, or either of two
(R17); with none enabled nothing changes (R230). The choice is the model's free value (log 2). -/
def Obligations.AnEnabledStepIsTaken : Prop :=
  ∀ s : State, s.turns = [] →
    match channelReady s, engineReady s with
    | some a, some b =>
      step s = step { s with turns := [a], tick := s.tick + 1 }
        ∨ step s = step { s with turns := [b], tick := s.tick + 1 }
    | some a, none => step s = step { s with turns := [a] }
    | none, some b => step s = step { s with turns := [b] }
    | none, none => step s = .next s

/-! ### Reset (10_state.md R47, 70_reset_and_hazards.md R220, R221) -/

/-- The reset values that R47 gives. -/
def Obligations.ResetValues : Prop :=
  State.reset.job = .idle ∧ State.reset.err = 0#10
    ∧ State.reset.fault.cause = 0#4 ∧ State.reset.fault.info = 0#9
    ∧ State.reset.root.v = false
    ∧ (∀ i : Byte, (State.reset.node i).v = false)
    ∧ (∀ k : SymId, hasEntry State.reset.tbl k = false)
    ∧ State.reset.rsp.v = false
    ∧ busyPin State.reset = false ∧ faultPin State.reset = false

/-- Reset in any state leaves the block idle, with no error, an empty tree store, an empty code table and no pending
response; what the host offers stays with the host (R220, R221). -/
def Obligations.ResetEmptiesTheBlock : Prop :=
  ∀ (s : State) (ts : List Turn), s.turns = .reset :: ts →
    ∃ t, step s = .next t ∧ t.job = .idle ∧ t.err = 0#10 ∧ t.fault.cause = 0#4 ∧ t.fault.info = 0#9
      ∧ t.root.v = false ∧ (∀ i : Byte, (t.node i).v = false)
      ∧ (∀ k : SymId, hasEntry t.tbl k = false) ∧ t.rsp.v = false
      ∧ t.ports = s.ports ∧ t.turns = ts ∧ t.tick = s.tick

/-! ### Configuration and system commands (40_config_commands.md) -/

/-- `NOP` leaves every state element unchanged in any state (R120). -/
def Obligations.NopChangesNothing : Prop :=
  ∀ s : State, exec .nop s = .next s

/-- `SETROOT` in `IDLE` writes `ROOT` and nothing else (R121). -/
def Obligations.SetrootLoadsRoot : Prop :=
  ∀ (s : State) (r : Ref), s.job = .idle → Ref.legal r = true →
    exec (.setroot r) s = .next { s with root := { v := true, ref := r } }

/-- `LDNODE` in `IDLE` writes `NODE[IDX]` and nothing else, whatever the entry held (R122). -/
def Obligations.LdnodeLoadsOneEntry : Prop :=
  ∀ (s : State) (i : Byte) (l r : Ref), s.job = .idle → Ref.legal l = true → Ref.legal r = true →
    ∃ t, exec (.ldnode i l r) s = .next t
      ∧ t.node i = { v := true, left := l, right := r }
      ∧ (∀ j : Byte, j ≠ i → t.node j = s.node j)
      ∧ t = { s with nodes := t.nodes }

/-- `CLRTREE` in `IDLE` invalidates `ROOT` and every `NODE` entry, after which all their addresses read 0; the refs and
everything else, `TBL` included, are unchanged (R123). -/
def Obligations.ClrtreeInvalidatesTheTree : Prop :=
  ∀ s : State, s.job = .idle →
    ∃ t, exec .clrtree s = .next t
      ∧ t.root = { s.root with v := false }
      ∧ (∀ i : Byte, t.node i = { s.node i with v := false })
      ∧ regRead 0x0003#16 t = 0#32
      ∧ (∀ i : Byte, regRead (0x0100#16 + i.setWidth 16) t = 0#32)
      ∧ t = { s with root := t.root, nodes := t.nodes }

/-- `SETROOT`, `LDNODE`, `CLRTREE`, `ENC_START` and `DEC_START` outside `IDLE`, `HALTED` included, set `ERR.BUSYCMD` and
change nothing else (R127, R191, R195, R224). -/
def Obligations.BusyCommandsOnlySetBusycmd : Prop :=
  ∀ (s : State) (i : Instr), s.job ≠ .idle → i.wellFormed = true →
    ((∃ r, i = .setroot r) ∨ (∃ n l r, i = .ldnode n l r) ∨ i = .clrtree ∨ i = .encStart ∨ i = .decStart) →
      exec i s = .next { s with err := s.err ||| 0x002#10 }

/-- A `SETROOT` or `LDNODE` with a reserved ref sets only `ILLCMD`, also where it is untimely (R121, R122, R197). -/
def Obligations.ReservedRefOnlySetsIllcmd : Prop :=
  ∀ (s : State) (n : Byte) (l r : Ref),
    (Ref.reserved r = true → exec (.setroot r) s = .next { s with err := s.err ||| 0x001#10 })
    ∧ (Ref.reserved l = true ∨ Ref.reserved r = true →
        exec (.ldnode n l r) s = .next { s with err := s.err ||| 0x001#10 })

/-- `ABORT` in any `JOB`: `JOB <- IDLE`, nothing else (R124). -/
def Obligations.AbortOnlyIdlesTheJob : Prop :=
  ∀ s : State, exec .abort s = .next { s with job := .idle }

/-- `CLRERR` in any `JOB`: all `ERR` bits and `FAULT` cleared, nothing else; `JOB` stays (R125). -/
def Obligations.ClrerrClearsErrAndFault : Prop :=
  ∀ s : State, exec .clrerr s = .next { s with err := 0#10, fault := { cause := 0#4, info := 0#9 } }

/-- `RDREG` fills the response slot and touches nothing but `ERR.BADADDR`: with the register's value at a mapped address,
with 0 and the flag set at an unmapped one (R131, R69, R191). -/
def Obligations.RdregFillsTheSlot : Prop :=
  ∀ (s : State) (a : RegAddr),
    if a.toNat ≤ 0x0003 ∨ (0x0100 ≤ a.toNat ∧ a.toNat ≤ 0x01FF) ∨ (0x0200 ≤ a.toNat ∧ a.toNat ≤ 0x0300)
        ∨ (0x0800 ≤ a.toNat ∧ a.toNat ≤ 0x1007) then
      exec (.rdreg a) s = .next { s with rsp := { v := true, data := regRead a s } }
    else
      exec (.rdreg a) s = .next { s with rsp := { v := true, data := 0#32 }, err := s.err ||| 0x004#10 }

/-- The layouts of `STATUS`, `ERR`, `FAULT`, `ROOT`, `NODE[i]` and `CLEN[k]` as `RDREG` reads them: the named fields at the
named bits, 0 elsewhere and where the entry is not valid (R29, R30, R31, R32, R39, R104, R133). -/
def Obligations.RegisterWordLayouts : Prop :=
  ∀ s : State,
    regRead 0x0000#16 s = (0#30 ++ (match s.job with | .idle => 0#2 | .enc => 1#2 | .dec => 2#2 | .halted => 3#2) : BitVec 32)
    ∧ regRead 0x0001#16 s = (0#22 ++ s.err : BitVec 32)
    ∧ regRead 0x0002#16 s = (0#7 ++ s.fault.info ++ 0#12 ++ s.fault.cause : BitVec 32)
    ∧ regRead 0x0003#16 s = (if s.root.v then (1#1 ++ 0#21 ++ s.root.ref : BitVec 32) else 0#32)
    ∧ (∀ i : Byte, regRead (0x0100#16 + i.setWidth 16) s =
        (if (s.node i).v then (1#1 ++ 0#11 ++ (s.node i).left ++ (s.node i).right : BitVec 32) else 0#32))
    ∧ (∀ (k : SymId) (e : TblEntry), s.entry k = some e → e.len ≤ 256 →
        regRead (0x0200#16 + k.setWidth 16) s =
          (if e.v then (1#1 ++ 0#22 ++ BitVec.ofNat 9 e.len : BitVec 32) else 0#32))

/-- `CBITS[k][w]`: bit `j` is path bit `32*w + j` of a valid entry, 0 beyond the path's end and where the entry is not valid
(R39, R133). -/
def Obligations.CbitsReadsThePathBits : Prop :=
  ∀ (s : State) (k : SymId) (e : TblEntry) (w j : Nat), s.entry k = some e → w < 8 → j < 32 →
    (regRead (0x0800#16 + 8#16 * k.setWidth 16 + BitVec.ofNat 16 w) s).getLsbD j
      = (e.v && e.path.getD (32 * w + j) false)

/-! ### `ENC_START` and the table build (42_table_build.md) -/

/-- On a valid tree `ENC_START` completes: the table holds exactly the paths of the tree's leaves, the accumulator is empty,
the encoder waits for a token, and nothing else changes (R160, R161, R164). -/
def Obligations.EncStartBuildsValidTree : Prop :=
  ∀ s : State, s.Inv → s.job = .idle → s.ValidTree →
    ∃ t, exec .encStart s = .next t
      ∧ (∀ (k : SymId) (p : Path), holdsPath t.tbl k p ↔ leafAt s.nodes s.root.ref p k)
      ∧ t = { s with
          job := .enc, tbl := t.tbl
          enc := { s.enc with phase := .wait, acc := 0#8, nb := 0#4 } }

/-- What a successful build guarantees: the tree was valid, and the table holds exactly the paths of its leaves, so every
symbol present has one path (R164). -/
def Obligations.EncStartAcceptsOnlyValidTrees : Prop :=
  ∀ s t : State, s.Inv → s.job = .idle → exec .encStart s = .next t → t.job = .enc →
    s.ValidTree ∧ ∀ (k : SymId) (p : Path), holdsPath t.tbl k p ↔ leafAt s.nodes s.root.ref p k

/-- After a successful build no symbol's path is a prefix of another symbol's path (R167). -/
def Obligations.EncStartTableIsPrefixFree : Prop :=
  ∀ s t : State, s.job = .idle → exec .encStart s = .next t → t.job = .enc →
    ∀ (k k' : SymId) (p p' : Path), k ≠ k' → holdsPath t.tbl k p → holdsPath t.tbl k' p' → ¬ p <+: p'

/-- A faulting `ENC_START` names the first defect that the traversal meets, depth first, left before right, and leaves in the
table exactly the entries recorded before it: `NOROOT` 1 with nothing traversed; at the place `p`, `BADNODE` 2, `DUPSYM` 3 (the
symbol's earlier leaf lies to the left) or `DEPTH` 4 (of a valid node), each with no `BADNODE` and no `DEPTH` to the left of
`p` and the table holding exactly the leaves to the left; or `NOEOF` 5 after a whole traversal. The `ERR` bit of the fault is
added; `JOB = HALTED`; nothing but `JOB`, `ERR`, `FAULT` and `TBL` changes (R161, R162, R163, R169, R190, R196, R197). -/
def Obligations.EncStartFaultNamesADefect : Prop :=
  ∀ s t : State, s.job = .idle → exec .encStart s = .next t → t.job ≠ .enc →
    t = { s with job := .halted, err := t.err, fault := t.fault, tbl := t.tbl }
    ∧ ((t.fault = { cause := 1#4, info := 0#9 } ∧ t.err = s.err ||| 0x008#10 ∧ s.root.v = false
          ∧ ∀ k : SymId, hasEntry t.tbl k = false)
      ∨ (s.root.v = true ∧ ∃ p : Path, reachedClean s.nodes s.root.ref p ∧ recordedBefore s.nodes s.root.ref p t.tbl
          ∧ ((∃ r : Ref, t.fault = { cause := 2#4, info := (Ref.val r).setWidth 9 } ∧ t.err = s.err ||| 0x010#10
                ∧ follow s.nodes s.root.ref p = some r ∧ Ref.isLeaf r = false ∧ (s.node (Ref.val r)).v = false)
            ∨ (∃ (q : Path) (k : SymId), t.fault = { cause := 3#4, info := k } ∧ t.err = s.err ||| 0x020#10
                ∧ leafAt s.nodes s.root.ref p k ∧ leafAt s.nodes s.root.ref q k ∧ leftOf q p = true)
            ∨ (∃ r : Ref, t.fault = { cause := 4#4, info := (Ref.val r).setWidth 9 } ∧ t.err = s.err ||| 0x040#10
                ∧ follow s.nodes s.root.ref p = some r ∧ Ref.isLeaf r = false ∧ (s.node (Ref.val r)).v = true
                ∧ p.length = 256)))
      ∨ (s.root.v = true ∧ t.fault = { cause := 5#4, info := 0#9 } ∧ t.err = s.err ||| 0x080#10
          ∧ (∀ p, ¬ leafAt s.nodes s.root.ref p 256#9)
          ∧ (∀ q r, follow s.nodes s.root.ref q = some r → Ref.isLeaf r = false →
              (s.node (Ref.val r)).v = true ∧ q.length < 256)
          ∧ ∀ (k : SymId) (q : Path), k.toNat < 257 → (holdsPath t.tbl k q ↔ leafAt s.nodes s.root.ref q k)))

/-- `ENC_START` with no root: `NOROOT(0)`; nothing is traversed and every table entry is invalid (R163, R169, R190). -/
def Obligations.EncStartWithoutRootFaults : Prop :=
  ∀ s : State, s.job = .idle → s.root.v = false →
    ∃ t, exec .encStart s = .next t
      ∧ (∀ k : SymId, hasEntry t.tbl k = false)
      ∧ t = { s with
          job := .halted, err := s.err ||| 0x008#10, fault := { cause := 1#4, info := 0#9 }, tbl := t.tbl }

/-- A root that is a leaf: the end-of-stream leaf gives the zero-length path as the only entry and starts the job; a byte
leaf is recorded with the zero-length path and faults with `NOEOF(0)` (R163, R168). -/
def Obligations.EncStartOnSingleLeaf : Prop :=
  ∀ s : State, s.job = .idle → s.root.v = true →
    (s.root.ref = 0x300#10 →
      ∃ t, exec .encStart s = .next t ∧ t.job = .enc
        ∧ ∀ (k : SymId) (p : Path), holdsPath t.tbl k p ↔ (k = 256#9 ∧ p = []))
    ∧ (∀ b : Byte, s.root.ref = (2#2 ++ b : BitVec 10) →
      ∃ t, exec .encStart s = .next t ∧ t.job = .halted
        ∧ t.fault = { cause := 5#4, info := 0#9 } ∧ t.err = s.err ||| 0x080#10
        ∧ ∀ (k : SymId) (p : Path), holdsPath t.tbl k p ↔ (k = b.setWidth 9 ∧ p = []))

/-! ### The encoder (43_encoder.md) -/

/-- ENC-TOKEN on `DATA(b)`: a byte with an entry starts its path, a byte without one raises `UNKSYM(b)`; the token is
consumed either way and nothing else changes (R171). -/
def Obligations.EncDataTokenIsLookedUp : Prop :=
  ∀ (s : State) (b : Byte), s.job = .enc → s.enc.phase = .wait → s.enc.nb.toNat < 8 →
    if hasEntry s.tbl (b.setWidth 9) then
      exec (.encInData b) s = .next { s with
        enc := { s.enc with psym := b.setWidth 9, pidx := 0#9, phase := .shift }
        ports := { s.ports with encIn := s.ports.encIn.tail } }
    else
      exec (.encInData b) s = .next { s with
        job := .halted, err := s.err ||| 0x100#10, fault := { cause := 6#4, info := b.setWidth 9 }
        ports := { s.ports with encIn := s.ports.encIn.tail } }

/-- ENC-TOKEN on `END`, whatever its data bits: the end-of-stream path is started (R172). -/
def Obligations.EncEndTokenStartsEofPath : Prop :=
  ∀ (s : State) (d : Byte), s.job = .enc → s.enc.phase = .wait → s.enc.nb.toNat < 8 →
    exec (.encInEnd d) s = .next { s with
      enc := { s.enc with psym := 256#9, pidx := 0#9, phase := .shift }
      ports := { s.ports with encIn := s.ports.encIn.tail } }

/-- A token whose step is not enabled is not taken and nothing changes (R17, R225; as an instruction's meaning this is the
model's reading, log 7). -/
def Obligations.TokenWaitsWhereItsStepIsDisabled : Prop :=
  (∀ (s : State) (b : Byte), ¬ (s.job = .enc ∧ s.enc.phase = .wait ∧ s.enc.nb.toNat < 8) →
    exec (.encInData b) s = .next s ∧ exec (.encInEnd b) s = .next s)
  ∧ (∀ (s : State) (b : Byte),
    ¬ (s.job = .dec ∧ ((s.dec.phase = .walk ∧ s.dec.bn = 0#4) ∨ s.dec.phase = .drain)) →
      exec (.decInData b) s = .next s ∧ exec (.decInEnd b) s = .next s)

/-- ENC-SHIFT and ENC-NEXT: below the path's end its next bit enters `ACC` at bit 0 and `NB` and `PIDX` advance; at the end
the end-of-stream path leads to `E_PAD`, any other to `E_WAIT` (R173, R174). -/
def Obligations.EncShiftAndNext : Prop :=
  ∀ (s : State) (ts : List Turn) (e : TblEntry), s.turns = .encoder :: ts → s.job = .enc → s.enc.phase = .shift →
    s.enc.nb.toNat < 8 → s.entry s.enc.psym = some e →
      (∀ h : s.enc.pidx.toNat < e.path.length,
        step s = .next { s with
          turns := ts
          enc := { s.enc with
            acc := (s.enc.acc.extractLsb' 0 7 ++ BitVec.ofBool e.path[s.enc.pidx.toNat] : BitVec 8)
            nb := s.enc.nb + 1#4
            pidx := s.enc.pidx + 1#9 } })
      ∧ (s.enc.pidx.toNat = e.path.length →
        step s = .next { s with
          turns := ts
          enc := { s.enc with phase := if s.enc.psym = 256#9 then .pad else .wait } })

/-- ENC-BYTE: a full byte is sent in any phase, before anything else happens (R175, R179). -/
def Obligations.EncByteSendsTheFullByte : Prop :=
  ∀ (s : State) (ts : List Turn), s.turns = .encoder :: ts → s.job = .enc → s.enc.nb = 8#4 →
    step s = .next { s with
      turns := ts
      enc := { s.enc with acc := 0#8, nb := 0#4 }
      ports := { s.ports with encOut := s.ports.encOut ++ [(0#1 ++ s.enc.acc : BitVec 9)] } }

/-- ENC-PAD and ENC-END: a partial byte is filled with zero bits below its bits, an empty one leads to `E_FIN`, and there
`END` (data 0x00) is sent and the job is over (R176, R177). -/
def Obligations.EncPadAndEnd : Prop :=
  ∀ (s : State) (ts : List Turn), s.turns = .encoder :: ts → s.job = .enc →
    (s.enc.phase = .pad → s.enc.nb = 0#4 →
      step s = .next { s with turns := ts, enc := { s.enc with phase := .fin } })
    ∧ (s.enc.phase = .pad → 0 < s.enc.nb.toNat → s.enc.nb.toNat < 8 →
      step s = .next { s with
        turns := ts, enc := { s.enc with acc := s.enc.acc <<< (8 - s.enc.nb.toNat), nb := 8#4 } })
    ∧ (s.enc.phase = .fin → s.enc.nb = 0#4 →
      step s = .next { s with
        turns := ts, job := .idle, ports := { s.ports with encOut := s.ports.encOut ++ [0x100#9] } })

/-- A `PSYM` of 257 to 511 names no table entry and does not occur (R97); in a state that has one, phase `E_SHIFT` stops the
machine by name (the model's choice, log 9). -/
def Obligations.NoEntryForPsymStops : Prop :=
  ∀ (s : State) (ts : List Turn), s.turns = .encoder :: ts → s.job = .enc → s.enc.phase = .shift →
    s.enc.nb.toNat < 8 → 256 < s.enc.psym.toNat → step s = .fault .noTableEntry

/-- What the encoder has sent, holds and is about to write of the path at hand is one bit sequence that its steps neither
lose, repeat nor reorder: ENC-SHIFT, ENC-NEXT and ENC-BYTE keep it; ENC-TOKEN adds the token's path; ENC-PAD adds only zero
bits, up to the byte's end (R170, R179, R183). -/
def Obligations.EncoderConservesBits : Prop :=
  ∀ (s t : State) (ts : List Turn), s.Inv → s.turns = .encoder :: ts → s.job = .enc → step s = .next t → t.job = .enc →
    t.encodedBits =
      match encAction s, s.ports.encIn with
      | some .token, tok :: _ =>
        s.encodedBits ++ pathOf s.tbl (if Token.isEnd tok then 256#9 else (Token.payload tok).setWidth 9)
      | some .pad, _ => s.encodedBits ++ List.replicate (if s.enc.nb = 0#4 then 0 else 8 - s.enc.nb.toNat) false
      | _, _ => s.encodedBits

/-- An encode job, from `E_WAIT` with an empty accumulator and nobody else to move: for input bytes that all have entries,
ended by an `END` token, it sends the zero-padded payload most significant bit first, then `END`, takes exactly those
tokens, and ends in `IDLE` with `ERR` unchanged (R170, R182, R183). -/
def Obligations.EncodeJobSendsThePayload : Prop :=
  ∀ (s : State) (input : List Byte) (d : Byte) (rest : List Token),
    s.Inv → s.job = .enc → s.enc.phase = .wait → s.enc.nb = 0#4 →
    s.turns = [] → s.ports.cmd = [] → s.rsp.v = false →
    s.ports.encIn = input.map Token.data ++ Token.endWith d :: rest →
    (∀ b ∈ input, hasEntry s.tbl (b.setWidth 9) = true) →
      ∃ t : State, Reaches s t
        ∧ t.ports.encOut = s.ports.encOut
            ++ (packBytes (payloadBits s.tbl input).length (payloadBits s.tbl input)).map Token.data ++ [0x100#9]
        ∧ t.ports.encIn = rest ∧ t.job = .idle ∧ t.err = s.err

/-- The other end of an encode job: at the first byte without an entry it has sent exactly the full bytes of the paths before
it, most significant bit first, has taken the tokens through that byte, sends no `END`, and halts with `UNKSYM` and that byte
(R183, R184, R190). -/
def Obligations.EncodeJobStopsAtUnknownByte : Prop :=
  ∀ (s : State) (input : List Byte) (x : Byte) (rest : List Token),
    s.Inv → s.job = .enc → s.enc.phase = .wait → s.enc.nb = 0#4 →
    s.turns = [] → s.ports.cmd = [] → s.rsp.v = false →
    s.ports.encIn = input.map Token.data ++ Token.data x :: rest →
    (∀ b ∈ input, hasEntry s.tbl (b.setWidth 9) = true) → hasEntry s.tbl (x.setWidth 9) = false →
      let bits := input.flatMap (fun b => pathOf s.tbl (b.setWidth 9))
      ∃ t : State, Reaches s t
        ∧ t.ports.encOut = s.ports.encOut ++ (packBytes (bits.length / 8) bits).map Token.data
        ∧ t.ports.encIn = rest ∧ t.job = .halted ∧ t.err = s.err ||| 0x100#10
        ∧ t.fault = { cause := 6#4, info := x.setWidth 9 }

/-! ### The decoder (41_decoder.md) -/

/-- `DEC_START` in `IDLE`: `NOROOT`, the end-of-stream root, the byte-leaf root (`NOEOF`), the missing node (`BADNODE`) and
the walk from the root, each with exactly its effects (R140, R141, R197). -/
def Obligations.DecStartChecksTheRoot : Prop :=
  ∀ s : State, s.job = .idle →
    exec .decStart s = .next (
      if s.root.v = false then
        { s with
          dec := { s.dec with bn := 0#4 }, job := .halted
          err := s.err ||| 0x008#10, fault := { cause := 1#4, info := 0#9 } }
      else if s.root.ref.getLsbD 9 = true ∧ s.root.ref.getLsbD 8 = true then
        { s with dec := { s.dec with bn := 0#4, cur := s.root.ref, phase := .fin }, job := .dec }
      else if s.root.ref.getLsbD 9 = true then
        { s with
          dec := { s.dec with bn := 0#4, cur := s.root.ref }, job := .halted
          err := s.err ||| 0x080#10, fault := { cause := 5#4, info := 0#9 } }
      else if (s.node (s.root.ref.extractLsb' 0 8)).v = false then
        { s with
          dec := { s.dec with bn := 0#4, cur := s.root.ref }, job := .halted
          err := s.err ||| 0x010#10
          fault := { cause := 2#4, info := (s.root.ref.extractLsb' 0 8).setWidth 9 } }
      else
        { s with dec := { s.dec with bn := 0#4, cur := s.root.ref, phase := .walk }, job := .dec })

/-- DEC-FILL: a token on `dec_in` where the walk has no bit left. `DATA(b)` fills `SR` and `BN`; `END`, whatever its data
bits, is `TRUNC` with the place of the walk; the token is consumed and nothing else changes (R143, R190). -/
def Obligations.DecTokenInTheWalk : Prop :=
  ∀ (s : State) (b : Byte), s.job = .dec → s.dec.phase = .walk → s.dec.bn = 0#4 →
    exec (.decInData b) s = .next { s with
      dec := { s.dec with sr := b, bn := 8#4 }
      ports := { s.ports with decIn := s.ports.decIn.tail } }
    ∧ exec (.decInEnd b) s = .next { s with
      job := .halted, err := s.err ||| 0x200#10
      fault := { cause := 7#4, info := s.dec.cur.extractLsb' 0 9 }
      ports := { s.ports with decIn := s.ports.decIn.tail } }

/-- DEC-DRAIN: a token on `dec_in` while draining. `DATA(b)` is discarded; `END`, whatever its data bits, ends the job; the
token is consumed and nothing else changes (R148). -/
def Obligations.DecTokenInTheDrain : Prop :=
  ∀ (s : State) (b : Byte), s.job = .dec → s.dec.phase = .drain →
    exec (.decInData b) s = .next { s with ports := { s.ports with decIn := s.ports.decIn.tail } }
    ∧ exec (.decInEnd b) s = .next { s with
      job := .idle, ports := { s.ports with decIn := s.ports.decIn.tail } }

/-- DEC-BIT: the top bit of `SR` is consumed and chooses the child, left on 0, right on 1; the end-of-stream leaf leads to
`D_FIN`, a byte leaf to `D_EMIT`, an invalid entry to `BADNODE`, a valid one moves the walk (R144, R145). -/
def Obligations.DecBitWalksOneBit : Prop :=
  ∀ (s : State) (ts : List Turn), s.turns = .decoder :: ts → s.job = .dec → s.dec.phase = .walk → s.dec.bn ≠ 0#4 →
    let nxt : Ref := if s.dec.sr.getLsbD 7 then (s.node (s.dec.cur.extractLsb' 0 8)).right
      else (s.node (s.dec.cur.extractLsb' 0 8)).left
    let d : DecRegs := { s.dec with sr := (s.dec.sr.extractLsb' 0 7 ++ 0#1 : BitVec 8), bn := s.dec.bn - 1#4 }
    step s = .next (
      if nxt.getLsbD 9 = true ∧ nxt.getLsbD 8 = true then { s with turns := ts, dec := { d with phase := .fin } }
      else if nxt.getLsbD 9 = true then
        { s with turns := ts, dec := { d with outb := nxt.extractLsb' 0 8, phase := .emit } }
      else if (s.node (nxt.extractLsb' 0 8)).v = false then
        { s with
          turns := ts, dec := d, job := .halted, err := s.err ||| 0x010#10
          fault := { cause := 2#4, info := (nxt.extractLsb' 0 8).setWidth 9 } }
      else { s with turns := ts, dec := { d with cur := nxt } })

/-- DEC-EMIT sends the decoded byte and returns to the root; DEC-FIN sends `END` (data 0x00) and drains (R146, R147). -/
def Obligations.DecEmitAndFin : Prop :=
  ∀ (s : State) (ts : List Turn), s.turns = .decoder :: ts → s.job = .dec →
    (s.dec.phase = .emit →
      step s = .next { s with
        turns := ts
        dec := { s.dec with cur := s.root.ref, phase := .walk }
        ports := { s.ports with decOut := s.ports.decOut ++ [(0#1 ++ s.dec.outb : BitVec 9)] } })
    ∧ (s.dec.phase = .fin →
      step s = .next { s with
        turns := ts
        dec := { s.dec with phase := .drain }
        ports := { s.ports with decOut := s.ports.decOut ++ [0x100#9] } })

/-- The decoder never loops without consuming input: each of its enabled steps that does not end the job lowers
24 * tokens on offer + 2 * bits held + (2 in `D_EMIT`, 1 in `D_WALK` and `D_FIN`, 0 in `D_DRAIN`), for any contents of the
tree store (R152). -/
def Obligations.DecoderStepsLowerAMeasure : Prop :=
  ∀ (s t : State) (ts : List Turn), s.turns = .decoder :: ts → (decAction s).isSome = true →
    step s = .next t → t.job = .dec →
      24 * t.ports.decIn.length + 2 * t.dec.bn.toNat
          + (match t.dec.phase with | .emit => 2 | .walk => 1 | .fin => 1 | .drain => 0)
        < 24 * s.ports.decIn.length + 2 * s.dec.bn.toNat
          + (match s.dec.phase with | .emit => 2 | .walk => 1 | .fin => 1 | .drain => 0)

/-- A decode job, from the walk's start at the root with no bits held and nobody else to move: it sends the bytes that the
input bits read as, most significant bit first. If the end-of-stream code word is reached it sends `END`, drains through the
input's `END` and ends in `IDLE` with `ERR` unchanged; if the bits run out it consumes the `END`, sends none and halts with
`TRUNC` at the place of the walk; if the walk arrives at an entry that is not valid it sends no `END` and halts with `BADNODE`
and that index, having taken no token after the byte whose bit led there (R142, R143, R145, R152, R153, R154, R198). -/
def Obligations.DecodeJobSendsTheReading : Prop :=
  ∀ (s : State) (input : List Byte) (d : Byte) (rest : List Token),
    s.Inv → s.job = .dec → s.dec.phase = .walk → s.dec.bn = 0#4 → s.dec.cur = s.root.ref →
    s.turns = [] → s.ports.cmd = [] → s.rsp.v = false →
    s.ports.decIn = input.map Token.data ++ Token.endWith d :: rest →
      let reading := parse s.nodes s.root.ref s.root.ref (input.flatMap byteBits)
      (reading.2 = .eof →
        ∃ t : State, Reaches s t
          ∧ t.ports.decOut = s.ports.decOut ++ reading.1.map Token.data ++ [0x100#9]
          ∧ t.ports.decIn = rest ∧ t.job = .idle ∧ t.err = s.err)
      ∧ (∀ r : Ref, reading.2 = .trunc r →
        ∃ t : State, Reaches s t
          ∧ t.ports.decOut = s.ports.decOut ++ reading.1.map Token.data
          ∧ t.ports.decIn = rest ∧ t.job = .halted ∧ t.err = s.err ||| 0x200#10
          ∧ t.fault = { cause := 7#4, info := r.extractLsb' 0 9 })
      ∧ (∀ i : Byte, reading.2 = .badnode i →
        ∃ (t : State) (n : Nat), Reaches s t
          ∧ t.ports.decOut = s.ports.decOut ++ reading.1.map Token.data
          ∧ n ≤ input.length ∧ t.ports.decIn = (input.drop n).map Token.data ++ Token.endWith d :: rest
          ∧ (parse s.nodes s.root.ref s.root.ref ((input.take n).flatMap byteBits)).2 = .badnode i
          ∧ (∀ m, m < n → ∃ r, (parse s.nodes s.root.ref s.root.ref ((input.take m).flatMap byteBits)).2 = .trunc r)
          ∧ t.job = .halted ∧ t.err = s.err ||| 0x010#10
          ∧ t.fault = { cause := 2#4, info := i.setWidth 9 })

/-- Decoding inverts encoding: with the table a successful `ENC_START` builds from a tree with an internal root, the payload
of any input whose bytes all have entries, followed by any bits, reads as that input and then the end-of-stream leaf
(95_test_vectors.md P1, P3; R150, R153, R183). -/
def Obligations.ReadingInvertsThePayload : Prop :=
  ∀ (s t : State) (input : List Byte) (pad : List Bool),
    s.Inv → s.job = .idle → Ref.isLeaf s.root.ref = false → exec .encStart s = .next t → t.job = .enc →
    (∀ b ∈ input, hasEntry t.tbl (b.setWidth 9) = true) →
      parse s.nodes s.root.ref s.root.ref (payloadBits t.tbl input ++ pad) = (input, .eof)

/-! ### The whole machine -/

/-- The invariants of the block's state hold after reset (R47, R36, R151, R166, R181, R190). -/
def Obligations.InvariantHoldsAtReset : Prop := State.reset.Inv

/-- Every step keeps the invariants: refs in the store and `CUR` are legal, the walk stands at a valid node, path lengths and
counters stay in their ranges, the accumulator is clean, the table always has an end-of-stream path during an encode job
(R24, R36, R151, R166, R172, R181, R190). -/
def Obligations.EveryStepKeepsTheInvariant : Prop :=
  ∀ s t : State, s.Inv → step s = .next t → t.Inv

/-- The block never stops: in every state that meets the invariant a step answers a next state, whoever moves and whatever
word or token is offered (93_implementation_defined.md Part 1; R11). -/
def Obligations.NoReachableStateStops : Prop :=
  ∀ s : State, s.Inv → ∃ t, step s = .next t

/-- Every instruction completes in every state: no meaning stops (93_implementation_defined.md Part 1). -/
def Obligations.EveryInstructionAnswersANextState : Prop :=
  ∀ (i : Instr) (s : State), ∃ t, exec i s = .next t

/-- The `JOB` transitions of R45: a job starts only from `IDLE` and only by its own start command; `IDLE` is reached only by
`ABORT`, by the sending of the encoder's `END`, by the `END` token that ends a drain, and by reset; `HALTED` is reached from
`IDLE` only by a start command, from `ENC` only by the encoder's step and from `DEC` only by the decoder's, each by a job
fault, which is recorded. -/
def Obligations.JobChangesOnlyAsR45Says : Prop :=
  ∀ s t : State, step s = .next t → t.job ≠ s.job →
    (t.job = .idle ∧
      ((nextTurn s).1 = some .reset
        ∨ (∃ u, fetch s = .instr .abort u)
        ∨ (s.job = .enc ∧ (nextTurn s).1 = some .encoder ∧ encAction s = some .fin)
        ∨ (s.job = .dec ∧ s.dec.phase = .drain ∧ ∃ d u, fetch s = .instr (.decInEnd d) u)))
    ∨ (t.job = .enc ∧ s.job = .idle ∧ ∃ u, fetch s = .instr .encStart u)
    ∨ (t.job = .dec ∧ s.job = .idle ∧ ∃ u, fetch s = .instr .decStart u)
    ∨ (t.job = .halted
      ∧ (∃ f : JobFault, t.err = errSet f.bit s.err ∧ t.fault.cause = f.cause)
      ∧ ((s.job = .idle ∧ ∃ u, fetch s = .instr .encStart u ∨ fetch s = .instr .decStart u)
        ∨ (s.job = .enc ∧ (nextTurn s).1 = some .encoder)
        ∨ (s.job = .dec ∧ (nextTurn s).1 = some .decoder)))

/-- How jobs end (R230): successfully exactly where `JOB` returns to `IDLE` by ENC-END or by DEC-DRAIN taking `END`;
unsuccessfully exactly where `JOB` becomes `HALTED`, or `ABORT` or reset is accepted while the job runs. -/
def Obligations.JobsEndAsR230Says : Prop :=
  ∀ s t : State, step s = .next t →
    (jobEnd s t = some .success ↔ t.job = .idle ∧
      ((s.job = .enc ∧ (nextTurn s).1 = some .encoder ∧ encAction s = some .fin)
        ∨ (s.job = .dec ∧ s.dec.phase = .drain ∧ ∃ d u, fetch s = .instr (.decInEnd d) u)))
    ∧ (jobEnd s t = some .failure ↔
      (t.job = .halted ∧ s.job ≠ .halted)
        ∨ ((s.job = .enc ∨ s.job = .dec)
          ∧ ((nextTurn s).1 = some .reset ∨ ∃ u, fetch s = .instr .abort u)))

/-- The end of a run and a wait (R230). A run that is over stays over: every step left passes, the block is in `IDLE` or
`HALTED`, and no command and no response is open. A wait is exactly a job whose engine needs a token that the host does not
offer, with no command and no response open; no wait is an end. That the host's own moves left in the order keep a run from
being over is the model's choice (log 20). -/
def Obligations.RunIsOverOrWaitsAsR230Says : Prop :=
  (∀ s : State, s.runOver = true →
    step s = .next { s with turns := s.turns.tail } ∧ State.runOver { s with turns := s.turns.tail } = true
      ∧ (s.job = .idle ∨ s.job = .halted) ∧ s.ports.cmd = [] ∧ s.rsp.v = false)
  ∧ (∀ s : State, s.Inv →
    (s.waits = true ↔
      s.rsp.v = false ∧ s.ports.cmd = []
        ∧ ((s.job = .enc ∧ s.enc.phase = .wait ∧ s.enc.nb.toNat < 8 ∧ s.ports.encIn = [])
          ∨ (s.job = .dec ∧ ((s.dec.phase = .walk ∧ s.dec.bn = 0#4) ∨ s.dec.phase = .drain) ∧ s.ports.decIn = []))))

/-- The tree store is constant while `JOB` is not `IDLE`, reset apart (R75, R224). -/
def Obligations.TreeStoreConstantOutsideIdle : Prop :=
  ∀ s t : State, step s = .next t → s.job ≠ .idle → (nextTurn s).1 ≠ some .reset →
    t.root = s.root ∧ t.nodes = s.nodes

/-- The code table is written only by `ENC_START` in `IDLE` and by reset (R38, R48). -/
def Obligations.TableWrittenOnlyByEncStart : Prop :=
  ∀ s t : State, step s = .next t → t.tbl ≠ s.tbl →
    (nextTurn s).1 = some .reset ∨ (s.job = .idle ∧ ∃ u, fetch s = .instr .encStart u)

/-- The bits of `ERR` are sticky: only `CLRERR` and reset clear one (R28); and `FAULT` is written only by a job fault, which
halts the job, by `CLRERR` and by reset (R31). -/
def Obligations.ErrIsStickyAndFaultIsKept : Prop :=
  ∀ s t : State, step s = .next t → (nextTurn s).1 ≠ some .reset → (¬ ∃ u, fetch s = .instr .clrerr u) →
    (∀ f : ErrBit, errHas f s.err = true → errHas f t.err = true)
    ∧ (t.fault ≠ s.fault → t.job = .halted ∧ s.job ≠ .halted)

/-- The writers of the engine registers: the encoder's are written only on the encoder's turn, by `ENC_START` and by reset,
the decoder's only on the decoder's turn, by `DEC_START` and by reset (R48). -/
def Obligations.EngineRegistersHaveTheirWriters : Prop :=
  ∀ s t : State, step s = .next t → (nextTurn s).1 ≠ some .reset →
    (t.enc ≠ s.enc → (nextTurn s).1 = some .encoder ∨ ∃ u, fetch s = .instr .encStart u)
    ∧ (t.dec ≠ s.dec → (nextTurn s).1 = some .decoder ∨ ∃ u, fetch s = .instr .decStart u)

/-- What a step does at the channels: on the encoder's turn the host receives exactly the token the block offers on
`enc_out`, on the decoder's turn exactly the one on `dec_out`, on the response's turn exactly `rsp_data` if `rsp_valid`, and
at no other step does an output grow; of each input channel at most one item is taken, the oldest (R66, R67, R72, R132; the
turns are log 2, the ports' values log 11, what `ABORT` does to an offered token log 19). -/
def Obligations.OutputsAreWhatThePortsOffer : Prop :=
  ∀ s t : State, step s = .next t →
    ((nextTurn s).1 = some .encoder → t.ports.encOut = s.ports.encOut ++ (encOutOffer s).toList)
    ∧ ((nextTurn s).1 ≠ some .encoder → t.ports.encOut = s.ports.encOut)
    ∧ ((nextTurn s).1 = some .decoder → t.ports.decOut = s.ports.decOut ++ (decOutOffer s).toList)
    ∧ ((nextTurn s).1 ≠ some .decoder → t.ports.decOut = s.ports.decOut)
    ∧ ((nextTurn s).1 = some .response → rspValid s = true → t.ports.rspOut = s.ports.rspOut ++ [rspData s])
    ∧ ((nextTurn s).1 ≠ some .response ∨ rspValid s = false → t.ports.rspOut = s.ports.rspOut)
    ∧ (∃ ws, t.ports.cmd = s.ports.cmd ++ ws ∨ t.ports.cmd = s.ports.cmd.tail)
    ∧ (∃ us, t.ports.encIn = s.ports.encIn ++ us ∨ t.ports.encIn = s.ports.encIn.tail)
    ∧ (∃ us, t.ports.decIn = s.ports.decIn ++ us ∨ t.ports.decIn = s.ports.decIn.tail)

/-- In `IDLE` and `HALTED` no engine step is enabled, and at most one engine has one at a time (R45); `busy` is 1 exactly
while a job runs and `fault` exactly while `ERR` is not 0 (R42, R43). -/
def Obligations.OneEngineAtATime : Prop :=
  ∀ s : State,
    (s.job = .idle ∨ s.job = .halted → encAction s = none ∧ decAction s = none)
    ∧ (encAction s = none ∨ decAction s = none)
    ∧ (busyPin s = true ↔ s.job = .enc ∨ s.job = .dec)
    ∧ (faultPin s = true ↔ s.err ≠ 0#10)
end

