-- ==== Sys2Proof/Laws/State.lean ====
section
/-! SUPPORT. One lemma per field per named update of the state, so that no later proof unfolds a record update. -/

namespace Sys2Proof.Machine

section
variable (s : State)

@[simp] theorem loadNode_job (i : Byte) (l r : Ref) : (loadNode i l r s).job = s.job := rfl
@[simp] theorem loadNode_err (i : Byte) (l r : Ref) : (loadNode i l r s).err = s.err := rfl
@[simp] theorem loadNode_fault (i : Byte) (l r : Ref) : (loadNode i l r s).fault = s.fault := rfl
@[simp] theorem loadNode_root (i : Byte) (l r : Ref) : (loadNode i l r s).root = s.root := rfl
@[simp] theorem loadNode_nodes (i : Byte) (l r : Ref) :
    (loadNode i l r s).nodes = s.nodes.set i.toNat { v := true, left := l, right := r } i.isLt := rfl
@[simp] theorem loadNode_tbl (i : Byte) (l r : Ref) : (loadNode i l r s).tbl = s.tbl := rfl
@[simp] theorem loadNode_rsp (i : Byte) (l r : Ref) : (loadNode i l r s).rsp = s.rsp := rfl
@[simp] theorem loadNode_enc (i : Byte) (l r : Ref) : (loadNode i l r s).enc = s.enc := rfl
@[simp] theorem loadNode_dec (i : Byte) (l r : Ref) : (loadNode i l r s).dec = s.dec := rfl
@[simp] theorem loadNode_ports (i : Byte) (l r : Ref) : (loadNode i l r s).ports = s.ports := rfl
@[simp] theorem loadNode_turns (i : Byte) (l r : Ref) : (loadNode i l r s).turns = s.turns := rfl
@[simp] theorem loadNode_tick (i : Byte) (l r : Ref) : (loadNode i l r s).tick = s.tick := rfl

@[simp] theorem loadRoot_job (r : Ref) : (loadRoot r s).job = s.job := rfl
@[simp] theorem loadRoot_err (r : Ref) : (loadRoot r s).err = s.err := rfl
@[simp] theorem loadRoot_fault (r : Ref) : (loadRoot r s).fault = s.fault := rfl
@[simp] theorem loadRoot_root (r : Ref) : (loadRoot r s).root = { v := true, ref := r } := rfl
@[simp] theorem loadRoot_nodes (r : Ref) : (loadRoot r s).nodes = s.nodes := rfl
@[simp] theorem loadRoot_tbl (r : Ref) : (loadRoot r s).tbl = s.tbl := rfl
@[simp] theorem loadRoot_rsp (r : Ref) : (loadRoot r s).rsp = s.rsp := rfl
@[simp] theorem loadRoot_enc (r : Ref) : (loadRoot r s).enc = s.enc := rfl
@[simp] theorem loadRoot_dec (r : Ref) : (loadRoot r s).dec = s.dec := rfl
@[simp] theorem loadRoot_ports (r : Ref) : (loadRoot r s).ports = s.ports := rfl
@[simp] theorem loadRoot_turns (r : Ref) : (loadRoot r s).turns = s.turns := rfl
@[simp] theorem loadRoot_tick (r : Ref) : (loadRoot r s).tick = s.tick := rfl

@[simp] theorem clearTree_job : (clearTree s).job = s.job := rfl
@[simp] theorem clearTree_err : (clearTree s).err = s.err := rfl
@[simp] theorem clearTree_fault : (clearTree s).fault = s.fault := rfl
@[simp] theorem clearTree_root : (clearTree s).root = { s.root with v := false } := rfl
@[simp] theorem clearTree_nodes : (clearTree s).nodes = mapEntries (fun n => { n with v := false }) s.nodes := rfl
@[simp] theorem clearTree_tbl : (clearTree s).tbl = s.tbl := rfl
@[simp] theorem clearTree_rsp : (clearTree s).rsp = s.rsp := rfl
@[simp] theorem clearTree_enc : (clearTree s).enc = s.enc := rfl
@[simp] theorem clearTree_dec : (clearTree s).dec = s.dec := rfl
@[simp] theorem clearTree_ports : (clearTree s).ports = s.ports := rfl
@[simp] theorem clearTree_turns : (clearTree s).turns = s.turns := rfl
@[simp] theorem clearTree_tick : (clearTree s).tick = s.tick := rfl

@[simp] theorem reject_job (f : ErrBit) : (reject f s).job = s.job := rfl
@[simp] theorem reject_err (f : ErrBit) : (reject f s).err = errSet f s.err := rfl
@[simp] theorem reject_fault (f : ErrBit) : (reject f s).fault = s.fault := rfl
@[simp] theorem reject_root (f : ErrBit) : (reject f s).root = s.root := rfl
@[simp] theorem reject_nodes (f : ErrBit) : (reject f s).nodes = s.nodes := rfl
@[simp] theorem reject_tbl (f : ErrBit) : (reject f s).tbl = s.tbl := rfl
@[simp] theorem reject_rsp (f : ErrBit) : (reject f s).rsp = s.rsp := rfl
@[simp] theorem reject_enc (f : ErrBit) : (reject f s).enc = s.enc := rfl
@[simp] theorem reject_dec (f : ErrBit) : (reject f s).dec = s.dec := rfl
@[simp] theorem reject_ports (f : ErrBit) : (reject f s).ports = s.ports := rfl
@[simp] theorem reject_turns (f : ErrBit) : (reject f s).turns = s.turns := rfl
@[simp] theorem reject_tick (f : ErrBit) : (reject f s).tick = s.tick := rfl

@[simp] theorem raise_job (f : JobFault) (info : BitVec 9) : (raise f info s).job = .halted := rfl
@[simp] theorem raise_err (f : JobFault) (info : BitVec 9) : (raise f info s).err = errSet f.bit s.err := rfl
@[simp] theorem raise_fault (f : JobFault) (info : BitVec 9) :
    (raise f info s).fault = { cause := f.cause, info := info } := rfl
@[simp] theorem raise_root (f : JobFault) (info : BitVec 9) : (raise f info s).root = s.root := rfl
@[simp] theorem raise_nodes (f : JobFault) (info : BitVec 9) : (raise f info s).nodes = s.nodes := rfl
@[simp] theorem raise_tbl (f : JobFault) (info : BitVec 9) : (raise f info s).tbl = s.tbl := rfl
@[simp] theorem raise_rsp (f : JobFault) (info : BitVec 9) : (raise f info s).rsp = s.rsp := rfl
@[simp] theorem raise_enc (f : JobFault) (info : BitVec 9) : (raise f info s).enc = s.enc := rfl
@[simp] theorem raise_dec (f : JobFault) (info : BitVec 9) : (raise f info s).dec = s.dec := rfl
@[simp] theorem raise_ports (f : JobFault) (info : BitVec 9) : (raise f info s).ports = s.ports := rfl
@[simp] theorem raise_turns (f : JobFault) (info : BitVec 9) : (raise f info s).turns = s.turns := rfl
@[simp] theorem raise_tick (f : JobFault) (info : BitVec 9) : (raise f info s).tick = s.tick := rfl

@[simp] theorem endJob_job : (endJob s).job = .idle := rfl
@[simp] theorem endJob_err : (endJob s).err = s.err := rfl
@[simp] theorem endJob_fault : (endJob s).fault = s.fault := rfl
@[simp] theorem endJob_root : (endJob s).root = s.root := rfl
@[simp] theorem endJob_nodes : (endJob s).nodes = s.nodes := rfl
@[simp] theorem endJob_tbl : (endJob s).tbl = s.tbl := rfl
@[simp] theorem endJob_rsp : (endJob s).rsp = s.rsp := rfl
@[simp] theorem endJob_enc : (endJob s).enc = s.enc := rfl
@[simp] theorem endJob_dec : (endJob s).dec = s.dec := rfl
@[simp] theorem endJob_ports : (endJob s).ports = s.ports := rfl
@[simp] theorem endJob_turns : (endJob s).turns = s.turns := rfl
@[simp] theorem endJob_tick : (endJob s).tick = s.tick := rfl

@[simp] theorem clearFaults_job : (clearFaults s).job = s.job := rfl
@[simp] theorem clearFaults_err : (clearFaults s).err = 0 := rfl
@[simp] theorem clearFaults_fault : (clearFaults s).fault = { cause := 0, info := 0 } := rfl
@[simp] theorem clearFaults_root : (clearFaults s).root = s.root := rfl
@[simp] theorem clearFaults_nodes : (clearFaults s).nodes = s.nodes := rfl
@[simp] theorem clearFaults_tbl : (clearFaults s).tbl = s.tbl := rfl
@[simp] theorem clearFaults_rsp : (clearFaults s).rsp = s.rsp := rfl
@[simp] theorem clearFaults_enc : (clearFaults s).enc = s.enc := rfl
@[simp] theorem clearFaults_dec : (clearFaults s).dec = s.dec := rfl
@[simp] theorem clearFaults_ports : (clearFaults s).ports = s.ports := rfl
@[simp] theorem clearFaults_turns : (clearFaults s).turns = s.turns := rfl
@[simp] theorem clearFaults_tick : (clearFaults s).tick = s.tick := rfl

@[simp] theorem respond_job (d : Word) : (respond d s).job = s.job := rfl
@[simp] theorem respond_err (d : Word) : (respond d s).err = s.err := rfl
@[simp] theorem respond_fault (d : Word) : (respond d s).fault = s.fault := rfl
@[simp] theorem respond_root (d : Word) : (respond d s).root = s.root := rfl
@[simp] theorem respond_nodes (d : Word) : (respond d s).nodes = s.nodes := rfl
@[simp] theorem respond_tbl (d : Word) : (respond d s).tbl = s.tbl := rfl
@[simp] theorem respond_rsp (d : Word) : (respond d s).rsp = { v := true, data := d } := rfl
@[simp] theorem respond_enc (d : Word) : (respond d s).enc = s.enc := rfl
@[simp] theorem respond_dec (d : Word) : (respond d s).dec = s.dec := rfl
@[simp] theorem respond_ports (d : Word) : (respond d s).ports = s.ports := rfl
@[simp] theorem respond_turns (d : Word) : (respond d s).turns = s.turns := rfl
@[simp] theorem respond_tick (d : Word) : (respond d s).tick = s.tick := rfl

@[simp] theorem sendResponse_job : (sendResponse s).job = s.job := rfl
@[simp] theorem sendResponse_err : (sendResponse s).err = s.err := rfl
@[simp] theorem sendResponse_fault : (sendResponse s).fault = s.fault := rfl
@[simp] theorem sendResponse_root : (sendResponse s).root = s.root := rfl
@[simp] theorem sendResponse_nodes : (sendResponse s).nodes = s.nodes := rfl
@[simp] theorem sendResponse_tbl : (sendResponse s).tbl = s.tbl := rfl
@[simp] theorem sendResponse_rsp : (sendResponse s).rsp = { s.rsp with v := false } := rfl
@[simp] theorem sendResponse_enc : (sendResponse s).enc = s.enc := rfl
@[simp] theorem sendResponse_dec : (sendResponse s).dec = s.dec := rfl
@[simp] theorem sendResponse_ports :
    (sendResponse s).ports = { s.ports with rspOut := s.ports.rspOut ++ [s.rsp.data] } := rfl
@[simp] theorem sendResponse_turns : (sendResponse s).turns = s.turns := rfl
@[simp] theorem sendResponse_tick : (sendResponse s).tick = s.tick := rfl

@[simp] theorem takeCmd_job : (takeCmd s).job = s.job := rfl
@[simp] theorem takeCmd_err : (takeCmd s).err = s.err := rfl
@[simp] theorem takeCmd_fault : (takeCmd s).fault = s.fault := rfl
@[simp] theorem takeCmd_root : (takeCmd s).root = s.root := rfl
@[simp] theorem takeCmd_nodes : (takeCmd s).nodes = s.nodes := rfl
@[simp] theorem takeCmd_tbl : (takeCmd s).tbl = s.tbl := rfl
@[simp] theorem takeCmd_rsp : (takeCmd s).rsp = s.rsp := rfl
@[simp] theorem takeCmd_enc : (takeCmd s).enc = s.enc := rfl
@[simp] theorem takeCmd_dec : (takeCmd s).dec = s.dec := rfl
@[simp] theorem takeCmd_ports : (takeCmd s).ports = { s.ports with cmd := s.ports.cmd.tail } := rfl
@[simp] theorem takeCmd_turns : (takeCmd s).turns = s.turns := rfl
@[simp] theorem takeCmd_tick : (takeCmd s).tick = s.tick := rfl

@[simp] theorem takeEncIn_job : (takeEncIn s).job = s.job := rfl
@[simp] theorem takeEncIn_err : (takeEncIn s).err = s.err := rfl
@[simp] theorem takeEncIn_fault : (takeEncIn s).fault = s.fault := rfl
@[simp] theorem takeEncIn_root : (takeEncIn s).root = s.root := rfl
@[simp] theorem takeEncIn_nodes : (takeEncIn s).nodes = s.nodes := rfl
@[simp] theorem takeEncIn_tbl : (takeEncIn s).tbl = s.tbl := rfl
@[simp] theorem takeEncIn_rsp : (takeEncIn s).rsp = s.rsp := rfl
@[simp] theorem takeEncIn_enc : (takeEncIn s).enc = s.enc := rfl
@[simp] theorem takeEncIn_dec : (takeEncIn s).dec = s.dec := rfl
@[simp] theorem takeEncIn_ports : (takeEncIn s).ports = { s.ports with encIn := s.ports.encIn.tail } := rfl
@[simp] theorem takeEncIn_turns : (takeEncIn s).turns = s.turns := rfl
@[simp] theorem takeEncIn_tick : (takeEncIn s).tick = s.tick := rfl

@[simp] theorem takeDecIn_job : (takeDecIn s).job = s.job := rfl
@[simp] theorem takeDecIn_err : (takeDecIn s).err = s.err := rfl
@[simp] theorem takeDecIn_fault : (takeDecIn s).fault = s.fault := rfl
@[simp] theorem takeDecIn_root : (takeDecIn s).root = s.root := rfl
@[simp] theorem takeDecIn_nodes : (takeDecIn s).nodes = s.nodes := rfl
@[simp] theorem takeDecIn_tbl : (takeDecIn s).tbl = s.tbl := rfl
@[simp] theorem takeDecIn_rsp : (takeDecIn s).rsp = s.rsp := rfl
@[simp] theorem takeDecIn_enc : (takeDecIn s).enc = s.enc := rfl
@[simp] theorem takeDecIn_dec : (takeDecIn s).dec = s.dec := rfl
@[simp] theorem takeDecIn_ports : (takeDecIn s).ports = { s.ports with decIn := s.ports.decIn.tail } := rfl
@[simp] theorem takeDecIn_turns : (takeDecIn s).turns = s.turns := rfl
@[simp] theorem takeDecIn_tick : (takeDecIn s).tick = s.tick := rfl

@[simp] theorem putEncOut_job (t : Token) : (putEncOut t s).job = s.job := rfl
@[simp] theorem putEncOut_err (t : Token) : (putEncOut t s).err = s.err := rfl
@[simp] theorem putEncOut_fault (t : Token) : (putEncOut t s).fault = s.fault := rfl
@[simp] theorem putEncOut_root (t : Token) : (putEncOut t s).root = s.root := rfl
@[simp] theorem putEncOut_nodes (t : Token) : (putEncOut t s).nodes = s.nodes := rfl
@[simp] theorem putEncOut_tbl (t : Token) : (putEncOut t s).tbl = s.tbl := rfl
@[simp] theorem putEncOut_rsp (t : Token) : (putEncOut t s).rsp = s.rsp := rfl
@[simp] theorem putEncOut_enc (t : Token) : (putEncOut t s).enc = s.enc := rfl
@[simp] theorem putEncOut_dec (t : Token) : (putEncOut t s).dec = s.dec := rfl
@[simp] theorem putEncOut_ports (t : Token) :
    (putEncOut t s).ports = { s.ports with encOut := s.ports.encOut ++ [t] } := rfl
@[simp] theorem putEncOut_turns (t : Token) : (putEncOut t s).turns = s.turns := rfl
@[simp] theorem putEncOut_tick (t : Token) : (putEncOut t s).tick = s.tick := rfl

@[simp] theorem putDecOut_job (t : Token) : (putDecOut t s).job = s.job := rfl
@[simp] theorem putDecOut_err (t : Token) : (putDecOut t s).err = s.err := rfl
@[simp] theorem putDecOut_fault (t : Token) : (putDecOut t s).fault = s.fault := rfl
@[simp] theorem putDecOut_root (t : Token) : (putDecOut t s).root = s.root := rfl
@[simp] theorem putDecOut_nodes (t : Token) : (putDecOut t s).nodes = s.nodes := rfl
@[simp] theorem putDecOut_tbl (t : Token) : (putDecOut t s).tbl = s.tbl := rfl
@[simp] theorem putDecOut_rsp (t : Token) : (putDecOut t s).rsp = s.rsp := rfl
@[simp] theorem putDecOut_enc (t : Token) : (putDecOut t s).enc = s.enc := rfl
@[simp] theorem putDecOut_dec (t : Token) : (putDecOut t s).dec = s.dec := rfl
@[simp] theorem putDecOut_ports (t : Token) :
    (putDecOut t s).ports = { s.ports with decOut := s.ports.decOut ++ [t] } := rfl
@[simp] theorem putDecOut_turns (t : Token) : (putDecOut t s).turns = s.turns := rfl
@[simp] theorem putDecOut_tick (t : Token) : (putDecOut t s).tick = s.tick := rfl

@[simp] theorem resetEvent_job : (resetEvent s).job = State.reset.job := rfl
@[simp] theorem resetEvent_err : (resetEvent s).err = State.reset.err := rfl
@[simp] theorem resetEvent_fault : (resetEvent s).fault = State.reset.fault := rfl
@[simp] theorem resetEvent_root : (resetEvent s).root = State.reset.root := rfl
@[simp] theorem resetEvent_nodes : (resetEvent s).nodes = State.reset.nodes := rfl
@[simp] theorem resetEvent_tbl : (resetEvent s).tbl = State.reset.tbl := rfl
@[simp] theorem resetEvent_rsp : (resetEvent s).rsp = State.reset.rsp := rfl
@[simp] theorem resetEvent_enc : (resetEvent s).enc = State.reset.enc := rfl
@[simp] theorem resetEvent_dec : (resetEvent s).dec = State.reset.dec := rfl
@[simp] theorem resetEvent_ports : (resetEvent s).ports = s.ports := rfl
@[simp] theorem resetEvent_turns : (resetEvent s).turns = s.turns := rfl
@[simp] theorem resetEvent_tick : (resetEvent s).tick = s.tick := rfl

@[simp] theorem startEncoder_job : (startEncoder s).job = .enc := rfl
@[simp] theorem startEncoder_err : (startEncoder s).err = s.err := rfl
@[simp] theorem startEncoder_fault : (startEncoder s).fault = s.fault := rfl
@[simp] theorem startEncoder_root : (startEncoder s).root = s.root := rfl
@[simp] theorem startEncoder_nodes : (startEncoder s).nodes = s.nodes := rfl
@[simp] theorem startEncoder_tbl : (startEncoder s).tbl = s.tbl := rfl
@[simp] theorem startEncoder_rsp : (startEncoder s).rsp = s.rsp := rfl
@[simp] theorem startEncoder_enc : (startEncoder s).enc = { s.enc with acc := 0, nb := 0, phase := .wait } := rfl
@[simp] theorem startEncoder_dec : (startEncoder s).dec = s.dec := rfl
@[simp] theorem startEncoder_ports : (startEncoder s).ports = s.ports := rfl
@[simp] theorem startEncoder_turns : (startEncoder s).turns = s.turns := rfl
@[simp] theorem startEncoder_tick : (startEncoder s).tick = s.tick := rfl

@[simp] theorem startPath_job (k : SymId) : (startPath k s).job = s.job := rfl
@[simp] theorem startPath_err (k : SymId) : (startPath k s).err = s.err := rfl
@[simp] theorem startPath_fault (k : SymId) : (startPath k s).fault = s.fault := rfl
@[simp] theorem startPath_root (k : SymId) : (startPath k s).root = s.root := rfl
@[simp] theorem startPath_nodes (k : SymId) : (startPath k s).nodes = s.nodes := rfl
@[simp] theorem startPath_tbl (k : SymId) : (startPath k s).tbl = s.tbl := rfl
@[simp] theorem startPath_rsp (k : SymId) : (startPath k s).rsp = s.rsp := rfl
@[simp] theorem startPath_enc (k : SymId) :
    (startPath k s).enc = { s.enc with psym := k, pidx := 0, phase := .shift } := rfl
@[simp] theorem startPath_dec (k : SymId) : (startPath k s).dec = s.dec := rfl
@[simp] theorem startPath_ports (k : SymId) : (startPath k s).ports = s.ports := rfl
@[simp] theorem startPath_turns (k : SymId) : (startPath k s).turns = s.turns := rfl
@[simp] theorem startPath_tick (k : SymId) : (startPath k s).tick = s.tick := rfl

@[simp] theorem encShift_job (b : Bool) : (encShift b s).job = s.job := rfl
@[simp] theorem encShift_err (b : Bool) : (encShift b s).err = s.err := rfl
@[simp] theorem encShift_fault (b : Bool) : (encShift b s).fault = s.fault := rfl
@[simp] theorem encShift_root (b : Bool) : (encShift b s).root = s.root := rfl
@[simp] theorem encShift_nodes (b : Bool) : (encShift b s).nodes = s.nodes := rfl
@[simp] theorem encShift_tbl (b : Bool) : (encShift b s).tbl = s.tbl := rfl
@[simp] theorem encShift_rsp (b : Bool) : (encShift b s).rsp = s.rsp := rfl
@[simp] theorem encShift_enc (b : Bool) :
    (encShift b s).enc = { s.enc with acc := s.enc.acc <<< 1 ||| (BitVec.ofBool b).setWidth 8, nb := s.enc.nb + 1, pidx := s.enc.pidx + 1 } := rfl
@[simp] theorem encShift_dec (b : Bool) : (encShift b s).dec = s.dec := rfl
@[simp] theorem encShift_ports (b : Bool) : (encShift b s).ports = s.ports := rfl
@[simp] theorem encShift_turns (b : Bool) : (encShift b s).turns = s.turns := rfl
@[simp] theorem encShift_tick (b : Bool) : (encShift b s).tick = s.tick := rfl

@[simp] theorem encNext_job : (encNext s).job = s.job := rfl
@[simp] theorem encNext_err : (encNext s).err = s.err := rfl
@[simp] theorem encNext_fault : (encNext s).fault = s.fault := rfl
@[simp] theorem encNext_root : (encNext s).root = s.root := rfl
@[simp] theorem encNext_nodes : (encNext s).nodes = s.nodes := rfl
@[simp] theorem encNext_tbl : (encNext s).tbl = s.tbl := rfl
@[simp] theorem encNext_rsp : (encNext s).rsp = s.rsp := rfl
@[simp] theorem encNext_enc :
    (encNext s).enc = { s.enc with phase := if s.enc.psym = Config.eofId then .pad else .wait } := rfl
@[simp] theorem encNext_dec : (encNext s).dec = s.dec := rfl
@[simp] theorem encNext_ports : (encNext s).ports = s.ports := rfl
@[simp] theorem encNext_turns : (encNext s).turns = s.turns := rfl
@[simp] theorem encNext_tick : (encNext s).tick = s.tick := rfl

@[simp] theorem encByte_job : (encByte s).job = s.job := rfl
@[simp] theorem encByte_err : (encByte s).err = s.err := rfl
@[simp] theorem encByte_fault : (encByte s).fault = s.fault := rfl
@[simp] theorem encByte_root : (encByte s).root = s.root := rfl
@[simp] theorem encByte_nodes : (encByte s).nodes = s.nodes := rfl
@[simp] theorem encByte_tbl : (encByte s).tbl = s.tbl := rfl
@[simp] theorem encByte_rsp : (encByte s).rsp = s.rsp := rfl
@[simp] theorem encByte_enc : (encByte s).enc = { s.enc with acc := 0, nb := 0 } := rfl
@[simp] theorem encByte_dec : (encByte s).dec = s.dec := rfl
@[simp] theorem encByte_ports :
    (encByte s).ports = { s.ports with encOut := s.ports.encOut ++ [Token.data s.enc.acc] } := rfl
@[simp] theorem encByte_turns : (encByte s).turns = s.turns := rfl
@[simp] theorem encByte_tick : (encByte s).tick = s.tick := rfl

@[simp] theorem encPad_job : (encPad s).job = s.job := by unfold encPad; split <;> rfl
@[simp] theorem encPad_err : (encPad s).err = s.err := by unfold encPad; split <;> rfl
@[simp] theorem encPad_fault : (encPad s).fault = s.fault := by unfold encPad; split <;> rfl
@[simp] theorem encPad_root : (encPad s).root = s.root := by unfold encPad; split <;> rfl
@[simp] theorem encPad_nodes : (encPad s).nodes = s.nodes := by unfold encPad; split <;> rfl
@[simp] theorem encPad_tbl : (encPad s).tbl = s.tbl := by unfold encPad; split <;> rfl
@[simp] theorem encPad_rsp : (encPad s).rsp = s.rsp := by unfold encPad; split <;> rfl
@[simp] theorem encPad_enc :
    (encPad s).enc = if s.enc.nb = 0#4 then { s.enc with phase := .fin } else { s.enc with acc := s.enc.acc <<< (8 - s.enc.nb.toNat), nb := 8 } := by unfold encPad; split <;> simp_all
@[simp] theorem encPad_dec : (encPad s).dec = s.dec := by unfold encPad; split <;> rfl
@[simp] theorem encPad_ports : (encPad s).ports = s.ports := by unfold encPad; split <;> rfl
@[simp] theorem encPad_turns : (encPad s).turns = s.turns := by unfold encPad; split <;> rfl
@[simp] theorem encPad_tick : (encPad s).tick = s.tick := by unfold encPad; split <;> rfl

@[simp] theorem encEnd_job : (encEnd s).job = .idle := rfl
@[simp] theorem encEnd_err : (encEnd s).err = s.err := rfl
@[simp] theorem encEnd_fault : (encEnd s).fault = s.fault := rfl
@[simp] theorem encEnd_root : (encEnd s).root = s.root := rfl
@[simp] theorem encEnd_nodes : (encEnd s).nodes = s.nodes := rfl
@[simp] theorem encEnd_tbl : (encEnd s).tbl = s.tbl := rfl
@[simp] theorem encEnd_rsp : (encEnd s).rsp = s.rsp := rfl
@[simp] theorem encEnd_enc : (encEnd s).enc = s.enc := rfl
@[simp] theorem encEnd_dec : (encEnd s).dec = s.dec := rfl
@[simp] theorem encEnd_ports : (encEnd s).ports = { s.ports with encOut := s.ports.encOut ++ [Token.fin] } := rfl
@[simp] theorem encEnd_turns : (encEnd s).turns = s.turns := rfl
@[simp] theorem encEnd_tick : (encEnd s).tick = s.tick := rfl

@[simp] theorem startDecoder_job (p : DecPhase) : (startDecoder p s).job = .dec := rfl
@[simp] theorem startDecoder_err (p : DecPhase) : (startDecoder p s).err = s.err := rfl
@[simp] theorem startDecoder_fault (p : DecPhase) : (startDecoder p s).fault = s.fault := rfl
@[simp] theorem startDecoder_root (p : DecPhase) : (startDecoder p s).root = s.root := rfl
@[simp] theorem startDecoder_nodes (p : DecPhase) : (startDecoder p s).nodes = s.nodes := rfl
@[simp] theorem startDecoder_tbl (p : DecPhase) : (startDecoder p s).tbl = s.tbl := rfl
@[simp] theorem startDecoder_rsp (p : DecPhase) : (startDecoder p s).rsp = s.rsp := rfl
@[simp] theorem startDecoder_enc (p : DecPhase) : (startDecoder p s).enc = s.enc := rfl
@[simp] theorem startDecoder_dec (p : DecPhase) : (startDecoder p s).dec = { s.dec with phase := p } := rfl
@[simp] theorem startDecoder_ports (p : DecPhase) : (startDecoder p s).ports = s.ports := rfl
@[simp] theorem startDecoder_turns (p : DecPhase) : (startDecoder p s).turns = s.turns := rfl
@[simp] theorem startDecoder_tick (p : DecPhase) : (startDecoder p s).tick = s.tick := rfl

@[simp] theorem dropBits_job : (dropBits s).job = s.job := rfl
@[simp] theorem dropBits_err : (dropBits s).err = s.err := rfl
@[simp] theorem dropBits_fault : (dropBits s).fault = s.fault := rfl
@[simp] theorem dropBits_root : (dropBits s).root = s.root := rfl
@[simp] theorem dropBits_nodes : (dropBits s).nodes = s.nodes := rfl
@[simp] theorem dropBits_tbl : (dropBits s).tbl = s.tbl := rfl
@[simp] theorem dropBits_rsp : (dropBits s).rsp = s.rsp := rfl
@[simp] theorem dropBits_enc : (dropBits s).enc = s.enc := rfl
@[simp] theorem dropBits_dec : (dropBits s).dec = { s.dec with bn := 0 } := rfl
@[simp] theorem dropBits_ports : (dropBits s).ports = s.ports := rfl
@[simp] theorem dropBits_turns : (dropBits s).turns = s.turns := rfl
@[simp] theorem dropBits_tick : (dropBits s).tick = s.tick := rfl

@[simp] theorem goToRoot_job : (goToRoot s).job = s.job := rfl
@[simp] theorem goToRoot_err : (goToRoot s).err = s.err := rfl
@[simp] theorem goToRoot_fault : (goToRoot s).fault = s.fault := rfl
@[simp] theorem goToRoot_root : (goToRoot s).root = s.root := rfl
@[simp] theorem goToRoot_nodes : (goToRoot s).nodes = s.nodes := rfl
@[simp] theorem goToRoot_tbl : (goToRoot s).tbl = s.tbl := rfl
@[simp] theorem goToRoot_rsp : (goToRoot s).rsp = s.rsp := rfl
@[simp] theorem goToRoot_enc : (goToRoot s).enc = s.enc := rfl
@[simp] theorem goToRoot_dec : (goToRoot s).dec = { s.dec with cur := s.root.ref } := rfl
@[simp] theorem goToRoot_ports : (goToRoot s).ports = s.ports := rfl
@[simp] theorem goToRoot_turns : (goToRoot s).turns = s.turns := rfl
@[simp] theorem goToRoot_tick : (goToRoot s).tick = s.tick := rfl

@[simp] theorem fillByte_job (b : Byte) : (fillByte b s).job = s.job := rfl
@[simp] theorem fillByte_err (b : Byte) : (fillByte b s).err = s.err := rfl
@[simp] theorem fillByte_fault (b : Byte) : (fillByte b s).fault = s.fault := rfl
@[simp] theorem fillByte_root (b : Byte) : (fillByte b s).root = s.root := rfl
@[simp] theorem fillByte_nodes (b : Byte) : (fillByte b s).nodes = s.nodes := rfl
@[simp] theorem fillByte_tbl (b : Byte) : (fillByte b s).tbl = s.tbl := rfl
@[simp] theorem fillByte_rsp (b : Byte) : (fillByte b s).rsp = s.rsp := rfl
@[simp] theorem fillByte_enc (b : Byte) : (fillByte b s).enc = s.enc := rfl
@[simp] theorem fillByte_dec (b : Byte) : (fillByte b s).dec = { s.dec with sr := b, bn := 8 } := rfl
@[simp] theorem fillByte_ports (b : Byte) : (fillByte b s).ports = s.ports := rfl
@[simp] theorem fillByte_turns (b : Byte) : (fillByte b s).turns = s.turns := rfl
@[simp] theorem fillByte_tick (b : Byte) : (fillByte b s).tick = s.tick := rfl

@[simp] theorem consumeBit_job : (consumeBit s).job = s.job := rfl
@[simp] theorem consumeBit_err : (consumeBit s).err = s.err := rfl
@[simp] theorem consumeBit_fault : (consumeBit s).fault = s.fault := rfl
@[simp] theorem consumeBit_root : (consumeBit s).root = s.root := rfl
@[simp] theorem consumeBit_nodes : (consumeBit s).nodes = s.nodes := rfl
@[simp] theorem consumeBit_tbl : (consumeBit s).tbl = s.tbl := rfl
@[simp] theorem consumeBit_rsp : (consumeBit s).rsp = s.rsp := rfl
@[simp] theorem consumeBit_enc : (consumeBit s).enc = s.enc := rfl
@[simp] theorem consumeBit_dec : (consumeBit s).dec = { s.dec with sr := s.dec.sr <<< 1, bn := s.dec.bn - 1 } := rfl
@[simp] theorem consumeBit_ports : (consumeBit s).ports = s.ports := rfl
@[simp] theorem consumeBit_turns : (consumeBit s).turns = s.turns := rfl
@[simp] theorem consumeBit_tick : (consumeBit s).tick = s.tick := rfl

@[simp] theorem decEmit_job : (decEmit s).job = s.job := rfl
@[simp] theorem decEmit_err : (decEmit s).err = s.err := rfl
@[simp] theorem decEmit_fault : (decEmit s).fault = s.fault := rfl
@[simp] theorem decEmit_root : (decEmit s).root = s.root := rfl
@[simp] theorem decEmit_nodes : (decEmit s).nodes = s.nodes := rfl
@[simp] theorem decEmit_tbl : (decEmit s).tbl = s.tbl := rfl
@[simp] theorem decEmit_rsp : (decEmit s).rsp = s.rsp := rfl
@[simp] theorem decEmit_enc : (decEmit s).enc = s.enc := rfl
@[simp] theorem decEmit_dec : (decEmit s).dec = { s.dec with cur := s.root.ref, phase := .walk } := rfl
@[simp] theorem decEmit_ports :
    (decEmit s).ports = { s.ports with decOut := s.ports.decOut ++ [Token.data s.dec.outb] } := rfl
@[simp] theorem decEmit_turns : (decEmit s).turns = s.turns := rfl
@[simp] theorem decEmit_tick : (decEmit s).tick = s.tick := rfl

@[simp] theorem decFin_job : (decFin s).job = s.job := rfl
@[simp] theorem decFin_err : (decFin s).err = s.err := rfl
@[simp] theorem decFin_fault : (decFin s).fault = s.fault := rfl
@[simp] theorem decFin_root : (decFin s).root = s.root := rfl
@[simp] theorem decFin_nodes : (decFin s).nodes = s.nodes := rfl
@[simp] theorem decFin_tbl : (decFin s).tbl = s.tbl := rfl
@[simp] theorem decFin_rsp : (decFin s).rsp = s.rsp := rfl
@[simp] theorem decFin_enc : (decFin s).enc = s.enc := rfl
@[simp] theorem decFin_dec : (decFin s).dec = { s.dec with phase := .drain } := rfl
@[simp] theorem decFin_ports : (decFin s).ports = { s.ports with decOut := s.ports.decOut ++ [Token.fin] } := rfl
@[simp] theorem decFin_turns : (decFin s).turns = s.turns := rfl
@[simp] theorem decFin_tick : (decFin s).tick = s.tick := rfl

@[simp] theorem offer_job (o : Offer) : (offer o s).job = s.job := by cases o <;> rfl
@[simp] theorem offer_err (o : Offer) : (offer o s).err = s.err := by cases o <;> rfl
@[simp] theorem offer_fault (o : Offer) : (offer o s).fault = s.fault := by cases o <;> rfl
@[simp] theorem offer_root (o : Offer) : (offer o s).root = s.root := by cases o <;> rfl
@[simp] theorem offer_nodes (o : Offer) : (offer o s).nodes = s.nodes := by cases o <;> rfl
@[simp] theorem offer_tbl (o : Offer) : (offer o s).tbl = s.tbl := by cases o <;> rfl
@[simp] theorem offer_rsp (o : Offer) : (offer o s).rsp = s.rsp := by cases o <;> rfl
@[simp] theorem offer_enc (o : Offer) : (offer o s).enc = s.enc := by cases o <;> rfl
@[simp] theorem offer_dec (o : Offer) : (offer o s).dec = s.dec := by cases o <;> rfl
@[simp] theorem offer_turns (o : Offer) : (offer o s).turns = s.turns := by cases o <;> rfl
@[simp] theorem offer_tick (o : Offer) : (offer o s).tick = s.tick := by cases o <;> rfl
@[simp] theorem offer_cmd_ports (w : Word) :
    (offer (.cmd w) s).ports = { s.ports with cmd := s.ports.cmd ++ [w] } := rfl
@[simp] theorem offer_encIn_ports (t : Token) :
    (offer (.encIn t) s).ports = { s.ports with encIn := s.ports.encIn ++ [t] } := rfl
@[simp] theorem offer_decIn_ports (t : Token) :
    (offer (.decIn t) s).ports = { s.ports with decIn := s.ports.decIn ++ [t] } := rfl

end

end Sys2Proof.Machine
end

