-- ==== Sys2Proof/Laws/Ops.lean ====
section
/-! SUPPORT. What each shared operation over the state can do: one lemma an operation and reader. -/

namespace Sys2Proof.Machine

/-! ### The stores -/

@[simp] theorem getElem_mapEntries {α β : Type} {n : Nat} (f : α → β) (v : Vector α n) (k : Nat) (h : k < n) :
    (mapEntries f v)[k] = f v[k] := by
  simp [mapEntries]

theorem node_loadNode (i : Byte) (l r : Ref) (s : State) (j : Byte) :
    (loadNode i l r s).node j = if j = i then { v := true, left := l, right := r } else s.node j := by
  by_cases h : j = i
  · subst h; simp [State.node]
  · have : i.toNat ≠ j.toNat := fun e => h (BitVec.eq_of_toNat_eq e.symm)
    simp [State.node, h, this]

theorem node_clearTree (s : State) (i : Byte) : (clearTree s).node i = { s.node i with v := false } := by
  simp [State.node]

theorem node_congr {s t : State} (h : t.nodes = s.nodes) (i : Byte) : t.node i = s.node i := by
  simp [State.node, h]

theorem entry_congr {s t : State} (h : t.tbl = s.tbl) (k : SymId) : t.entry k = s.entry k := by
  simp [State.entry, h]

theorem entryOf_isSome_iff (t : Tbl) (k : SymId) : (entryOf t k).isSome = true ↔ k.toNat < 257 := by
  simp [entryOf]

theorem entryOf_invalidateTbl (t : Tbl) (k : SymId) :
    entryOf (invalidateTbl t) k = (entryOf t k).map (fun e => { e with v := false }) := by
  by_cases h : k.toNat < 257 <;> simp [entryOf, invalidateTbl, h]

theorem entryOf_recordEntry (t : Tbl) (k : SymId) (p : Path) (j : SymId) :
    entryOf (recordEntry t k p) j =
      if j = k ∧ k.toNat < 257 then some { v := true, path := p } else entryOf t j := by
  by_cases hj : j = k
  · subst hj
    by_cases h : j.toNat < 257 <;> simp [entryOf, recordEntry, h]
  · have : k.toNat ≠ j.toNat := fun e => hj (BitVec.eq_of_toNat_eq e.symm)
    simp [entryOf, recordEntry, hj, this]

@[simp] theorem hasEntry_invalidateTbl (t : Tbl) (k : SymId) : hasEntry (invalidateTbl t) k = false := by
  simp only [hasEntry, entryOf_invalidateTbl]
  cases entryOf t k <;> rfl

theorem hasEntry_iff (t : Tbl) (k : SymId) :
    hasEntry t k = true ↔ ∃ p, entryOf t k = some { v := true, path := p } := by
  unfold hasEntry
  cases h : entryOf t k with
  | none => simp
  | some e => cases e with | mk v p => cases v <;> simp

/-! ### Rejecting, raising, the state check -/

theorem whenIdle_idle {s : State} (h : s.job = .idle) (e : State) : whenIdle s e = e := by
  simp [whenIdle, h]

theorem whenIdle_busy {s : State} (h : s.job ≠ .idle) (e : State) : whenIdle s e = reject .busycmd s := by
  simp [whenIdle, h]

/-- The state check of R127 does one of two things. -/
theorem whenIdle_cases (s e : State) :
    (s.job = .idle ∧ whenIdle s e = e) ∨ (s.job ≠ .idle ∧ whenIdle s e = reject .busycmd s) := by
  by_cases h : s.job = .idle
  · exact .inl ⟨h, whenIdle_idle h e⟩
  · exact .inr ⟨h, whenIdle_busy h e⟩

/-- Setting a flag sets that flag and keeps the others (R28). -/
theorem errHas_errSet (f g : ErrBit) (e : BitVec 10) :
    errHas g (errSet f e) = (errHas g e || decide (f = g)) := by
  unfold errHas errSet
  rw [BitVec.getLsbD_or, BitVec.getLsbD_twoPow]
  cases f <;> cases g <;> simp [ErrBit.pos]

/-- The flags as the bits of the `ERR` word (R30). -/
theorem errSet_word (e : BitVec 10) :
    errSet .illcmd e = e ||| 0x001#10 ∧ errSet .busycmd e = e ||| 0x002#10 ∧ errSet .badaddr e = e ||| 0x004#10
      ∧ errSet .noroot e = e ||| 0x008#10 ∧ errSet .badnode e = e ||| 0x010#10 ∧ errSet .dupsym e = e ||| 0x020#10
      ∧ errSet .depth e = e ||| 0x040#10 ∧ errSet .noeof e = e ||| 0x080#10 ∧ errSet .unksym e = e ||| 0x100#10
      ∧ errSet .trunc e = e ||| 0x200#10 :=
  ⟨rfl, rfl, rfl, rfl, rfl, rfl, rfl, rfl, rfl, rfl⟩

/-- A job fault's cause is one of 1..7 (R190). -/
theorem JobFault.cause_range (f : JobFault) : 1 ≤ f.cause.toNat ∧ f.cause.toNat ≤ 7 := by
  cases f <;> decide

end Sys2Proof.Machine
end

