-- ==== Sys2Proof/Laws/Build.lean ====
section
/-! SUPPORT. What the traversal of the table build can do (42_table_build.md R161 to R166): the table after a build without a
fault, the defect behind each fault, and the length of the paths recorded. -/

namespace Sys2Proof.Machine

/-! ### Paths -/

theorem follow_append (nodes : Nodes) (r : Ref) (p q : Path) :
    follow nodes r (p ++ q) = (follow nodes r p).bind (fun r' => follow nodes r' q) := by
  induction p generalizing r with
  | nil => rfl
  | cons b p ih =>
    simp only [List.cons_append, follow]
    split
    · rfl
    · split
      · exact ih _
      · rfl

theorem follow_leaf {nodes : Nodes} {r r' : Ref} {p : Path} (h : Ref.isLeaf r = true) (hf : follow nodes r p = some r') :
    p = [] ∧ r' = r := by
  cases p with
  | nil => simpa [follow, eq_comm] using hf
  | cons b p => simp [follow, h] at hf

theorem leafAt_leaf {nodes : Nodes} {r : Ref} {p : Path} {k : SymId} (h : Ref.isLeaf r = true) :
    leafAt nodes r p k ↔ p = [] ∧ k = Ref.sym r := by
  constructor
  · rintro ⟨r', hf, hl, hk⟩
    obtain ⟨rfl, rfl⟩ := follow_leaf h hf
    exact ⟨rfl, hk.symm⟩
  · rintro ⟨rfl, rfl⟩
    exact ⟨r, rfl, h, rfl⟩

theorem leafAt_node {nodes : Nodes} {r : Ref} {p : Path} {k : SymId} (h : Ref.isLeaf r = false)
    (hv : (nodes[(Ref.val r).toNat]'(Ref.val r).isLt).v = true) :
    leafAt nodes r p k ↔
      ∃ b q, p = b :: q ∧ leafAt nodes (child (nodes[(Ref.val r).toNat]'(Ref.val r).isLt) b) q k := by
  constructor
  · rintro ⟨r', hf, hl, hk⟩
    cases p with
    | nil => simp [follow] at hf; subst hf; simp [h] at hl
    | cons b q =>
      refine ⟨b, q, rfl, r', ?_, hl, hk⟩
      simpa [follow, h, hv] using hf
  · rintro ⟨b, q, rfl, r', hf, hl, hk⟩
    exact ⟨r', by simpa [follow, h, hv] using hf, hl, hk⟩

/-- A leaf's path is no proper prefix of another path of the tree, and no path has two leaves (R167). -/
theorem leafAt_prefix {nodes : Nodes} {r : Ref} {p q : Path} {k k' : SymId} (h : leafAt nodes r p k)
    (h' : leafAt nodes r (p ++ q) k') : q = [] ∧ k' = k := by
  obtain ⟨r1, hf, hl, rfl⟩ := h
  obtain ⟨r2, hf2, hl2, rfl⟩ := h'
  rw [follow_append, hf] at hf2
  obtain ⟨rfl, rfl⟩ := follow_leaf hl hf2
  exact ⟨rfl, rfl⟩

/-! ### The table -/

theorem holdsPath_inj {t : Tbl} {k : SymId} {p q : Path} (hp : holdsPath t k p) (hq : holdsPath t k q) : p = q := by
  unfold holdsPath at hp hq
  rw [hp] at hq
  simpa using hq

theorem hasEntry_iff_holdsPath (t : Tbl) (k : SymId) : hasEntry t k = true ↔ ∃ p, holdsPath t k p :=
  hasEntry_iff t k

theorem holdsPath_recordEntry {t : Tbl} {k : SymId} {p : Path} (h : hasEntry t k = false) (j : SymId) (q : Path) :
    holdsPath (recordEntry t k p) j q ↔ holdsPath t j q ∨ (j = k ∧ k.toNat < 257 ∧ q = p) := by
  have hno : ∀ q, ¬ holdsPath t k q := fun q hq => by
    have := (hasEntry_iff_holdsPath t k).2 ⟨q, hq⟩
    simp [h] at this
  unfold holdsPath at *
  rw [entryOf_recordEntry]
  by_cases hjk : j = k
  · subst hjk
    by_cases hlt : j.toNat < 257
    · simp [hlt, hno, eq_comm]
    · simp [hlt]
  · simp [hjk]

theorem not_holdsPath_invalidateTbl (t : Tbl) (k : SymId) (p : Path) : ¬ holdsPath (invalidateTbl t) k p := by
  intro h
  have := (hasEntry_iff_holdsPath _ _).2 ⟨p, h⟩
  simp at this

/-! ### The traversal -/

/-- One call of `visit` at a leaf (R161). -/
theorem visit_leaf (nodes : Nodes) (d : Nat) {r : Ref} (h : Ref.isLeaf r = true) (path : Path) (t : Tbl) :
    visit nodes d r path t =
      if hasEntry t (Ref.sym r) then (some (.dupsym, Ref.sym r), t) else (none, recordEntry t (Ref.sym r) path) := by
  cases d <;> simp [visit, h]

/-- One call of `visit` at a node that is not valid (R162). -/
theorem visit_badnode (nodes : Nodes) (d : Nat) {r : Ref} (h : Ref.isLeaf r = false)
    (hv : (nodes[(Ref.val r).toNat]'(Ref.val r).isLt).v = false) (path : Path) (t : Tbl) :
    visit nodes d r path t = (some (.badnode, Byte.zext9 (Ref.val r)), t) := by
  cases d <;> simp [visit, h, hv]

/-- One call of `visit` at a valid node with no level left (R162). -/
theorem visit_depth (nodes : Nodes) {r : Ref} (h : Ref.isLeaf r = false)
    (hv : (nodes[(Ref.val r).toNat]'(Ref.val r).isLt).v = true) (path : Path) (t : Tbl) :
    visit nodes 0 r path t = (some (.depth, Byte.zext9 (Ref.val r)), t) := by
  simp [visit, h, hv]

/-- One call of `visit` at a valid node: left, then right unless the left faulted (R161). -/
theorem visit_node (nodes : Nodes) (d : Nat) {r : Ref} (h : Ref.isLeaf r = false)
    (hv : (nodes[(Ref.val r).toNat]'(Ref.val r).isLt).v = true) (path : Path) (t : Tbl) :
    visit nodes (d + 1) r path t =
      match visit nodes d (child (nodes[(Ref.val r).toNat]'(Ref.val r).isLt) false) (path ++ [false]) t with
      | (some f, t') => (some f, t')
      | (none, t') => visit nodes d (child (nodes[(Ref.val r).toNat]'(Ref.val r).isLt) true) (path ++ [true]) t' := by
  rw [visit, if_neg (by simp [h]), if_pos hv]
  rfl

/-- A traversal without a fault: the entries added are exactly the leaves below `r`, every one of a new symbol, every node
below is valid and less deep than the levels left, and no path is longer than them (R161, R164, R166). -/
theorem visit_none {nodes : Nodes} {d : Nat} {r : Ref} {path : Path} {t t' : Tbl}
    (h : visit nodes d r path t = (none, t')) :
    (∀ k q, holdsPath t' k q ↔
        holdsPath t k q ∨ ∃ p, q = path ++ p ∧ leafAt nodes r p k ∧ k.toNat < 257)
      ∧ (∀ p r', follow nodes r p = some r' →
          p.length ≤ d
          ∧ (Ref.isLeaf r' = false → (nodes[(Ref.val r').toNat]'(Ref.val r').isLt).v = true ∧ p.length < d)) := by
  induction d generalizing r path t t' with
  | zero =>
    cases hl : Ref.isLeaf r with
    | true =>
      rw [visit_leaf nodes 0 hl] at h
      split at h
      · simp at h
      · rename_i he
        obtain ⟨-, rfl⟩ := Prod.mk.inj h
        refine ⟨fun k q => ?_, fun p r' hf => ?_⟩
        · rw [holdsPath_recordEntry (by simpa using he)]
          simp only [leafAt_leaf hl]
          constructor
          · rintro (h1 | ⟨rfl, h2, rfl⟩)
            · exact .inl h1
            · exact .inr ⟨[], by simp, ⟨rfl, rfl⟩, h2⟩
          · rintro (h1 | ⟨p, rfl, ⟨rfl, rfl⟩, h2⟩)
            · exact .inl h1
            · exact .inr ⟨rfl, h2, by simp⟩
        · obtain ⟨rfl, rfl⟩ := follow_leaf hl hf
          simp [hl]
    | false =>
      cases hv : (nodes[(Ref.val r).toNat]'(Ref.val r).isLt).v with
      | false => rw [visit_badnode nodes 0 hl hv] at h; simp at h
      | true => rw [visit_depth nodes hl hv] at h; simp at h
  | succ d ih =>
    cases hl : Ref.isLeaf r with
    | true =>
      rw [visit_leaf nodes (d + 1) hl] at h
      split at h
      · simp at h
      · rename_i he
        obtain ⟨-, rfl⟩ := Prod.mk.inj h
        refine ⟨fun k q => ?_, fun p r' hf => ?_⟩
        · rw [holdsPath_recordEntry (by simpa using he)]
          simp only [leafAt_leaf hl]
          constructor
          · rintro (h1 | ⟨rfl, h2, rfl⟩)
            · exact .inl h1
            · exact .inr ⟨[], by simp, ⟨rfl, rfl⟩, h2⟩
          · rintro (h1 | ⟨p, rfl, ⟨rfl, rfl⟩, h2⟩)
            · exact .inl h1
            · exact .inr ⟨rfl, h2, by simp⟩
        · obtain ⟨rfl, rfl⟩ := follow_leaf hl hf
          simp [hl]
    | false =>
      cases hv : (nodes[(Ref.val r).toNat]'(Ref.val r).isLt).v with
      | false => rw [visit_badnode nodes (d + 1) hl hv] at h; simp at h
      | true =>
        rw [visit_node nodes d hl hv] at h
        split at h
        · simp at h
        · rename_i t1 h1
          obtain ⟨a1, b1⟩ := ih h1
          obtain ⟨a2, b2⟩ := ih h
          refine ⟨fun k q => ?_, fun p r' hf => ?_⟩
          · rw [a2, a1]
            constructor
            · rintro ((h0 | ⟨p, rfl, h2, h3⟩) | ⟨p, rfl, h2, h3⟩)
              · exact .inl h0
              · exact .inr ⟨false :: p, by simp, (leafAt_node hl hv).2 ⟨_, _, rfl, h2⟩, h3⟩
              · exact .inr ⟨true :: p, by simp, (leafAt_node hl hv).2 ⟨_, _, rfl, h2⟩, h3⟩
            · rintro (h0 | ⟨p, rfl, h2, h3⟩)
              · exact .inl (.inl h0)
              · obtain ⟨b, q, rfl, h4⟩ := (leafAt_node hl hv).1 h2
                cases b with
                | false => exact .inl (.inr ⟨q, by simp, h4, h3⟩)
                | true => exact .inr ⟨q, by simp, h4, h3⟩
          · cases p with
            | nil =>
              simp only [follow, Option.some.injEq] at hf
              subst hf
              exact ⟨Nat.zero_le _, fun _ => ⟨hv, Nat.succ_pos d⟩⟩
            | cons b q =>
              have hf' : follow nodes (child (nodes[(Ref.val r).toNat]'(Ref.val r).isLt) b) q = some r' := by
                simpa [follow, hl, hv] using hf
              cases b with
              | false => exact ⟨by simpa using (b1 q r' hf').1, fun h' => by simpa using (b1 q r' hf').2 h'⟩
              | true => exact ⟨by simpa using (b2 q r' hf').1, fun h' => by simpa using (b2 q r' hf').2 h'⟩

@[simp] theorem leftOf_nil_left (p : Path) : leftOf [] p = false := rfl
@[simp] theorem leftOf_nil_right (q : Path) : leftOf q [] = false := by cases q <;> rfl
@[simp] theorem leftOf_cons_same (b : Bool) (q p : Path) : leftOf (b :: q) (b :: p) = leftOf q p := by simp [leftOf]
@[simp] theorem leftOf_false_true (q p : Path) : leftOf (false :: q) (true :: p) = true := rfl
@[simp] theorem leftOf_true_false (q p : Path) : leftOf (true :: q) (false :: p) = false := rfl

/-- No path is to the left of itself. -/
theorem leftOf_irrefl (p : Path) : leftOf p p = false := by
  induction p with
  | nil => rfl
  | cons b p ih => simp [ih]

/-- The defect that a fault of the traversal names at the place `p` below `r` (R162); `d` levels are left at `r`. -/
def defectAt (nodes : Nodes) (d : Nat) (r : Ref) (p : Path) (t' : Tbl) (f : JobFault) (info : BitVec 9) : Prop :=
  (f = .badnode ∧ ∃ r', follow nodes r p = some r' ∧ Ref.isLeaf r' = false
      ∧ (nodes[(Ref.val r').toNat]'(Ref.val r').isLt).v = false ∧ info = Byte.zext9 (Ref.val r'))
    ∨ (f = .dupsym ∧ leafAt nodes r p info ∧ ∃ q, holdsPath t' info q)
    ∨ (f = .depth ∧ ∃ r', follow nodes r p = some r' ∧ Ref.isLeaf r' = false
      ∧ (nodes[(Ref.val r').toNat]'(Ref.val r').isLt).v = true ∧ p.length = d ∧ info = Byte.zext9 (Ref.val r'))

/-- A defect below a child is a defect below its node. -/
theorem defectAt_node {nodes : Nodes} {d : Nat} {r : Ref} {p : Path} {t' : Tbl} {f : JobFault} {info : BitVec 9}
    (hl : Ref.isLeaf r = false) (hv : (nodes[(Ref.val r).toNat]'(Ref.val r).isLt).v = true) (b : Bool)
    (h : defectAt nodes d (child (nodes[(Ref.val r).toNat]'(Ref.val r).isLt) b) p t' f info) :
    defectAt nodes (d + 1) r (b :: p) t' f info := by
  have hfollow : follow nodes r (b :: p) = follow nodes (child (nodes[(Ref.val r).toNat]'(Ref.val r).isLt) b) p := by
    simp [follow, hl, hv]
  rcases h with ⟨rfl, r', h2, h3⟩ | ⟨rfl, h2, h3⟩ | ⟨rfl, r', h2, h3, h4, h5, h6⟩
  · exact .inl ⟨rfl, r', hfollow.trans h2, h3⟩
  · exact .inr (.inl ⟨rfl, (leafAt_node hl hv).2 ⟨_, _, rfl, h2⟩, h3⟩)
  · exact .inr (.inr ⟨rfl, r', hfollow.trans h2, h3, h4, by simp [h5], h6⟩)

/-- A traversal that faults stopped at one place `p`, at most the levels left deep: the entries added are exactly the leaves to the left of `p`, every
internal ref to the left of `p` names a valid entry less deep than the levels left, and at `p` is the defect the fault
names (R161, R162, R169, R197). -/
theorem visit_some {nodes : Nodes} {d : Nat} {r : Ref} {path : Path} {t t' : Tbl} {f : JobFault} {info : BitVec 9}
    (h : visit nodes d r path t = (some (f, info), t')) :
    ∃ p, p.length ≤ d ∧
      (∀ k q, holdsPath t' k q ↔
        holdsPath t k q ∨ ∃ p', q = path ++ p' ∧ leafAt nodes r p' k ∧ leftOf p' p = true ∧ k.toNat < 257)
      ∧ (∀ q r', follow nodes r q = some r' → leftOf q p = true → Ref.isLeaf r' = false →
          (nodes[(Ref.val r').toNat]'(Ref.val r').isLt).v = true ∧ q.length < d)
      ∧ defectAt nodes d r p t' f info := by
  have here : ∀ {d : Nat} {r : Ref} {path : Path} {t : Tbl} {f : JobFault} {info : BitVec 9},
      defectAt nodes d r [] t f info → ∃ p, p.length ≤ d ∧
        (∀ k q, holdsPath t k q ↔
          holdsPath t k q ∨ ∃ p', q = path ++ p' ∧ leafAt nodes r p' k ∧ leftOf p' p = true ∧ k.toNat < 257)
        ∧ (∀ q r', follow nodes r q = some r' → leftOf q p = true → Ref.isLeaf r' = false →
            (nodes[(Ref.val r').toNat]'(Ref.val r').isLt).v = true ∧ q.length < d)
        ∧ defectAt nodes d r p t f info :=
    fun hd => ⟨[], Nat.zero_le _, by simp, by simp, hd⟩
  induction d generalizing r path t t' with
  | zero =>
    cases hl : Ref.isLeaf r with
    | true =>
      rw [visit_leaf nodes 0 hl] at h
      split at h
      · rename_i he
        simp only [Prod.mk.injEq, Option.some.injEq] at h
        obtain ⟨⟨rfl, rfl⟩, rfl⟩ := h
        exact here (.inr (.inl ⟨rfl, (leafAt_leaf hl).2 ⟨rfl, rfl⟩, (hasEntry_iff_holdsPath _ _).1 he⟩))
      · simp at h
    | false =>
      cases hv : (nodes[(Ref.val r).toNat]'(Ref.val r).isLt).v with
      | false =>
        rw [visit_badnode nodes 0 hl hv] at h
        simp only [Prod.mk.injEq, Option.some.injEq] at h
        obtain ⟨⟨rfl, rfl⟩, rfl⟩ := h
        exact here (.inl ⟨rfl, r, rfl, hl, hv, rfl⟩)
      | true =>
        rw [visit_depth nodes hl hv] at h
        simp only [Prod.mk.injEq, Option.some.injEq] at h
        obtain ⟨⟨rfl, rfl⟩, rfl⟩ := h
        exact here (.inr (.inr ⟨rfl, r, rfl, hl, hv, rfl, rfl⟩))
  | succ d ih =>
    cases hl : Ref.isLeaf r with
    | true =>
      rw [visit_leaf nodes (d + 1) hl] at h
      split at h
      · rename_i he
        simp only [Prod.mk.injEq, Option.some.injEq] at h
        obtain ⟨⟨rfl, rfl⟩, rfl⟩ := h
        exact here (.inr (.inl ⟨rfl, (leafAt_leaf hl).2 ⟨rfl, rfl⟩, (hasEntry_iff_holdsPath _ _).1 he⟩))
      · simp at h
    | false =>
      cases hv : (nodes[(Ref.val r).toNat]'(Ref.val r).isLt).v with
      | false =>
        rw [visit_badnode nodes (d + 1) hl hv] at h
        simp only [Prod.mk.injEq, Option.some.injEq] at h
        obtain ⟨⟨rfl, rfl⟩, rfl⟩ := h
        exact here (.inl ⟨rfl, r, rfl, hl, hv, rfl⟩)
      | true =>
        have hfollow : ∀ b q, follow nodes r (b :: q)
            = follow nodes (child (nodes[(Ref.val r).toNat]'(Ref.val r).isLt) b) q := by
          intro b q; simp [follow, hl, hv]
        rw [visit_node nodes d hl hv] at h
        split at h
        · rename_i f1 t1 h1
          obtain ⟨hf1, rfl⟩ := Prod.mk.inj h
          cases hf1
          obtain ⟨p, hp, a, c, hd⟩ := ih h1
          refine ⟨false :: p, Nat.succ_le_succ hp, fun k q => ?_, fun q r' hf hq hr => ?_, defectAt_node hl hv false hd⟩
          · rw [a]
            constructor
            · rintro (h0 | ⟨p', rfl, h2, h3, h4⟩)
              · exact .inl h0
              · exact .inr ⟨false :: p', by simp, (leafAt_node hl hv).2 ⟨_, _, rfl, h2⟩, by simpa using h3, h4⟩
            · rintro (h0 | ⟨p', rfl, h2, h3, h4⟩)
              · exact .inl h0
              · obtain ⟨b, q, rfl, h5⟩ := (leafAt_node hl hv).1 h2
                cases b with
                | false => exact .inr ⟨q, by simp, h5, by simpa using h3, h4⟩
                | true => simp at h3
          · match q, hq with
            | false :: q, hq => simpa using c q r' (hfollow false q ▸ hf) (by simpa using hq) hr
        · rename_i t1 h1
          obtain ⟨a1, c1⟩ := visit_none h1
          obtain ⟨p, hp, a, c, hd⟩ := ih h
          refine ⟨true :: p, Nat.succ_le_succ hp, fun k q => ?_, fun q r' hf hq hr => ?_, defectAt_node hl hv true hd⟩
          · rw [a, a1]
            constructor
            · rintro ((h0 | ⟨p', rfl, h2, h4⟩) | ⟨p', rfl, h2, h3, h4⟩)
              · exact .inl h0
              · exact .inr ⟨false :: p', by simp, (leafAt_node hl hv).2 ⟨_, _, rfl, h2⟩, by simp, h4⟩
              · exact .inr ⟨true :: p', by simp, (leafAt_node hl hv).2 ⟨_, _, rfl, h2⟩, by simpa using h3, h4⟩
            · rintro (h0 | ⟨p', rfl, h2, h3, h4⟩)
              · exact .inl (.inl h0)
              · obtain ⟨b, q, rfl, h5⟩ := (leafAt_node hl hv).1 h2
                cases b with
                | false => exact .inl (.inr ⟨q, by simp, h5, h4⟩)
                | true => exact .inr ⟨q, by simp, h5, by simpa using h3, h4⟩
          · match q, hq with
            | false :: q, hq => simpa using (c1 q r' (hfollow false q ▸ hf)).2 hr
            | true :: q, hq => simpa using c q r' (hfollow true q ▸ hf) (by simpa using hq) hr

/-- No traversal records a path longer than the place it starts at plus the levels left (R166). -/
theorem visit_len {nodes : Nodes} {d n : Nat} {r : Ref} {path : Path} {t : Tbl} (hp : path.length + d ≤ n)
    (ht : ∀ k e, entryOf t k = some e → e.len ≤ n) :
    ∀ k e, entryOf (visit nodes d r path t).2 k = some e → e.len ≤ n := by
  have hrec : path.length ≤ n → ∀ k e, entryOf (recordEntry t (Ref.sym r) path) k = some e → e.len ≤ n := by
    intro hn k e he
    rw [entryOf_recordEntry] at he
    split at he
    · simp only [Option.some.injEq] at he
      subst he
      exact hn
    · exact ht k e he
  induction d generalizing r path t with
  | zero =>
    cases hl : Ref.isLeaf r with
    | true =>
      rw [visit_leaf nodes 0 hl]
      split
      · exact ht
      · exact hrec (by omega)
    | false =>
      cases hv : (nodes[(Ref.val r).toNat]'(Ref.val r).isLt).v with
      | false => rw [visit_badnode nodes 0 hl hv]; exact ht
      | true => rw [visit_depth nodes hl hv]; exact ht
  | succ d ih =>
    cases hl : Ref.isLeaf r with
    | true =>
      rw [visit_leaf nodes (d + 1) hl]
      split
      · exact ht
      · exact hrec (by omega)
    | false =>
      cases hv : (nodes[(Ref.val r).toNat]'(Ref.val r).isLt).v with
      | false => rw [visit_badnode nodes (d + 1) hl hv]; exact ht
      | true =>
        have hrec' : ∀ {r : Ref} {path : Path} {t : Tbl}, (∀ k e, entryOf t k = some e → e.len ≤ n) →
            path.length ≤ n → ∀ k e, entryOf (recordEntry t (Ref.sym r) path) k = some e → e.len ≤ n := by
          intro r path t ht hn k e he
          rw [entryOf_recordEntry] at he
          split at he
          · simp only [Option.some.injEq] at he
            subst he
            exact hn
          · exact ht k e he
        have step : ∀ {r : Ref} {path : Path} {t : Tbl}, path.length + d ≤ n →
            (∀ k e, entryOf t k = some e → e.len ≤ n) →
            ∀ k e, entryOf (visit nodes d r path t).2 k = some e → e.len ≤ n :=
          fun hp ht => ih hp ht (hrec' ht)
        rw [visit_node nodes d hl hv]
        split
        · rename_i t1 h1
          have := step (r := child (nodes[(Ref.val r).toNat]'(Ref.val r).isLt) false) (path := path ++ [false])
            (by simp; omega) ht
          rw [h1] at this
          exact this
        · rename_i t1 h1
          have := step (r := child (nodes[(Ref.val r).toNat]'(Ref.val r).isLt) false) (path := path ++ [false])
            (by simp; omega) ht
          rw [h1] at this
          exact step (by simp; omega) this

end Sys2Proof.Machine
end

