-- ==== Sys2Proof/Laws/Encoding.lean ====
section
/-! SUPPORT. The fields of a packed word (30_encoding.md R90, R100): reading a field of a concatenation, and putting the
fields of a word together again. -/

namespace Sys2Proof

/-- A field that lies in the upper part of a concatenation. -/
theorem extract_append_high {h n : Nat} (a : BitVec h) (b : BitVec n) (len lo : Nat) :
    (a ++ b).extractLsb' (n + lo) len = a.extractLsb' lo len := by
  ext j hj
  simp only [BitVec.getElem_extractLsb', BitVec.getLsbD_append]
  rw [if_neg (by omega), show n + lo + j - n = lo + j by omega]

/-- A field that lies in the lower part of a concatenation. -/
theorem extract_append_low {h n : Nat} (a : BitVec h) (b : BitVec n) (len lo : Nat) (hl : lo + len ≤ n) :
    (a ++ b).extractLsb' lo len = b.extractLsb' lo len := by
  ext j hj
  simp only [BitVec.getElem_extractLsb', BitVec.getLsbD_append]
  rw [if_pos (by omega)]

theorem extract_all {n : Nat} (a : BitVec n) : a.extractLsb' 0 n = a := by
  ext j hj
  simp

/-- Two adjacent fields of a word are one field (R100). -/
theorem extract_split {n : Nat} (w : BitVec n) (lo a b : Nat) :
    w.extractLsb' (lo + b) a ++ w.extractLsb' lo b = w.extractLsb' lo (a + b) := by
  ext j hj
  simp only [BitVec.getElem_extractLsb', BitVec.getElem_append]
  split
  · rfl
  · rw [show lo + b + (j - b) = lo + j by omega]

/-- `OP` and the rest of a word. -/
theorem op_append (op : BitVec 4) (rest : BitVec 28) : Word.op (op ++ rest) = op :=
  (extract_append_high op rest 4 0).trans (extract_all op)

/-- The fields of a format N word (R90, R100). -/
theorem fields_formatN (op : BitVec 4) (idx : Byte) (left right : Ref) :
    Word.op (op ++ idx ++ left ++ right) = op ∧ Word.idx (op ++ idx ++ left ++ right) = idx
      ∧ Word.left (op ++ idx ++ left ++ right) = left ∧ Word.right (op ++ idx ++ left ++ right) = right := by
  refine ⟨?_, ?_, ?_, ?_⟩
  · exact ((extract_append_high (op ++ idx ++ left) right 4 18).trans
      (extract_append_high (op ++ idx) left 4 8)).trans ((extract_append_high op idx 4 0).trans (extract_all op))
  · exact ((extract_append_high (op ++ idx ++ left) right 8 10).trans
      (extract_append_high (op ++ idx) left 8 0)).trans ((extract_append_low op idx 8 0 (by decide)).trans (extract_all idx))
  · exact (extract_append_high (op ++ idx ++ left) right 10 0).trans
      ((extract_append_low (op ++ idx) left 10 0 (by decide)).trans (extract_all left))
  · exact (extract_append_low (op ++ idx ++ left) right 10 0 (by decide)).trans (extract_all right)

/-- The fields of a format R word (R90, R100). -/
theorem fields_formatR (op : BitVec 4) (zero : BitVec 18) (ref : Ref) :
    Word.op (op ++ zero ++ ref) = op ∧ (op ++ zero ++ ref).extractLsb' 10 18 = zero
      ∧ Word.right (op ++ zero ++ ref) = ref := by
  refine ⟨?_, ?_, ?_⟩
  · exact (extract_append_high (op ++ zero) ref 4 18).trans ((extract_append_high op zero 4 0).trans (extract_all op))
  · exact (extract_append_high (op ++ zero) ref 18 0).trans
      ((extract_append_low op zero 18 0 (by decide)).trans (extract_all zero))
  · exact (extract_append_low (op ++ zero) ref 10 0 (by decide)).trans (extract_all ref)

/-- The fields of a format A word (R90, R100). -/
theorem fields_formatA (op : BitVec 4) (zero : BitVec 12) (addr : RegAddr) :
    Word.op (op ++ zero ++ addr) = op ∧ (op ++ zero ++ addr).extractLsb' 16 12 = zero
      ∧ Word.addr (op ++ zero ++ addr) = addr := by
  refine ⟨?_, ?_, ?_⟩
  · exact (extract_append_high (op ++ zero) addr 4 12).trans ((extract_append_high op zero 4 0).trans (extract_all op))
  · exact (extract_append_high (op ++ zero) addr 12 0).trans
      ((extract_append_low op zero 12 0 (by decide)).trans (extract_all zero))
  · exact (extract_append_low (op ++ zero) addr 16 0 (by decide)).trans (extract_all addr)

/-- A word is its format N fields put together (R100). -/
theorem word_formatN (w : Word) : w.op ++ w.idx ++ w.left ++ w.right = w := by
  have h1 : w.op ++ w.idx = w.extractLsb' 20 12 := extract_split w 20 4 8
  have h2 : w.extractLsb' 20 12 ++ w.left = w.extractLsb' 10 22 := extract_split w 10 12 10
  have h3 : w.extractLsb' 10 22 ++ w.right = w.extractLsb' 0 32 := extract_split w 0 22 10
  rw [h1, h2, h3]
  exact extract_all w

/-- A word is `OP`, bits 27:10 and `REF` put together (R100). -/
theorem word_formatR (w : Word) : w.op ++ w.extractLsb' 10 18 ++ w.right = w := by
  have h1 : w.op ++ w.extractLsb' 10 18 = w.extractLsb' 10 22 := extract_split w 10 4 18
  have h2 : w.extractLsb' 10 22 ++ w.right = w.extractLsb' 0 32 := extract_split w 0 22 10
  rw [h1, h2]
  exact extract_all w

/-- A word is `OP`, bits 27:16 and `ADDR` put together (R100). -/
theorem word_formatA (w : Word) : w.op ++ w.extractLsb' 16 12 ++ w.addr = w := by
  have h1 : w.op ++ w.extractLsb' 16 12 = w.extractLsb' 16 16 := extract_split w 16 4 12
  have h2 : w.extractLsb' 16 16 ++ w.addr = w.extractLsb' 0 32 := extract_split w 0 16 16
  rw [h1, h2]
  exact extract_all w

/-- A word is `OP` and bits 27:0 put together (R106). -/
theorem word_formatZ (w : Word) : w.op ++ w.extractLsb' 0 28 = w := by
  have h1 : w.op ++ w.extractLsb' 0 28 = w.extractLsb' 0 32 := extract_split w 0 4 28
  rw [h1]
  exact extract_all w

/-! ### Tokens (R98) -/

theorem token_parts (t : Token) : t.isEnd = true ∧ t = Token.endWith t.payload ∨ t.isEnd = false ∧ t = Token.data t.payload := by
  cases h : t.isEnd with
  | true =>
    refine .inl ⟨rfl, ?_⟩
    ext j hj
    rw [Token.isEnd] at h
    simp only [Token.endWith, Token.payload, BitVec.getElem_or, BitVec.getElem_setWidth, BitVec.getLsbD_setWidth]
    by_cases h8 : j = 8
    · subst h8; simpa using h
    · have : j < 8 := by omega
      rw [show (0x100#9 : BitVec 9)[j] = false from by
        rw [← BitVec.getLsbD_eq_getElem, show (0x100#9 : BitVec 9) = BitVec.twoPow 9 8 from rfl, BitVec.getLsbD_twoPow]
        simp [Ne.symm h8]]
      simp [this, BitVec.getLsbD_eq_getElem hj]
  | false =>
    refine .inr ⟨rfl, ?_⟩
    ext j hj
    rw [Token.isEnd] at h
    simp only [Token.data, Token.payload, BitVec.getElem_setWidth, BitVec.getLsbD_setWidth]
    by_cases h8 : j = 8
    · subst h8; simpa using h
    · have : j < 8 := by omega
      simp [this, BitVec.getLsbD_eq_getElem hj]

theorem isEnd_data (b : Byte) : (Token.data b).isEnd = false := by
  simp [Token.isEnd, Token.data]

theorem payload_data (b : Byte) : (Token.data b).payload = b := by
  simp [Token.payload, Token.data]

theorem isEnd_endWith (d : Byte) : (Token.endWith d).isEnd = true := by
  simp [Token.isEnd, Token.endWith]

theorem payload_endWith (d : Byte) : (Token.endWith d).payload = d := by
  ext j hj
  simp only [Token.payload, Token.endWith, BitVec.getElem_setWidth, BitVec.getLsbD_or, BitVec.getLsbD_setWidth]
  rw [show (0x100#9 : BitVec 9) = BitVec.twoPow 9 8 from rfl, BitVec.getLsbD_twoPow]
  simp [show (8 : Nat) ≠ j by omega, BitVec.getLsbD_eq_getElem hj]
  omega

end Sys2Proof
end

