-- ==== Sys2Proof/Laws/PerInstr.lean ====
section
/-! SUPPORT. Statements made per instruction. `TableRow`: the encoder's word of an instruction lies in that instruction's row
of the opcode map, on the channel the row is for (30_encoding.md R91, R98). -/

namespace Sys2Proof.Laws

/-- A row of the opcode map for command words: its mask and match (R91). -/
def cmdRow (mask mtch : Word) (o : Offer) : Prop := ∃ w, o = .cmd w ∧ w &&& mask = mtch

/-- A token row of `enc_in`: the end flag, mask 0x100 (R98). -/
def encRow (mtch : Token) (o : Offer) : Prop := ∃ t, o = .encIn t ∧ t &&& 0x100#9 = mtch

/-- A token row of `dec_in`: the end flag, mask 0x100 (R98). -/
def decRow (mtch : Token) (o : Offer) : Prop := ∃ t, o = .decIn t ∧ t &&& 0x100#9 = mtch

/-- The word the encoder gives for `i` matches the row of `i`. -/
def TableRow.Statement (i : Instr) : Prop :=
  match i with
  | .nop => cmdRow 0xFFFFFFFF#32 0x00000000#32 (encode i)
  | .setroot _ => cmdRow 0xFFFFFC00#32 0x10000000#32 (encode i)
  | .ldnode _ _ _ => cmdRow 0xF0000000#32 0x20000000#32 (encode i)
  | .clrtree => cmdRow 0xFFFFFFFF#32 0x30000000#32 (encode i)
  | .encStart => cmdRow 0xFFFFFFFF#32 0x40000000#32 (encode i)
  | .decStart => cmdRow 0xFFFFFFFF#32 0x50000000#32 (encode i)
  | .abort => cmdRow 0xFFFFFFFF#32 0x60000000#32 (encode i)
  | .clrerr => cmdRow 0xFFFFFFFF#32 0x70000000#32 (encode i)
  | .rdreg _ => cmdRow 0xFFFF0000#32 0x80000000#32 (encode i)
  | .encInData _ => encRow 0x000#9 (encode i)
  | .encInEnd _ => encRow 0x100#9 (encode i)
  | .decInData _ => decRow 0x000#9 (encode i)
  | .decInEnd _ => decRow 0x100#9 (encode i)

/-- The fields below the four opcode bits do not reach them. -/
theorem and_fixed_high {n m : Nat} (hi mask : BitVec n) (lo : BitVec m) :
    (hi ++ lo) &&& (mask ++ 0#m) = (hi &&& mask) ++ 0#m := by
  rw [BitVec.and_append, BitVec.and_zero]

theorem data_end_bit (b : Byte) : Token.data b &&& 0x100#9 = 0x000#9 := by
  ext j hj
  simp only [Token.data, BitVec.getElem_and, BitVec.getElem_setWidth, BitVec.getElem_zero, Bool.and_eq_false_iff]
  by_cases h8 : j = 8
  · subst h8; exact .inl (BitVec.getLsbD_of_ge b 8 (by omega))
  · right
    rw [← BitVec.getLsbD_eq_getElem, show (0x100#9 : BitVec 9) = BitVec.twoPow 9 8 from rfl, BitVec.getLsbD_twoPow]
    simp [Ne.symm h8]

theorem end_end_bit (d : Byte) : Token.endWith d &&& 0x100#9 = 0x100#9 := by
  have h : (0x100#9 ||| d.setWidth 9) &&& 0x100#9 = 0x100#9 ||| (Token.data d &&& 0x100#9) := by
    rw [BitVec.and_comm, BitVec.and_or_distrib_left, BitVec.and_self, BitVec.and_comm]
    rfl
  rw [Token.endWith, h, data_end_bit]
  rfl

theorem TableRow.nop : TableRow.Statement .nop := ⟨_, rfl, by decide⟩

theorem TableRow.setroot (ref : Ref) : TableRow.Statement (.setroot ref) :=
  ⟨_, rfl, and_fixed_high (0x1#4 ++ 0#18) 0x3FFFFF#22 ref⟩

theorem TableRow.ldnode (idx : Byte) (left right : Ref) : TableRow.Statement (.ldnode idx left right) := by
  refine ⟨_, rfl, ?_⟩
  have h := and_fixed_high (0x2#4 ++ idx ++ left) (0xF#4 ++ 0#8 ++ 0#10) right
  rw [and_fixed_high (0x2#4 ++ idx) (0xF#4 ++ 0#8) left, and_fixed_high 0x2#4 0xF#4 idx] at h
  exact h

theorem TableRow.clrtree : TableRow.Statement .clrtree := ⟨_, rfl, by decide⟩
theorem TableRow.encStart : TableRow.Statement .encStart := ⟨_, rfl, by decide⟩
theorem TableRow.decStart : TableRow.Statement .decStart := ⟨_, rfl, by decide⟩
theorem TableRow.abort : TableRow.Statement .abort := ⟨_, rfl, by decide⟩
theorem TableRow.clrerr : TableRow.Statement .clrerr := ⟨_, rfl, by decide⟩

theorem TableRow.rdreg (addr : RegAddr) : TableRow.Statement (.rdreg addr) :=
  ⟨_, rfl, and_fixed_high (0x8#4 ++ 0#12) 0xFFFF#16 addr⟩

theorem TableRow.encInData (b : Byte) : TableRow.Statement (.encInData b) := ⟨_, rfl, data_end_bit b⟩
theorem TableRow.encInEnd (d : Byte) : TableRow.Statement (.encInEnd d) := ⟨_, rfl, end_end_bit d⟩
theorem TableRow.decInData (b : Byte) : TableRow.Statement (.decInData b) := ⟨_, rfl, data_end_bit b⟩
theorem TableRow.decInEnd (d : Byte) : TableRow.Statement (.decInEnd d) := ⟨_, rfl, end_end_bit d⟩

end Sys2Proof.Laws
end

