-- ==== Sys2Proof/Laws/Step.lean ====
section
/-! SUPPORT. Everything a step can do, said once: whose turn it is, what the turn comes to, and what running an instruction
answers. -/

namespace Sys2Proof.Machine

/-- Choosing the next mover touches the run's parameters only. -/
theorem nextTurn_state (s : State) : ∃ ts n, (nextTurn s).2 = { s with turns := ts, tick := n } := by
  unfold nextTurn
  cases h : s.turns with
  | cons t rest => exact ⟨rest, s.tick, rfl⟩
  | nil =>
    cases channelReady s <;> cases engineReady s
    · exact ⟨s.turns, s.tick, rfl⟩
    · exact ⟨s.turns, s.tick, rfl⟩
    · exact ⟨s.turns, s.tick, rfl⟩
    · exact ⟨[], s.tick + 1, rfl⟩

theorem nextTurn_given {s : State} {t : Turn} {ts : List Turn} (h : s.turns = t :: ts) :
    nextTurn s = (some t, { s with turns := ts }) := by
  simp [nextTurn, h]

theorem step_given {s : State} {t : Turn} {ts : List Turn} (h : s.turns = t :: ts) :
    step s = runFetched (takeTurn t { s with turns := ts }) := by
  simp [step, fetch, nextTurn_given h]

/-- The encoder's registers, `TBL`, `JOB` and `enc_in` decide its step; the run's parameters do not. -/
theorem encAction_turns (s : State) (ts : List Turn) (n : Nat) :
    encAction { s with turns := ts, tick := n } = encAction s := rfl

theorem decAction_turns (s : State) (ts : List Turn) (n : Nat) :
    decAction { s with turns := ts, tick := n } = decAction s := rfl

/-- The states a step can lead to from `u`, the state with the turn used up (R17). -/
inductive Moved (s u : State) : State → Prop where
  /-- Nobody moves, or the agent whose turn it is has no enabled step. -/
  | pass : Moved s u u
  /-- A reserved word is taken and rejected. -/
  | illcmd (h : (nextTurn s).1 = some .command) : Moved s u (reject .illcmd (takeCmd u))
  /-- A command runs. -/
  | command (h : (nextTurn s).1 = some .command) (i : Instr) (hf : fetch s = .instr i (takeCmd u)) {t : State}
      (he : exec i (takeCmd u) = .next t) (hc : ∃ w ws, u.ports.cmd = w :: ws ∧ decodeCmd w = .ok i) : Moved s u t
  /-- The response is transferred. -/
  | response (h : (nextTurn s).1 = some .response) (hv : u.rsp.v = true) : Moved s u (sendResponse u)
  /-- An encoder token runs. -/
  | encToken (h : (nextTurn s).1 = some .encoder) (tok : Token) (toks : List Token) (ht : u.ports.encIn = tok :: toks)
      (ha : encAction u = some .token) (hf : fetch s = .instr (decodeEncIn tok) u) {t : State}
      (he : exec (decodeEncIn tok) u = .next t) : Moved s u t
  /-- ENC-SHIFT. -/
  | encShift (h : (nextTurn s).1 = some .encoder) (bit : Bool) (ha : encAction u = some (.shift bit)) :
      Moved s u (encShift bit u)
  /-- ENC-NEXT. -/
  | encNext (h : (nextTurn s).1 = some .encoder) (ha : encAction u = some .next) : Moved s u (encNext u)
  /-- ENC-BYTE. -/
  | encByte (h : (nextTurn s).1 = some .encoder) (ha : encAction u = some .byte) : Moved s u (encByte u)
  /-- ENC-PAD. -/
  | encPad (h : (nextTurn s).1 = some .encoder) (ha : encAction u = some .pad) : Moved s u (encPad u)
  /-- ENC-END. -/
  | encEnd (h : (nextTurn s).1 = some .encoder) (ha : encAction u = some .fin) : Moved s u (encEnd u)
  /-- A decoder token runs. -/
  | decToken (h : (nextTurn s).1 = some .decoder) (tok : Token) (toks : List Token) (ht : u.ports.decIn = tok :: toks)
      (ha : decAction u = some .token) (hf : fetch s = .instr (decodeDecIn tok) u) {t : State}
      (he : exec (decodeDecIn tok) u = .next t) : Moved s u t
  /-- DEC-BIT. -/
  | decBit (h : (nextTurn s).1 = some .decoder) (ha : decAction u = some .bit) : Moved s u (decBit u)
  /-- DEC-EMIT. -/
  | decEmit (h : (nextTurn s).1 = some .decoder) (ha : decAction u = some .emit) : Moved s u (decEmit u)
  /-- DEC-FIN. -/
  | decFin (h : (nextTurn s).1 = some .decoder) (ha : decAction u = some .fin) : Moved s u (decFin u)
  /-- Reset. -/
  | reset (h : (nextTurn s).1 = some .reset) : Moved s u (resetEvent u)
  /-- The host offers an item. -/
  | offer (o : Offer)
      (h : (nextTurn s).1 = some (match o with
        | .cmd w => .offerCmd w | .encIn t => .offerEncIn t | .decIn t => .offerDecIn t)) :
      Moved s u (offer o u)

/-- Inversion of a step: if it answers `t`, then one of the moves above leads there. -/
theorem step_cases {s t : State} (h : step s = .next t) : Moved s (nextTurn s).2 t := by
  have hf : fetch s = (match (nextTurn s).1 with
      | some m => takeTurn m (nextTurn s).2
      | none => .done (.next (nextTurn s).2)) := by
    unfold fetch
    rcases nextTurn s with ⟨_ | m, u⟩ <;> rfl
  generalize hu : (nextTurn s).2 = u at hf
  unfold step at h
  cases hm : (nextTurn s).1 with
  | none =>
    rw [hf, hm] at h
    cases h
    exact .pass
  | some m =>
    rw [hm] at hf
    simp only at hf
    cases m with
    | command =>
      simp only [takeTurn, commandTurn] at hf
      split at hf
      · rw [hf] at h; cases h; exact .pass
      · split at hf
        · rw [hf] at h; cases h; exact .pass
        · rename_i w ws hc
          split at hf
          · rw [hf] at h; cases h; exact .illcmd hm
          · rename_i i hd
            rw [hf] at h
            exact .command hm i hf h ⟨w, ws, hc, hd⟩
    | response =>
      simp only [takeTurn, responseTurn] at hf
      rw [hf] at h
      cases h
      split
      · rename_i hv
        exact .response hm hv
      · exact .pass
    | encoder =>
      simp only [takeTurn, encoderTurn] at hf
      split at hf
      · rw [hf] at h; cases h; exact .pass
      · rename_i ha
        split at hf
        · rw [hf] at h; cases h; exact .pass
        · rename_i tok toks ht
          rw [hf] at h
          exact .encToken hm tok toks ht ha hf h
      · rename_i b ha; rw [hf] at h; cases h; exact .encShift hm b ha
      · rename_i ha; rw [hf] at h; cases h; exact .encNext hm ha
      · rename_i ha; rw [hf] at h; cases h; exact .encByte hm ha
      · rename_i ha; rw [hf] at h; cases h; exact .encPad hm ha
      · rename_i ha; rw [hf] at h; cases h; exact .encEnd hm ha
      · rw [hf] at h; cases h
    | decoder =>
      simp only [takeTurn, decoderTurn] at hf
      split at hf
      · rw [hf] at h; cases h; exact .pass
      · rename_i ha
        split at hf
        · rw [hf] at h; cases h; exact .pass
        · rename_i tok toks ht
          rw [hf] at h
          exact .decToken hm tok toks ht ha hf h
      · rename_i ha; rw [hf] at h; cases h; exact .decBit hm ha
      · rename_i ha; rw [hf] at h; cases h; exact .decEmit hm ha
      · rename_i ha; rw [hf] at h; cases h; exact .decFin hm ha
    | reset => simp only [takeTurn] at hf; rw [hf] at h; cases h; exact .reset hm
    | offerCmd w => simp only [takeTurn] at hf; rw [hf] at h; cases h; exact .offer (.cmd w) hm
    | offerEncIn w => simp only [takeTurn] at hf; rw [hf] at h; cases h; exact .offer (.encIn w) hm
    | offerDecIn w => simp only [takeTurn] at hf; rw [hf] at h; cases h; exact .offer (.decIn w) hm

/-- When an encoder step is enabled, by step: what its guard says of the state (R171 to R177). -/
theorem encAction_some {s : State} {a : EncAct} (h : encAction s = some a) :
    s.job = .enc ∧ match a with
      | .token => s.enc.phase = .wait ∧ s.enc.nb < 8#4 ∧ s.ports.encIn ≠ []
      | .shift bit => s.enc.phase = .shift ∧ s.enc.nb < 8#4 ∧ ∃ e, s.entry s.enc.psym = some e
          ∧ s.enc.pidx.toNat < e.len ∧ bit = e.path.getD s.enc.pidx.toNat false
      | .next => s.enc.phase = .shift ∧ s.enc.nb < 8#4 ∧ ∃ e, s.entry s.enc.psym = some e
          ∧ s.enc.pidx.toNat = e.len
      | .byte => s.enc.nb = 8#4
      | .pad => s.enc.phase = .pad ∧ s.enc.nb < 8#4
      | .fin => s.enc.phase = .fin ∧ s.enc.nb ≠ 8#4
      | .noEntry => s.enc.phase = .shift ∧ s.entry s.enc.psym = none := by
  unfold encAction encShiftAct encTakesToken at h
  split at h
  · cases h
  · rename_i hj
    refine ⟨by simpa using hj, ?_⟩
    split at h
    · cases h; assumption
    · split at h
      · rename_i hp
        split at h
        · cases h; simp_all
        · cases h
      · rename_i hp
        split at h
        · split at h
          · cases h; simp_all
          · rename_i e he
            split at h
            · cases h; exact ⟨hp, by assumption, e, he, by assumption, rfl⟩
            · split at h
              · cases h; exact ⟨hp, by assumption, e, he, by assumption⟩
              · cases h
        · cases h
      · split at h
        · cases h; simp_all
        · cases h
      · cases h; simp_all

/-- When a decoder step is enabled, by step: what its guard says of the state (R143 to R148). -/
theorem decAction_some {s : State} {a : DecAct} (h : decAction s = some a) :
    s.job = .dec ∧ match a with
      | .token => ((s.dec.phase = .walk ∧ s.dec.bn = 0#4) ∨ s.dec.phase = .drain) ∧ s.ports.decIn ≠ []
      | .bit => s.dec.phase = .walk ∧ s.dec.bn ≠ 0#4
      | .emit => s.dec.phase = .emit
      | .fin => s.dec.phase = .fin := by
  unfold decAction at h
  split at h
  · cases h
  · rename_i hj
    refine ⟨by simpa using hj, ?_⟩
    split at h
    · split at h
      · split at h
        · cases h
        · cases h; simp_all
      · cases h; simp_all
    · cases h; assumption
    · cases h; assumption
    · split at h
      · cases h
      · cases h; simp_all

/-- Where an instruction that a step runs comes from: the command channel on the command unit's turn, an input stream on
its engine's turn (R126, R171, R143). -/
theorem fetch_instr {s u : State} {i : Instr} (h : fetch s = .instr i u) :
    ((nextTurn s).1 = some .command ∧ ∃ w, decodeCmd w = .ok i)
      ∨ ((nextTurn s).1 = some .encoder ∧ ∃ t, i = decodeEncIn t)
      ∨ ((nextTurn s).1 = some .decoder ∧ ∃ t, i = decodeDecIn t) := by
  unfold fetch at h
  rcases hn : nextTurn s with ⟨m, v⟩
  rw [hn] at h
  cases m with
  | none => cases h
  | some m =>
    cases m <;> simp only [takeTurn, commandTurn, responseTurn, encoderTurn, decoderTurn] at h
    case command =>
      split at h
      · cases h
      · split at h
        · cases h
        · split at h
          · cases h
          · rename_i hd
            cases h
            exact .inl ⟨rfl, _, hd⟩
    case encoder =>
      split at h
      all_goals try cases h
      split at h
      · cases h
      · cases h
        exact .inr (.inl ⟨rfl, _, rfl⟩)
    case decoder =>
      split at h
      all_goals try cases h
      split at h
      · cases h
      · cases h
        exact .inr (.inr ⟨rfl, _, rfl⟩)
    all_goals cases h

/-- No step is enabled exactly when no response is pending, no command is offered and neither engine has a step (R230). -/
theorem quiescent_iff (s : State) :
    s.quiescent = true ↔ s.rsp.v = false ∧ s.ports.cmd = [] ∧ encAction s = none ∧ decAction s = none := by
  have hc : channelReady s = none ↔ s.rsp.v = false ∧ s.ports.cmd = [] := by
    unfold channelReady
    cases s.rsp.v <;> cases s.ports.cmd <;> simp
  have he : engineReady s = none ↔ encAction s = none ∧ decAction s = none := by
    unfold engineReady
    cases encAction s <;> cases decAction s <;> simp
  simp [State.quiescent, hc, he, and_assoc]

/-- `busy` (R42, R43). -/
theorem busyPin_iff (s : State) : busyPin s = true ↔ s.job = .enc ∨ s.job = .dec := by
  unfold busyPin
  cases s.job <;> simp

end Sys2Proof.Machine
end

