-- ==== Sys2Proof/Tests/Slice0.lean ====
section
/-! SUPPORT. The model's own tests. Expected results are the spec's: spec/95_test_vectors.md, or hand calculation from the rule
named. After them, for every obligation with hypotheses, a theorem that shows concrete states and operands that meet them. -/

namespace Sys2Proof.Tests

open Sys2Proof Sys2Proof.Machine

-- One theorem after the other: each kernel evaluation waits for all earlier declarations, and a thread each is too many.
set_option Elab.async false

/-! ### Helpers -/

/-- What `f` says of the next state. -/
def see {α : Type} (f : State → α) (o : Host.Outcome State Fault Refusal) : Option α :=
  match o with
  | .next t => some (f t)
  | .fault _ => none
  | .refused _ => none

theorem see_some {α : Type} {f : State → α} {o : Host.Outcome State Fault Refusal} {x : α} (h : see f o = some x) :
    ∃ t, o = .next t ∧ f t = x := by
  cases o with
  | next t => exact ⟨t, rfl, by simpa [see] using h⟩
  | fault _ => simp [see] at h
  | refused _ => simp [see] at h

/-- The scenario tree of spec/95_test_vectors.md, loaded after reset. -/
def scenario : State :=
  loadRoot 0x000#10 (loadNode 0x01#8 0x262#10 0x300#10 (loadNode 0x00#8 0x261#10 0x001#10 State.reset))

/-- Its code table (W1): `a` 0, `b` 10, end of stream 11. -/
def scenarioTbl : Tbl :=
  recordEntry (recordEntry (recordEntry State.reset.tbl 0x061#9 [false]) 0x062#9 [true, false]) 0x100#9 [true, true]

/-- The scenario tree and its table, with a job, engine registers, channels and turns of choice. -/
def world (j : Job) (e : EncRegs) (d : DecRegs) (p : Ports) (ts : List Turn) : State :=
  { scenario with job := j, tbl := scenarioTbl, enc := e, dec := d, ports := p, turns := ts }

def encAt (ph : EncPhase) (acc : Byte) (nb : BitVec 4) (pidx : BitVec 9) : EncRegs :=
  { phase := ph, acc := acc, nb := nb, psym := 0x062#9, pidx := pidx }

def decAt (ph : DecPhase) (cur : Ref) (sr : Byte) (bn : BitVec 4) : DecRegs :=
  { phase := ph, cur := cur, sr := sr, bn := bn, outb := 0x62#8 }

def enc0 : EncRegs := encAt .wait 0 0 0
def dec0 : DecRegs := decAt .walk 0 0 0

/-- The scenario tree in `IDLE`, nothing offered. -/
def idle : State := world .idle enc0 dec0 Ports.empty []

/-- A channel state: the words and tokens offered. -/
def offered (c : List Word) (e d : List Token) : Ports := { Ports.empty with cmd := c, encIn := e, decIn := d }

/-! ### Well-formedness (R96, R99 cases 5 and 6): each check refuses a term -/

theorem test_wellFormed_ok : Instr.wellFormed (.ldnode 0x00#8 0x261#10 0x001#10) = true := by decide
theorem test_illFormed_setroot : Instr.wellFormed (.setroot 0x100#10) = false := by decide
theorem test_illFormed_setroot_eof : Instr.wellFormed (.setroot 0x301#10) = false := by decide
theorem test_illFormed_ldnode_left : Instr.wellFormed (.ldnode 0x00#8 0x301#10 0x000#10) = false := by decide
theorem test_illFormed_ldnode_right : Instr.wellFormed (.ldnode 0x00#8 0x000#10 0x100#10) = false := by decide

/-! ### Decoding, one word a constructor (spec/95_test_vectors.md, R91, R98) -/

theorem test_decode_nop : decodeCmd 0x00000000#32 = .ok .nop := by decide +kernel
theorem test_decode_setroot : decodeCmd 0x10000241#32 = .ok (.setroot 0x241#10) := by decide +kernel
theorem test_decode_ldnode : decodeCmd 0x20198B00#32 = .ok (.ldnode 0x01#8 0x262#10 0x300#10) := by decide +kernel
theorem test_decode_clrtree : decodeCmd 0x30000000#32 = .ok .clrtree := by decide +kernel
theorem test_decode_encStart : decodeCmd 0x40000000#32 = .ok .encStart := by decide +kernel
theorem test_decode_decStart : decodeCmd 0x50000000#32 = .ok .decStart := by decide +kernel
theorem test_decode_abort : decodeCmd 0x60000000#32 = .ok .abort := by decide +kernel
theorem test_decode_clrerr : decodeCmd 0x70000000#32 = .ok .clrerr := by decide +kernel
theorem test_decode_rdreg : decodeCmd 0x80000B10#32 = .ok (.rdreg 0x0B10#16) := by decide +kernel
theorem test_decode_encInData : decode (.encIn 0x062#9) = .ok (.encInData 0x62#8) := by decide +kernel
theorem test_decode_encInEnd : decode (.encIn 0x1A5#9) = .ok (.encInEnd 0xA5#8) := by decide +kernel
theorem test_decode_decInData : decode (.decIn 0x058#9) = .ok (.decInData 0x58#8) := by decide +kernel
theorem test_decode_decInEnd : decode (.decIn 0x100#9) = .ok (.decInEnd 0x00#8) := by decide +kernel

/-- V6 to V16: the reserved words. -/
theorem test_decode_reserved :
    [0x90000000#32, 0xF0000000#32, 0x00000001#32, 0x40000100#32, 0x10000400#32, 0x10000100#32, 0x10000301#32,
      0x20040000#32, 0x200C0400#32, 0x20000100#32, 0x80010000#32].map (fun w => (decodeCmd w).toOption)
    = List.replicate 11 none := by decide +kernel

/-- The encoder writes the words of spec/95_test_vectors.md (V4, V2, V19h). -/
theorem test_encode :
    [encode (.ldnode 0xFF#8 0x0FF#10 0x2FF#10), encode (.setroot 0x300#10), encode (.rdreg 0x0B10#16)]
    = [.cmd 0x2FF3FEFF#32, .cmd 0x10000300#32, .cmd 0x80000B10#32] := by decide +kernel

/-- Words as the opcode table numbers them; a token row's word reads as a token on `enc_in` (log 5). -/
theorem test_decodeTableWord :
    (decodeTableWord 32 0x20098401, decodeTableWord 32 0x10000100, decodeTableWord 16 0x061, decodeTableWord 16 0x100)
    = (some (.ldnode 0x00#8 0x261#10 0x001#10), none, some (.encInData 0x61#8), some (.encInEnd 0x00#8)) := by
  decide +kernel

/-! ### One step an instruction -/

/-- V1. -/
theorem test_nop : see (fun t => (t.job, t.err, t.rsp.v, t.ports.cmd)) (step (State.reset.withFetchWord 32 0x00000000))
    = some (.idle, 0#10, false, []) := by decide +kernel

/-- V2. -/
theorem test_setroot : see (regRead 0x0003#16) (step (State.reset.withFetchWord 32 0x10000300))
    = some 0x80000300#32 := by decide +kernel

/-- V11: a reserved ref. -/
theorem test_setroot_reserved :
    see (fun t => (t.err, regRead 0x0003#16 t)) (step (State.reset.withFetchWord 32 0x10000100))
    = some (0x001#10, 0x00000000#32) := by decide +kernel

/-- V4. -/
theorem test_ldnode : see (regRead 0x01FF#16) (step (State.reset.withFetchWord 32 0x2FF3FEFF))
    = some 0x8003FEFF#32 := by decide +kernel

/-- V27b: untimely. -/
theorem test_ldnode_busy :
    see (fun t => (t.err, regRead 0x0102#16 t)) (exec (.ldnode 0x02#8 0x201#10 0x202#10) (world .enc enc0 dec0 Ports.empty []))
    = some (0x002#10, 0#32) := by decide +kernel

/-- R123: the store reads 0, the table is kept. -/
theorem test_clrtree :
    see (fun t => (regRead 0x0003#16 t, regRead 0x0100#16 t, regRead 0x0262#16 t)) (exec .clrtree idle)
    = some (0#32, 0#32, 0x80000002#32) := by decide +kernel

/-- V20 and V19d, V19h, V19i: the table of the scenario tree. -/
theorem test_encStart :
    see (fun t => (t.job, regRead 0x0262#16 t, regRead 0x0B10#16 t, regRead 0x1000#16 t, regRead 0x0263#16 t))
      (exec .encStart scenario)
    = some (.enc, 0x80000002#32, 0x00000001#32, 0x00000003#32, 0#32) := by decide +kernel

/-- V24d: a node that is its own left child. -/
theorem test_encStart_depth :
    see (fun t => (statusWord t, errWord t, faultWord t)) (exec .encStart (loadRoot 0x000#10 (loadNode 0x00#8 0x000#10 0x300#10 State.reset)))
    = some (3#32, 0x00000040#32, 0x00000004#32) := by decide +kernel

/-- V41: a root that is the end-of-stream leaf. -/
theorem test_decStart_eof :
    see (fun t => (t.job, t.dec.phase, t.err)) (exec .decStart (loadRoot 0x300#10 State.reset))
    = some (.dec, .fin, 0#10) := by decide +kernel

/-- V62: a root without its entry. -/
theorem test_decStart_badnode :
    see (fun t => (statusWord t, errWord t, faultWord t)) (exec .decStart (loadRoot 0x007#10 State.reset))
    = some (3#32, 0x00000010#32, 0x00070002#32) := by decide +kernel

/-- V66: `ABORT` leaves `ERR` and `FAULT`. -/
theorem test_abort :
    see (fun t => (statusWord t, errWord t, faultWord t)) (exec .abort (raise .trunc 0 idle))
    = some (0#32, 0x00000200#32, 0x00000007#32) := by decide +kernel

/-- V67: `CLRERR` leaves `JOB`. -/
theorem test_clrerr :
    see (fun t => (statusWord t, errWord t, faultWord t)) (exec .clrerr (raise .trunc 0 idle))
    = some (3#32, 0#32, 0#32) := by decide +kernel

/-- V19h. -/
theorem test_rdreg : see (fun t => (t.rsp, t.err)) (exec (.rdreg 0x0B10#16) idle)
    = some ({ v := true, data := 0x00000001#32 }, 0#10) := by decide +kernel

/-- V19l: just above `CLEN[256]`. -/
theorem test_rdreg_unmapped : see (fun t => (t.rsp, t.err)) (exec (.rdreg 0x0301#16) idle)
    = some ({ v := true, data := 0#32 }, 0x004#10) := by decide +kernel

/-- R171. -/
theorem test_encInData :
    see (fun t => (t.enc.psym, t.enc.pidx, t.enc.phase, t.ports.encIn))
      (exec (.encInData 0x61#8) (world .enc enc0 dec0 (offered [] [0x061#9, 0x100#9] []) []))
    = some (0x061#9, 0#9, .shift, [0x100#9]) := by decide +kernel

/-- V38: a byte without an entry. -/
theorem test_encInData_unksym :
    see (fun t => (statusWord t, errWord t, faultWord t, t.ports.encIn))
      (exec (.encInData 0x63#8) (world .enc enc0 dec0 (offered [] [0x063#9, 0x062#9, 0x100#9] []) []))
    = some (3#32, 0x00000100#32, 0x00630006#32, [0x062#9, 0x100#9]) := by decide +kernel

/-- R172, R98: the data bits of `END` are ignored. -/
theorem test_encInEnd :
    see (fun t => (t.enc.psym, t.enc.phase)) (step (State.withFetchWord idle 16 0x1A5))
    = some (0x100#9, .shift) := by decide +kernel

/-- V51: DEC-FILL. -/
theorem test_decInData :
    see (fun t => (t.dec.sr, t.dec.bn, t.job)) (step (placeDecIn 0x058#9 idle))
    = some (0x58#8, 8#4, .dec) := by decide +kernel

/-- V58: empty input is truncated. -/
theorem test_decInEnd_trunc :
    see (fun t => (statusWord t, errWord t, faultWord t)) (step (placeDecIn 0x100#9 idle))
    = some (3#32, 0x00000200#32, 0x00000007#32) := by decide +kernel

/-- V53: `END` ends the drain. -/
theorem test_decInEnd_drain :
    see (fun t => (t.job, t.err, t.ports.decIn))
      (exec (.decInEnd 0x00#8) (world .dec enc0 (decAt .drain 0x001#10 0 0) (offered [] [] [0x100#9]) []))
    = some (.idle, 0#10, []) := by decide +kernel

/-! ### The engines' own steps (the traces of W1) -/

/-- `DATA(0x62)` in W1: from `ACC` = 0b0, `NB` = 1 its first path bit 1 is shifted in. -/
theorem test_encShift :
    see (fun t => (t.enc.acc, t.enc.nb, t.enc.pidx)) (step (world .enc (encAt .shift 0x00#8 1#4 0#9) dec0 Ports.empty [.encoder]))
    = some (0x01#8, 2#4, 1#9) := by decide +kernel

/-- ENC-PAD in W1: `ACC` = 0b01011, `NB` = 5 becomes 0b01011000. -/
theorem test_encPad :
    see (fun t => (t.enc.acc, t.enc.nb)) (step (world .enc (encAt .pad 0x0B#8 5#4 0#9) dec0 Ports.empty [.encoder]))
    = some (0x58#8, 8#4) := by decide +kernel

/-- ENC-BYTE in W1 sends 0x58. -/
theorem test_encByte :
    see (fun t => (t.ports.encOut, t.enc.nb)) (step (world .enc (encAt .pad 0x58#8 8#4 0#9) dec0 Ports.empty [.encoder]))
    = some ([0x058#9], 0#4) := by decide +kernel

/-- W1: at n0 the first bit of 0x58 is 0 and leads to the leaf `a`. -/
theorem test_decBit :
    see (fun t => (t.dec.outb, t.dec.phase, t.dec.sr, t.dec.bn))
      (step (world .dec enc0 (decAt .walk 0x000#10 0x58#8 8#4) Ports.empty [.decoder]))
    = some (0x61#8, .emit, 0xB0#8, 7#4) := by decide +kernel

/-- W1, as the statements say it: the payload of "ab", its bytes, and its reading (with three pad bits). -/
theorem test_payload : payloadBits scenarioTbl [0x61#8, 0x62#8] = [false, true, false, true, true] := by decide +kernel
theorem test_packBytes : packBytes 5 [false, true, false, true, true] = [0x58#8] := by decide +kernel
theorem test_parse : parse scenario.nodes 0x000#10 0x000#10 (byteBits 0x58#8) = ([0x61#8, 0x62#8], .eof) := by decide +kernel

/-! ### The scenario tree as data -/

theorem scenario_node (i : Byte) : scenario.node i =
    if i = 0x01#8 then { v := true, left := 0x262#10, right := 0x300#10 }
    else if i = 0x00#8 then { v := true, left := 0x261#10, right := 0x001#10 }
    else { v := false, left := 0, right := 0 } := by
  have h : scenario.node i = (loadNode 0x01#8 0x262#10 0x300#10 (loadNode 0x00#8 0x261#10 0x001#10 State.reset)).node i :=
    rfl
  rw [h, node_loadNode, node_loadNode]
  simp [State.node, State.reset]

theorem scenario_entry_len (k : SymId) (e : TblEntry) (h : entryOf scenarioTbl k = some e) : e.len ≤ 256 := by
  have h0 : ∀ j e, entryOf State.reset.tbl j = some e → e.len ≤ 256 := by
    intro j e he
    by_cases hj : j.toNat < 257
    · simp [entryOf, State.reset, hj] at he
      subst he
      decide
    · have hn : entryOf State.reset.tbl j = none := by
        simpa using (entryOf_isSome_iff State.reset.tbl j).not.2 hj
      simp [hn] at he
  rw [scenarioTbl, entryOf_recordEntry, entryOf_recordEntry, entryOf_recordEntry] at h
  repeat' split at h
  all_goals first | exact h0 k e h | (cases h; decide)

/-- The states of the tests meet the invariant where their engine registers do. -/
theorem world_inv {j : Job} {e : EncRegs} {d : DecRegs} (p : Ports) (ts : List Turn) (hnb : e.nb.toNat ≤ 8)
    (hbn : d.bn.toNat ≤ 8) (hacc : e.nb.toNat < 8 → e.acc.toNat < 2 ^ e.nb.toNat)
    (hshift : e.phase = .shift → e.psym = 0x062#9 ∧ e.pidx.toNat ≤ 2) (hfin : e.phase = .fin → e.nb = 0#4)
    (hcur : d.cur = 0x000#10 ∨ d.cur = 0x001#10) : (world j e d p ts).Inv where
  rootLegal _ := by
    show Ref.reserved 0x000#10 = false
    decide
  nodeLegal i hv := by
    have hn : (world j e d p ts).node i = scenario.node i := rfl
    rw [hn, scenario_node] at hv ⊢
    split
    · decide
    · split
      · decide
      · simp_all
  pathLen := scenario_entry_len
  cause := Nat.zero_le 7
  nbBound := hnb
  bnBound := hbn
  accZeros := hacc
  eofEntry _ := by
    show hasEntry scenarioTbl 0x100#9 = true
    decide +kernel
  shifting _ hp := by
    obtain ⟨h1, h2⟩ := hshift hp
    refine ⟨{ v := true, path := [true, false] }, ?_, rfl, h2⟩
    show entryOf scenarioTbl e.psym = _
    rw [h1]
    decide +kernel
  finEmpty _ := hfin
  curLegal _ := by
    show Ref.reserved d.cur = false
    rcases hcur with h | h <;> rw [h] <;> decide
  rootNode _ _ := ⟨rfl, by
    show Ref.isLeaf 0x000#10 = false
    decide, by
    show (scenario.node 0x00#8).v = true
    decide +kernel⟩
  curNode _ _ := by
    show Ref.isLeaf d.cur = false ∧ (scenario.node (Ref.val d.cur)).v = true
    rcases hcur with h | h <;> rw [h] <;> decide +kernel

/-- The leaves of the scenario tree (W1). -/
theorem scenario_leaf (p : Path) (k : SymId) : leafAt scenario.nodes 0x000#10 p k ↔
    (p = [false] ∧ k = 0x061#9) ∨ (p = [true, false] ∧ k = 0x062#9) ∨ (p = [true, true] ∧ k = 0x100#9) := by
  rw [leafAt_node (r := 0x000#10) (by decide) (by decide +kernel)]
  have hl : child (scenario.nodes[(Ref.val 0x000#10).toNat]'(Ref.val 0x000#10).isLt) false = 0x261#10 := by decide +kernel
  have hr : child (scenario.nodes[(Ref.val 0x000#10).toNat]'(Ref.val 0x000#10).isLt) true = 0x001#10 := by decide +kernel
  have hl' : child (scenario.nodes[(Ref.val 0x001#10).toNat]'(Ref.val 0x001#10).isLt) false = 0x262#10 := by decide +kernel
  have hr' : child (scenario.nodes[(Ref.val 0x001#10).toNat]'(Ref.val 0x001#10).isLt) true = 0x300#10 := by decide +kernel
  have ha : ∀ q, leafAt scenario.nodes 0x261#10 q k ↔ q = [] ∧ k = 0x061#9 := fun q => leafAt_leaf (by decide)
  have hb : ∀ q, leafAt scenario.nodes 0x262#10 q k ↔ q = [] ∧ k = 0x062#9 := fun q => leafAt_leaf (by decide)
  have he : ∀ q, leafAt scenario.nodes 0x300#10 q k ↔ q = [] ∧ k = 0x100#9 := fun q => leafAt_leaf (by decide)
  have h1 : ∀ q, leafAt scenario.nodes 0x001#10 q k ↔
      (q = [false] ∧ k = 0x062#9) ∨ (q = [true] ∧ k = 0x100#9) := by
    intro q
    rw [leafAt_node (r := 0x001#10) (by decide) (by decide +kernel)]
    simp only [Bool.exists_bool, hl', hr', hb, he]
    constructor
    · rintro (⟨q, rfl, rfl, rfl⟩ | ⟨q, rfl, rfl, rfl⟩) <;> simp
    · rintro (⟨rfl, rfl⟩ | ⟨rfl, rfl⟩) <;> simp
  simp only [Bool.exists_bool, hl, hr, ha, h1]
  constructor
  · rintro (⟨q, rfl, rfl, rfl⟩ | ⟨q, rfl, ⟨rfl, rfl⟩ | ⟨rfl, rfl⟩⟩) <;> simp
  · rintro (⟨rfl, rfl⟩ | ⟨rfl, rfl⟩ | ⟨rfl, rfl⟩) <;> simp

theorem scenario_validTree (j : Job) (e : EncRegs) (d : DecRegs) (p : Ports) (ts : List Turn) :
    (world j e d p ts).ValidTree := by
  have hv : (visit scenario.nodes 256 0x000#10 [] State.reset.tbl).1 = none := by decide +kernel
  have ht : visit scenario.nodes 256 0x000#10 [] State.reset.tbl
      = (none, (visit scenario.nodes 256 0x000#10 [] State.reset.tbl).2) := by
    rw [← hv]
  have h := visit_none ht
  refine ⟨rfl, ⟨256, fun q r hf => (h.2 q r hf).1⟩, ?_, ?_, ⟨[true, true], ?_⟩⟩
  · intro q r hf hr
    rw [State.node]
    exact ((h.2 q r hf).2 hr).1
  · intro q q' k hq hq'
    have h1 := (scenario_leaf q k).1 hq
    have h2 := (scenario_leaf q' k).1 hq'
    rcases h1 with ⟨rfl, rfl⟩ | ⟨rfl, rfl⟩ | ⟨rfl, rfl⟩ <;> rcases h2 with ⟨rfl, h⟩ | ⟨rfl, h⟩ | ⟨rfl, h⟩ <;>
      first | rfl | exact absurd h (by decide)
  · exact (scenario_leaf _ _).2 (by simp)

/-! ### Witnesses: states and operands that meet the hypotheses of each statement, clause by clause -/

theorem witness_DecodeOfEncodeIsIdentity : Instr.wellFormed (.ldnode 0xFF#8 0x300#10 0x0FF#10) = true := by decide

theorem witness_EncodeOfDecodeIsIdentity : decode (.cmd 0x2FF3FEFF#32) = .ok (.ldnode 0xFF#8 0x0FF#10 0x2FF#10) := by
  decide +kernel

/-- Boundary words of each row: the last legal internal ref, the last byte leaf and the end-of-stream leaf are accepted, the
first ref after each is not; the last `RDREG` word is accepted, the next is not. -/
theorem witness_AcceptedWordsAreTheMapRows :
    [0x100000FF#32, 0x100002FF#32, 0x10000300#32, 0x8000FFFF#32, 0x2FFC0300#32].all
        (fun w => (decodeCmd w).toOption.isSome) = true
      ∧ [0x10000100#32, 0x10000301#32, 0x10000400#32, 0x80010000#32, 0x70000001#32].all
        (fun w => (decodeCmd w).toOption.isNone) = true := by decide +kernel

theorem witness_StepRunsOfferedCommand :
    let s := world .idle enc0 dec0 (offered [0x10000300#32] [] []) [.command]
    s.turns = [.command] ∧ s.rsp.v = false ∧ s.ports.cmd = [0x10000300#32]
      ∧ decodeCmd 0x10000300#32 = .ok (.setroot 0x300#10) := by decide +kernel

theorem witness_StepRunsOfferedToken_enc :
    let s := world .enc (encAt .wait 0x3F#8 7#4 0#9) dec0 (offered [] [0x062#9] []) [.encoder]
    s.turns = [.encoder] ∧ s.job = .enc ∧ s.enc.phase = .wait ∧ s.enc.nb.toNat < 8 ∧ s.ports.encIn = [0x062#9] := by
  decide +kernel

theorem witness_StepRunsOfferedToken_dec :
    let s := world .dec enc0 (decAt .walk 0x001#10 0 0) (offered [] [] [0x058#9]) [.decoder]
    let t := world .dec enc0 (decAt .drain 0x001#10 0xC0#8 3) (offered [] [] [0x100#9]) [.decoder]
    (s.turns = [.decoder] ∧ s.job = .dec ∧ s.dec.phase = .walk ∧ s.dec.bn = 0#4 ∧ s.ports.decIn = [0x058#9])
      ∧ (t.turns = [.decoder] ∧ t.job = .dec ∧ t.dec.phase = .drain ∧ t.ports.decIn = [0x100#9]) := by decide +kernel

theorem witness_ReservedWordOnlySetsIllcmd :
    let s := world .idle enc0 dec0 (offered [0x90000000#32] [] []) [.command]
    s.turns = [.command] ∧ s.rsp.v = false ∧ s.ports.cmd = [0x90000000#32]
      ∧ decodeCmd 0x90000000#32 = .error .opcode := by decide +kernel

/-- Also of `PendingResponseBlocksCommandsOnly`. -/
theorem witness_ResponseTransferClearsTheSlot :
    let s := respond 0x12345678#32 (world .idle enc0 dec0 Ports.empty [.response])
    let t := respond 0x12345678#32 (world .idle enc0 dec0 (offered [0#32] [] []) [.command])
    (s.turns = [.response] ∧ s.rsp.v = true) ∧ (t.turns = [.command] ∧ t.rsp.v = true) := by decide +kernel

/-- The four cases: both sides enabled, one, the other, none. -/
theorem witness_AnEnabledStepIsTaken :
    let f := fun (s : State) => (s.turns, channelReady s, engineReady s)
    [f (world .enc enc0 dec0 (offered [0#32] [0x100#9] []) []), f (world .idle enc0 dec0 (offered [0#32] [] []) []),
        f (world .dec enc0 dec0 (offered [] [] [0x100#9]) []), f idle]
      = [([], some .command, some .encoder), ([], some .command, none), ([], none, some .decoder), ([], none, none)] := by
  decide +kernel

theorem witness_ResetEmptiesTheBlock :
    (world .enc enc0 dec0 Ports.empty [.reset]).turns = [.reset] := by decide +kernel

/-- Of the statements about commands in `IDLE`: the state is idle, and legal refs at the edges of their ranges. -/
theorem witness_idleCommands :
    idle.job = .idle ∧ Ref.legal 0x0FF#10 = true ∧ Ref.legal 0x200#10 = true ∧ Ref.legal 0x2FF#10 = true
      ∧ Ref.legal 0x300#10 = true := by decide +kernel

theorem witness_SetrootLoadsRoot : idle.job = .idle ∧ Ref.legal 0x300#10 = true := by decide +kernel

theorem witness_LdnodeLoadsOneEntry :
    idle.job = .idle ∧ Ref.legal 0x0FF#10 = true ∧ Ref.legal 0x2FF#10 = true ∧ (0x00#8 : Byte) ≠ 0xFF#8 := by
  decide +kernel

theorem witness_ClrtreeInvalidatesTheTree : idle.job = .idle := by decide +kernel

theorem witness_BusyCommandsOnlySetBusycmd :
    (raise .trunc 0 idle).job = .halted ∧ (raise .trunc 0 idle).job ≠ .idle
      ∧ [Instr.setroot 0x300#10, .ldnode 0x02#8 0x201#10 0x202#10, .clrtree, .encStart, .decStart].all Instr.wellFormed
        = true := by decide +kernel

theorem witness_ReservedRefOnlySetsIllcmd :
    Ref.reserved 0x100#10 = true ∧ Ref.reserved 0x1FF#10 = true ∧ Ref.reserved 0x301#10 = true
      ∧ Ref.reserved 0x3FF#10 = true := by decide

/-- The edges of the mapped ranges (R133); each address falls under one clause. -/
theorem witness_RdregFillsTheSlot :
    [0x0000#16, 0x0003#16, 0x0100#16, 0x01FF#16, 0x0200#16, 0x0300#16, 0x0800#16, 0x1007#16].all mapped = true
      ∧ [0x0004#16, 0x00FF#16, 0x0301#16, 0x07FF#16, 0x1008#16, 0xFFFF#16].all (fun a => !mapped a) = true := by decide

/-- Of the clause on `CLEN[k]`: the first and the last entry, a valid and an invalid one. -/
theorem witness_RegisterWordLayouts :
    idle.entry 0x100#9 = some { v := true, path := [true, true] } ∧ idle.entry 0x000#9 = some { v := false, path := [] }
      ∧ TblEntry.len { v := true, path := [true, true] } ≤ 256 := by decide +kernel

theorem witness_CbitsReadsThePathBits :
    idle.entry 0x062#9 = some { v := true, path := [true, false] } ∧ (7 : Nat) < 8 ∧ (31 : Nat) < 32 := by decide +kernel

theorem witness_EncStartBuildsValidTree : idle.Inv ∧ idle.job = .idle ∧ idle.ValidTree :=
  ⟨world_inv _ _ (by decide) (by decide) (by decide) (by decide) (by decide) (.inl rfl), by decide +kernel,
    scenario_validTree _ _ _ _ _⟩

theorem witness_EncStartAcceptsOnlyValidTrees :
    idle.Inv ∧ idle.job = .idle ∧ ∃ t, exec .encStart idle = .next t ∧ t.job = .enc :=
  ⟨witness_EncStartBuildsValidTree.1, by decide +kernel, see_some (f := fun t => t.job) (by decide +kernel)⟩

theorem witness_EncStartTableIsPrefixFree :
    idle.job = .idle ∧ (0x061#9 : SymId) ≠ 0x062#9 ∧ ∃ t, exec .encStart idle = .next t
      ∧ (t.job, entryOf t.tbl 0x061#9, entryOf t.tbl 0x062#9)
        = (.enc, some { v := true, path := [false] }, some { v := true, path := [true, false] }) :=
  ⟨by decide +kernel, by decide,
    see_some (f := fun t => (t.job, entryOf t.tbl 0x061#9, entryOf t.tbl 0x062#9)) (by decide +kernel)⟩

/-- The five defects (V21, V22, V24, V24d, V24f): each faults in `IDLE` with its own code. -/
theorem witness_EncStartFaultNamesADefect :
    let n := fun (i : Byte) (l r : Ref) (s : State) => loadNode i l r s
    [State.reset, loadRoot 0x007#10 State.reset,
        loadRoot 0x000#10 (n 0x01#8 0x261#10 0x300#10 (n 0x00#8 0x261#10 0x001#10 State.reset)),
        loadRoot 0x000#10 (n 0x00#8 0x000#10 0x300#10 State.reset),
        loadRoot 0x000#10 (n 0x00#8 0x201#10 0x202#10 State.reset)].map
      (fun s => (s.job, see (fun t => (t.job, t.fault.cause)) (exec .encStart s)))
    = [(.idle, some (.halted, 1#4)), (.idle, some (.halted, 2#4)), (.idle, some (.halted, 3#4)),
        (.idle, some (.halted, 4#4)), (.idle, some (.halted, 5#4))] := by decide +kernel

/-- The first defect in traversal order and the entries before it: V23 (a leaf to the left), V24g (the left child is met first,
the leaf to the right is not recorded), V24a (`DUPSYM` after two leaves). -/
theorem test_encStart_first_defect :
    let n := fun (i : Byte) (l r : Ref) (s : State) => loadNode i l r s
    [loadRoot 0x000#10 (n 0x00#8 0x201#10 0x005#10 State.reset),
        loadRoot 0x000#10 (n 0x00#8 0x009#10 0x201#10 State.reset),
        loadRoot 0x000#10 (n 0x01#8 0x261#10 0x300#10 (n 0x00#8 0x300#10 0x001#10 State.reset))].map
      (fun s => see (fun t => (faultWord t, regRead 0x0201#16 t, regRead 0x0261#16 t, regRead 0x0300#16 t)) (exec .encStart s))
    = [some (0x00050002#32, 0x80000001#32, 0#32, 0#32), some (0x00090002#32, 0#32, 0#32, 0#32),
        some (0x01000003#32, 0#32, 0x80000002#32, 0x80000001#32)] := by decide +kernel

theorem witness_EncStartWithoutRootFaults : State.reset.job = .idle ∧ State.reset.root.v = false := by decide +kernel

theorem witness_EncStartOnSingleLeaf :
    (let s := loadRoot 0x300#10 State.reset; s.job = .idle ∧ s.root.v = true ∧ s.root.ref = 0x300#10)
      ∧ (let s := loadRoot 0x241#10 State.reset; s.job = .idle ∧ s.root.v = true
        ∧ s.root.ref = (2#2 ++ 0x41#8 : BitVec 10)) := by decide +kernel

/-- A byte with an entry, a byte without one; a full accumulator but for one bit. -/
theorem witness_EncDataTokenIsLookedUp :
    let s := world .enc (encAt .wait 0x7F#8 7#4 0#9) dec0 (offered [] [0x061#9] []) []
    s.job = .enc ∧ s.enc.phase = .wait ∧ s.enc.nb.toNat < 8 ∧ hasEntry s.tbl (BitVec.setWidth 9 0x61#8) = true
      ∧ hasEntry s.tbl (BitVec.setWidth 9 0x63#8) = false := by decide +kernel

theorem witness_EncEndTokenStartsEofPath :
    let s := world .enc enc0 dec0 (offered [] [0x1FF#9] []) []
    s.job = .enc ∧ s.enc.phase = .wait ∧ s.enc.nb.toNat < 8 := by decide +kernel

/-- A full accumulator on one side, bits left on the other. -/
theorem witness_TokenWaitsWhereItsStepIsDisabled :
    let s := world .enc (encAt .wait 0 8#4 0#9) dec0 Ports.empty []
    let t := world .dec enc0 (decAt .walk 0x000#10 0 1#4) Ports.empty []
    ¬ (s.job = .enc ∧ s.enc.phase = .wait ∧ s.enc.nb.toNat < 8)
      ∧ ¬ (t.job = .dec ∧ ((t.dec.phase = .walk ∧ t.dec.bn = 0#4) ∨ t.dec.phase = .drain)) := by decide +kernel

/-- Below the path's end, the last bit, and at it. -/
theorem witness_EncShiftAndNext :
    let s := fun i => world .enc (encAt .shift 0x00#8 1#4 i) dec0 Ports.empty [.encoder]
    let e : TblEntry := { v := true, path := [true, false] }
    (s 1#9).turns = [.encoder] ∧ (s 1#9).job = .enc ∧ (s 1#9).enc.phase = .shift ∧ (s 1#9).enc.nb.toNat < 8
      ∧ (s 1#9).entry (s 1#9).enc.psym = some e ∧ (s 1#9).enc.pidx.toNat < e.path.length
      ∧ (s 2#9).entry (s 2#9).enc.psym = some e ∧ (s 2#9).enc.pidx.toNat = e.path.length := by decide +kernel

theorem witness_EncByteSendsTheFullByte :
    let s := world .enc (encAt .shift 0x58#8 8#4 1#9) dec0 Ports.empty [.encoder]
    s.turns = [.encoder] ∧ s.job = .enc ∧ s.enc.nb = 8#4 := by decide +kernel

theorem witness_EncPadAndEnd :
    let s := fun ph n => world .enc (encAt ph 0x00#8 n 0#9) dec0 Ports.empty [.encoder]
    ((s .pad 0#4).enc.phase = .pad ∧ (s .pad 0#4).enc.nb = 0#4)
      ∧ ((s .pad 7#4).enc.phase = .pad ∧ 0 < (s .pad 7#4).enc.nb.toNat ∧ (s .pad 7#4).enc.nb.toNat < 8)
      ∧ ((s .fin 0#4).enc.phase = .fin ∧ (s .fin 0#4).enc.nb = 0#4)
      ∧ (s .fin 0#4).turns = [.encoder] ∧ (s .fin 0#4).job = .enc := by decide +kernel

theorem witness_NoEntryForPsymStops :
    let s := world .enc { enc0 with phase := .shift, psym := 0x101#9 } dec0 Ports.empty [.encoder]
    s.turns = [.encoder] ∧ s.job = .enc ∧ s.enc.phase = .shift ∧ s.enc.nb.toNat < 8 ∧ 256 < s.enc.psym.toNat := by
  decide +kernel

/-- The three clauses: a token, a partial byte to pad, a path bit. -/
theorem witness_EncoderConservesBits :
    let w := world .enc enc0 dec0 (offered [] [0x061#9] []) [.encoder]
    let p := world .enc (encAt .pad 0x0B#8 5#4 0#9) dec0 Ports.empty [.encoder]
    let q := world .enc (encAt .shift 0x00#8 1#4 0#9) dec0 Ports.empty [.encoder]
    (w.Inv ∧ encAction w = some .token ∧ ∃ t, step w = .next t ∧ t.job = .enc)
      ∧ (p.Inv ∧ encAction p = some .pad ∧ ∃ t, step p = .next t ∧ t.job = .enc)
      ∧ (q.Inv ∧ encAction q = some (.shift true) ∧ ∃ t, step q = .next t ∧ t.job = .enc) := by
  refine ⟨⟨?_, ?_, ?_⟩, ⟨?_, ?_, ?_⟩, ⟨?_, ?_, ?_⟩⟩
  case refine_1 | refine_4 | refine_7 =>
    exact world_inv _ _ (by decide) (by decide) (by decide) (by decide) (by decide) (.inl rfl)
  case refine_2 | refine_5 | refine_8 => decide +kernel
  all_goals exact see_some (f := fun t => t.job) (by decide +kernel)

/-- The scenario's input "ab" (W1). -/
theorem witness_EncodeJobSendsThePayload :
    let s := world .enc enc0 dec0 (offered [] [0x061#9, 0x062#9, 0x100#9] []) []
    s.Inv ∧ s.job = .enc ∧ s.enc.phase = .wait ∧ s.enc.nb = 0#4 ∧ s.turns = [] ∧ s.ports.cmd = [] ∧ s.rsp.v = false
      ∧ s.ports.encIn = [0x61#8, 0x62#8].map Token.data ++ Token.endWith 0x00#8 :: []
      ∧ (∀ b ∈ [0x61#8, 0x62#8], hasEntry s.tbl (b.setWidth 9) = true) :=
  ⟨world_inv _ _ (by decide) (by decide) (by decide) (by decide) (by decide) (.inl rfl), by decide +kernel⟩

/-- V39, shorter: two `b`, then a byte without an entry. -/
theorem witness_EncodeJobStopsAtUnknownByte :
    let s := world .enc enc0 dec0 (offered [] [0x062#9, 0x062#9, 0x063#9, 0x100#9] []) []
    s.Inv ∧ s.job = .enc ∧ s.enc.phase = .wait ∧ s.enc.nb = 0#4 ∧ s.turns = [] ∧ s.ports.cmd = [] ∧ s.rsp.v = false
      ∧ s.ports.encIn = [0x62#8, 0x62#8].map Token.data ++ Token.data 0x63#8 :: [0x100#9]
      ∧ (∀ b ∈ [0x62#8, 0x62#8], hasEntry s.tbl (b.setWidth 9) = true)
      ∧ hasEntry s.tbl (BitVec.setWidth 9 0x63#8) = false :=
  ⟨world_inv _ _ (by decide) (by decide) (by decide) (by decide) (by decide) (.inl rfl), by decide +kernel⟩

/-- The five outcomes: no root, end-of-stream root, byte-leaf root, missing node, a walk. -/
theorem witness_DecStartChecksTheRoot :
    [State.reset, loadRoot 0x300#10 State.reset, loadRoot 0x241#10 State.reset, loadRoot 0x007#10 State.reset, idle].map
      (fun s => (s.job, see (fun t => (t.job, t.fault.cause)) (exec .decStart s)))
    = [(.idle, some (.halted, 1#4)), (.idle, some (.dec, 0#4)), (.idle, some (.halted, 5#4)),
        (.idle, some (.halted, 2#4)), (.idle, some (.dec, 0#4))] := by decide +kernel

theorem witness_DecTokenInTheWalk :
    let s := world .dec enc0 (decAt .walk 0x001#10 0 0#4) (offered [] [] [0x058#9, 0x100#9]) []
    s.job = .dec ∧ s.dec.phase = .walk ∧ s.dec.bn = 0#4 := by decide +kernel

theorem witness_DecTokenInTheDrain :
    let t := world .dec enc0 (decAt .drain 0x001#10 0 5#4) (offered [] [] [0x058#9, 0x100#9]) []
    t.job = .dec ∧ t.dec.phase = .drain := by decide +kernel

/-- The four outcomes of a bit: a byte leaf, the end-of-stream leaf, a valid entry, an entry that is not valid. -/
theorem witness_DecBitWalksOneBit :
    [world .dec enc0 (decAt .walk 0x000#10 0x58#8 8#4) Ports.empty [.decoder],
        world .dec enc0 (decAt .walk 0x001#10 0x80#8 1#4) Ports.empty [.decoder],
        world .dec enc0 (decAt .walk 0x000#10 0xFF#8 8#4) Ports.empty [.decoder],
        loadNode 0x00#8 0x005#10 0x001#10 (world .dec enc0 (decAt .walk 0x000#10 0x00#8 8#4) Ports.empty [.decoder])].map
      (fun s => (s.turns == [.decoder] && s.job == .dec && s.dec.phase == .walk && s.dec.bn != 0#4,
        see (fun t => (t.job, t.dec.phase, t.dec.cur)) (step s)))
    = [(true, some (.dec, .emit, 0x000#10)),
        (true, some (.dec, .fin, 0x001#10)),
        (true, some (.dec, .walk, 0x001#10)),
        (true, some (.halted, .walk, 0x000#10))] := by decide +kernel

theorem witness_DecEmitAndFin :
    let s := fun ph => world .dec enc0 (decAt ph 0x001#10 0x80#8 3#4) Ports.empty [.decoder]
    ((s .emit).turns = [.decoder] ∧ (s .emit).job = .dec ∧ (s .emit).dec.phase = .emit)
      ∧ ((s .fin).turns = [.decoder] ∧ (s .fin).job = .dec ∧ (s .fin).dec.phase = .fin) := by decide +kernel

theorem witness_DecoderStepsLowerAMeasure :
    let s := world .dec enc0 dec0 (offered [] [] [0x058#9]) [.decoder]
    s.turns = [.decoder] ∧ (decAction s).isSome = true ∧ ∃ t, step s = .next t ∧ t.job = .dec :=
  ⟨by decide +kernel, by decide +kernel, see_some (f := fun t => t.job) (by decide +kernel)⟩

/-- W1 for the end-of-stream clause, V59 for the other. -/
theorem witness_DecodeJobSendsTheReading :
    let s := fun b => world .dec enc0 dec0 (offered [] [] [Token.data b, 0x100#9]) []
    let r := fun b => parse scenario.nodes 0x000#10 0x000#10 ([b].flatMap byteBits)
    (∀ b, (s b).Inv)
      ∧ ((s 0x58#8).job = .dec ∧ (s 0x58#8).dec.phase = .walk ∧ (s 0x58#8).dec.bn = 0#4
        ∧ (s 0x58#8).dec.cur = (s 0x58#8).root.ref ∧ (s 0x58#8).turns = [] ∧ (s 0x58#8).ports.cmd = []
        ∧ (s 0x58#8).rsp.v = false
        ∧ (s 0x58#8).ports.decIn = [0x58#8].map Token.data ++ Token.endWith 0x00#8 :: [])
      ∧ (r 0x58#8).2 = .eof ∧ (r 0x01#8).2 = .trunc 0x001#10 :=
  ⟨fun _ => world_inv _ _ (by decide) (by decide) (by decide) (by decide) (by decide) (.inl rfl), by decide +kernel⟩

/-- V60 for the `BADNODE` clause: the second bit of 0x40 leads to entry 5, which is not valid, so one byte is taken. The state
meets the invariant. -/
def missingNode : State :=
  loadNode 0x00#8 0x201#10 0x005#10 (world .dec enc0 dec0 (offered [] [] [0x040#9, 0x100#9]) [])

theorem witness_DecodeJobSendsTheReading_badnode :
    missingNode.job = .dec ∧ missingNode.dec.phase = .walk ∧ missingNode.dec.bn = 0#4
      ∧ missingNode.dec.cur = missingNode.root.ref ∧ missingNode.turns = [] ∧ missingNode.ports.cmd = []
      ∧ missingNode.rsp.v = false ∧ missingNode.ports.decIn = [0x40#8].map Token.data ++ Token.endWith 0x00#8 :: []
      ∧ parse missingNode.nodes 0x000#10 0x000#10 ([0x40#8].flatMap byteBits) = ([0x01#8], .badnode 0x05#8)
      ∧ (parse missingNode.nodes 0x000#10 0x000#10 []).2 = .trunc 0x000#10 := by decide +kernel

theorem witness_DecodeJobSendsTheReading_badnode_inv : missingNode.Inv := by
  have hw : (world .dec enc0 dec0 (offered [] [] [0x040#9, 0x100#9]) []).Inv :=
    world_inv _ _ (by decide) (by decide) (by decide) (by decide) (by decide) (.inl rfl)
  have hn := fun i => node_loadNode 0x00#8 0x201#10 0x005#10 (world .dec enc0 dec0 (offered [] [] [0x040#9, 0x100#9]) []) i
  refine { hw with nodeLegal := fun i => ?_, rootNode := fun _ _ => ⟨rfl, rfl, ?_⟩, curNode := fun _ _ => ⟨rfl, ?_⟩ }
  · rw [missingNode, hn]
    split
    · decide
    · exact hw.nodeLegal i
  all_goals decide +kernel

theorem witness_ReadingInvertsThePayload :
    idle.Inv ∧ idle.job = .idle ∧ Ref.isLeaf idle.root.ref = false ∧ ∃ t, exec .encStart idle = .next t
      ∧ (t.job, [0x61#8, 0x62#8].all (fun b => hasEntry t.tbl (b.setWidth 9))) = (.enc, true) :=
  ⟨witness_EncStartBuildsValidTree.1, by decide +kernel, by decide +kernel,
    see_some (f := fun t => (t.job, [0x61#8, 0x62#8].all (fun b => hasEntry t.tbl (b.setWidth 9)))) (by decide +kernel)⟩

/-- A state with the invariant, a command on offer, and its next state; also of `NoReachableStateStops`. -/
theorem witness_EveryStepKeepsTheInvariant :
    let s := world .idle enc0 dec0 (offered [0x40000000#32] [] []) []
    s.Inv ∧ ∃ t, step s = .next t ∧ t.job = .enc :=
  ⟨world_inv _ _ (by decide) (by decide) (by decide) (by decide) (by decide) (.inl rfl),
    see_some (f := fun t => t.job) (by decide +kernel)⟩

/-- A transition of each kind: to `ENC`, `DEC`, `HALTED` from `DEC`, and to `IDLE` by each of its four ways; to `HALTED` from
`IDLE` and `ENC` in `witness_JobChangesOnlyAsR45Says_halted`. -/
theorem witness_JobChangesOnlyAsR45Says :
    [world .idle enc0 dec0 (offered [0x40000000#32] [] []) [.command],
        world .idle enc0 dec0 (offered [0x50000000#32] [] []) [.command],
        world .dec enc0 dec0 (offered [] [] [0x100#9]) [.decoder],
        world .enc enc0 dec0 Ports.empty [.reset],
        world .dec enc0 dec0 (offered [0x60000000#32] [] []) [.command],
        world .enc (encAt .fin 0 0 0) dec0 Ports.empty [.encoder],
        world .dec enc0 (decAt .drain 0 0 0) (offered [] [] [0x100#9]) [.decoder]].map
      (fun s => (s.job, see (fun t => t.job) (step s)))
    = [(.idle, some .enc), (.idle, some .dec), (.dec, some .halted), (.enc, some .idle), (.dec, some .idle),
        (.enc, some .idle), (.dec, some .idle)] := by decide +kernel

theorem witness_JobChangesOnlyAsR45Says_halted :
    [placeCmd 0x40000000#32 State.reset, placeCmd 0x50000000#32 State.reset,
        world .enc enc0 dec0 (offered [] [0x063#9] []) [.encoder]].map (fun s => (s.job, see (fun t => t.job) (step s)))
    = [(.idle, some .halted), (.idle, some .halted), (.enc, some .halted)] := by decide +kernel

/-- A step outside `IDLE` that is no reset; also of `ErrIsStickyAndFaultIsKept`, `EngineRegistersHaveTheirWriters` and
`OutputsAreWhatThePortsOffer` (a job fault, with engine registers and channels that change). -/
theorem witness_TreeStoreConstantOutsideIdle :
    let s := world .enc enc0 dec0 (offered [] [0x063#9] []) [.encoder]
    s.job ≠ .idle ∧ (nextTurn s).1 = some .encoder
      ∧ ∃ t, step s = .next t ∧ (t.job, t.err, t.fault.cause) = (.halted, 0x100#10, 6#4) :=
  ⟨by decide +kernel, by decide +kernel, see_some (f := fun t => (t.job, t.err, t.fault.cause)) (by decide +kernel)⟩

theorem witness_TableWrittenOnlyByEncStart :
    let s := { world .idle enc0 dec0 (offered [0x40000000#32] [] []) [.command] with tbl := State.reset.tbl }
    hasEntry s.tbl 0x062#9 = false ∧ ∃ t, step s = .next t ∧ hasEntry t.tbl 0x062#9 = true :=
  ⟨by decide +kernel, see_some (f := fun t => hasEntry t.tbl 0x062#9) (by decide +kernel)⟩

/-- An error bit that is set, and a step that is neither reset nor `CLRERR`: the decoder's. -/
theorem witness_ErrIsStickyAndFaultIsKept :
    let s := { world .dec enc0 dec0 (offered [] [] [0x058#9]) [.decoder] with err := 0x001#10 }
    (nextTurn s).1 = some .decoder ∧ errHas .illcmd s.err = true ∧ (¬ ∃ u, fetch s = .instr .clrerr u)
      ∧ ∃ t, step s = .next t ∧ t.dec.bn = 8#4 := by
  refine ⟨by decide +kernel, by decide +kernel, ?_, see_some (f := fun t => t.dec.bn) (by decide +kernel)⟩
  rintro ⟨u, hu⟩
  have h : (fun f => match f with | Fetched.instr i _ => i | .done _ => .nop)
      (fetch { world .dec enc0 dec0 (offered [] [] [0x058#9]) [.decoder] with err := 0x001#10 })
      = .decInData 0x58#8 := by decide +kernel
  rw [hu] at h
  cases h

/-- A decoder's step that changes its registers, an encoder's that sends a byte. -/
theorem witness_OutputsAreWhatThePortsOffer :
    [world .enc (encAt .pad 0x58#8 8#4 0#9) dec0 Ports.empty [.encoder],
        world .dec enc0 (decAt .emit 0x001#10 0 0) Ports.empty [.decoder]].map
      (fun s => ((nextTurn s).1, encOutOffer s, decOutOffer s, see (fun t => t.ports.encOut ++ t.ports.decOut) (step s)))
    = [(some .encoder, some 0x058#9, none, some [0x058#9]), (some .decoder, none, some 0x062#9, some [0x062#9])] := by decide +kernel

/-- Of the clauses on `rsp`: a response that is pending on its turn, one that is pending on another's, and none. -/
theorem witness_OutputsAreWhatThePortsOffer_rsp :
    [respond 0x12345678#32 (world .idle enc0 dec0 Ports.empty [.response]),
        respond 0x12345678#32 (world .idle enc0 dec0 Ports.empty [.decoder]),
        world .idle enc0 dec0 Ports.empty [.response]].map
      (fun s => ((nextTurn s).1, rspValid s, see (fun t => t.ports.rspOut) (step s)))
    = [(some .response, true, some [0x12345678#32]), (some .decoder, true, some []),
        (some .response, false, some [])] := by decide +kernel

/-- R230: nothing left in `IDLE` and in `HALTED` with a token nobody takes is an end; a job without its token is a wait; an
offer to come, a command or a token on offer is neither. -/
theorem witness_RunIsOverOrWaitsAsR230Says :
    [idle, raise .trunc 0 (world .dec enc0 dec0 (offered [] [] [0x058#9]) [.decoder]),
        world .enc enc0 dec0 Ports.empty [], world .dec enc0 (decAt .drain 0x001#10 0 3#4) Ports.empty [],
        world .idle enc0 dec0 Ports.empty [.offerCmd 0#32], world .idle enc0 dec0 (offered [0#32] [] []) [],
        world .enc enc0 dec0 (offered [] [0x100#9] []) []].map (fun s => (s.runOver, s.waits))
    = [(true, false), (true, false), (false, true), (false, true), (false, false), (false, false), (false, false)] := by
  decide +kernel

/-- Of its second clause: the waits meet the invariant. -/
theorem witness_RunIsOverOrWaitsAsR230Says_inv :
    (world .enc enc0 dec0 Ports.empty []).Inv ∧ (world .dec enc0 (decAt .drain 0x001#10 0 3#4) Ports.empty []).Inv :=
  ⟨world_inv _ _ (by decide) (by decide) (by decide) (by decide) (by decide) (.inl rfl),
    world_inv _ _ (by decide) (by decide) (by decide) (by decide) (by decide) (.inr rfl)⟩

/-- R230: the ends of a job: ENC-END, the end of a drain, a job fault, a start that faults, `ABORT` and reset in a job; `ABORT`
in `IDLE` ends none. -/
theorem witness_JobsEndAsR230Says :
    [world .enc (encAt .fin 0 0 0) dec0 Ports.empty [.encoder],
        world .dec enc0 (decAt .drain 0 0 0) (offered [] [] [0x100#9]) [.decoder],
        world .dec enc0 dec0 (offered [] [] [0x100#9]) [.decoder],
        placeCmd 0x40000000#32 State.reset,
        world .enc enc0 dec0 (offered [0x60000000#32] [] []) [.command],
        world .dec enc0 dec0 Ports.empty [.reset],
        placeCmd 0x60000000#32 State.reset].map (fun s => see (jobEnd s) (step s))
    = [some (some .success), some (some .success), some (some .failure), some (some .failure), some (some .failure),
        some (some .failure), some none] := by decide +kernel

theorem witness_OneEngineAtATime : idle.job = .idle ∧ (raise .trunc 0 idle).job = .halted := by decide +kernel

end Sys2Proof.Tests
end

section
/-! PROOFS. The scope of the block (00_scope.md R11, R17): every instruction completes, a step runs what is offered, an
enabled step is taken, and no state that meets the invariant stops. -/

namespace Sys2Proof.Machine

/-! ### The guards of the steps that take a token -/

/-- The guard of ENC-TOKEN (R171, R172). -/
theorem encTakesToken_iff (s : State) :
    encTakesToken s = true ↔ s.job = .enc ∧ s.enc.phase = .wait ∧ s.enc.nb.toNat < 8 := by
  simp [encTakesToken, BitVec.lt_def, and_assoc]

/-- The guard of DEC-FILL (R143). -/
theorem decFills_iff (s : State) :
    decFills s = true ↔ s.job = .dec ∧ s.dec.phase = .walk ∧ s.dec.bn = 0#4 := by
  simp [decFills, and_assoc]

/-- The guard of DEC-DRAIN (R148). -/
theorem decDrains_iff (s : State) : decDrains s = true ↔ s.job = .dec ∧ s.dec.phase = .drain := by
  simp [decDrains]

/-- With a token on offer, ENC-TOKEN is the encoder's step wherever its guard holds. -/
theorem encAction_token {s : State} (hg : encTakesToken s = true) (ht : s.ports.encIn ≠ []) :
    encAction s = some .token := by
  obtain ⟨hj, hp, hn⟩ := (encTakesToken_iff s).mp hg
  have h8 : s.enc.nb ≠ 8#4 := by
    intro h
    simp [h] at hn
  simp [encAction, hj, h8, hp, hg, ht]

/-- With a token on offer, the decoder's step takes it wherever the guard of DEC-FILL or DEC-DRAIN holds. -/
theorem decAction_token {s : State} (hg : decFills s = true ∨ decDrains s = true) (ht : s.ports.decIn ≠ []) :
    decAction s = some .token := by
  rcases hg with hf | hd
  · obtain ⟨hj, hp, hb⟩ := (decFills_iff s).mp hf
    simp [decAction, hj, hp, hb, ht]
  · obtain ⟨hj, hp⟩ := (decDrains_iff s).mp hd
    simp [decAction, hj, hp, ht]

/-! ### What a turn comes to where it runs an instruction -/

theorem commandTurn_ok {s : State} {w : Word} {ws : List Word} {i : Instr} (hv : s.rsp.v = false)
    (hc : s.ports.cmd = w :: ws) (hd : decodeCmd w = .ok i) :
    commandTurn s = .instr i { s with ports := { s.ports with cmd := ws } } := by
  simp [commandTurn, takeCmd, hv, hc, hd]

theorem encoderTurn_token {s : State} {t : Token} {tks : List Token} (hg : encTakesToken s = true)
    (ht : s.ports.encIn = t :: tks) : encoderTurn s = .instr (decodeEncIn t) s := by
  simp [encoderTurn, encAction_token hg (by simp [ht]), ht]

theorem decoderTurn_token {s : State} {t : Token} {tks : List Token} (hg : decFills s = true ∨ decDrains s = true)
    (ht : s.ports.decIn = t :: tks) : decoderTurn s = .instr (decodeDecIn t) s := by
  simp [decoderTurn, decAction_token hg (by simp [ht]), ht]

/-! ### The next mover -/

theorem step_of_nextTurn {s u : State} {m : Turn} (h : nextTurn s = (some m, u)) :
    step s = runFetched (takeTurn m u) := by
  simp [step, fetch, h]

/-- Where no order is left, the step of the mover chosen is the step at the state that gives that mover the turn. -/
theorem step_eq_step_given {s u : State} {m : Turn} (h : nextTurn s = (some m, u)) (hu : u.turns = []) :
    step s = step { u with turns := [m] } := by
  have hback : { u with turns := [] } = u := by rw [← hu]
  rw [step_of_nextTurn h, step_given (s := { u with turns := [m] }) rfl, hback]

/-! ### No instruction and no turn stops -/

/-- No arm of `exec` stops. The arms that test an operand, a guard or the state answer a next state on both sides. -/
theorem exec_completes (i : Instr) (s : State) : ∃ t, exec i s = .next t := by
  cases i with
  | setroot ref =>
    simp only [exec, execSetroot]
    split <;> exact ⟨_, rfl⟩
  | ldnode idx left right =>
    simp only [exec, execLdnode]
    split <;> exact ⟨_, rfl⟩
  | rdreg addr =>
    simp only [exec, execRdreg]
    split <;> exact ⟨_, rfl⟩
  | nop | clrtree | encStart | decStart | abort | clrerr => exact ⟨_, rfl⟩
  | encInData | encInEnd | decInData | decInEnd => exact ⟨_, rfl⟩

theorem commandTurn_completes (s : State) : ∃ t, runFetched (commandTurn s) = .next t := by
  unfold commandTurn
  split
  · exact ⟨_, rfl⟩
  · cases s.ports.cmd with
    | nil => exact ⟨_, rfl⟩
    | cons w ws =>
      cases hd : decodeCmd w with
      | error e => exact ⟨reject .illcmd (takeCmd s), by simp [hd, runFetched]⟩
      | ok i => simpa [hd, runFetched] using exec_completes i (takeCmd s)

/-- The encoder's turn stops only at the step that R97 says does not occur (log 9). -/
theorem encoderTurn_completes {s : State} (h : encAction s ≠ some .noEntry) :
    ∃ t, runFetched (encoderTurn s) = .next t := by
  unfold encoderTurn
  cases ha : encAction s with
  | none => exact ⟨_, rfl⟩
  | some a =>
    cases a with
    | token =>
      cases s.ports.encIn with
      | nil => exact ⟨_, rfl⟩
      | cons t tks => exact exec_completes (decodeEncIn t) s
    | noEntry => exact absurd ha h
    | shift | next | byte | pad | fin => exact ⟨_, rfl⟩

theorem decoderTurn_completes (s : State) : ∃ t, runFetched (decoderTurn s) = .next t := by
  unfold decoderTurn
  cases decAction s with
  | none => exact ⟨_, rfl⟩
  | some a =>
    cases a with
    | token =>
      cases s.ports.decIn with
      | nil => exact ⟨_, rfl⟩
      | cons t tks => exact exec_completes (decodeDecIn t) s
    | bit | emit | fin => exact ⟨_, rfl⟩

theorem takeTurn_completes (m : Turn) {s : State} (h : encAction s ≠ some .noEntry) :
    ∃ t, runFetched (takeTurn m s) = .next t := by
  cases m with
  | command => exact commandTurn_completes s
  | encoder => exact encoderTurn_completes h
  | decoder => exact decoderTurn_completes s
  | response | reset | offerCmd | offerEncIn | offerDecIn => exact ⟨_, rfl⟩

/-- The symbol whose path is being emitted has an entry in every state that meets the invariant (R171, R181). -/
theorem State.Inv.encAction_ne_noEntry {s : State} (h : s.Inv) : encAction s ≠ some .noEntry := by
  intro ha
  obtain ⟨hj, hp, hnone⟩ := encAction_some ha
  obtain ⟨e, he, -, -⟩ := h.shifting hj hp
  rw [hnone] at he
  cases he

/-- A step stops only where the encoder's step is the one that does not occur. -/
theorem step_completes {s : State} (h : encAction s ≠ some .noEntry) : ∃ t, step s = .next t := by
  have hact : encAction (nextTurn s).2 = encAction s := by
    obtain ⟨ts, n, hu⟩ := nextTurn_state s
    rw [hu, encAction_turns]
  rcases hn : nextTurn s with ⟨_ | m, u⟩
  · exact ⟨u, by simp [step, fetch, hn, runFetched]⟩
  · rw [hn] at hact
    rw [step_of_nextTurn hn]
    exact takeTurn_completes m (hact ▸ h)

/-! ### The obligations -/

/-- Settles O50: the invariant gives the symbol being emitted an entry, and nothing else stops a step. -/
theorem noReachableStateStops : Obligations.NoReachableStateStops :=
  fun _ h => step_completes h.encAction_ne_noEntry

/-- Settles O5: the turn is given, so the step is what the command unit's turn comes to. -/
theorem stepRunsOfferedCommand : Obligations.StepRunsOfferedCommand := by
  intro s ts w ws i hts hv hc hd
  have hturn : commandTurn { s with turns := ts } = .instr i { s with turns := ts, ports := { s.ports with cmd := ws } } :=
    commandTurn_ok hv hc hd
  rw [step_given hts, takeTurn, hturn, runFetched]

/-- Settles O6: with its guard the engine's turn comes to the oldest token's instruction. -/
theorem stepRunsOfferedToken : Obligations.StepRunsOfferedToken := by
  refine ⟨fun s ts t tks hts hj hp hn ht => ?_, fun s ts t tks hts hj hg ht => ?_⟩
  · have hguard : encTakesToken { s with turns := ts } = true := (encTakesToken_iff _).mpr ⟨hj, hp, hn⟩
    rw [step_given hts, takeTurn, encoderTurn_token hguard ht, runFetched]
  · have hguard : decFills { s with turns := ts } = true ∨ decDrains { s with turns := ts } = true :=
      hg.imp (fun h => (decFills_iff _).mpr ⟨hj, h⟩) (fun h => (decDrains_iff _).mpr ⟨hj, h⟩)
    rw [step_given hts, takeTurn, decoderTurn_token hguard ht, runFetched]

/-- Settles O10, by which side has an enabled step; where both have one, by the free value. -/
theorem anEnabledStepIsTaken : Obligations.AnEnabledStepIsTaken := by
  intro s hs
  cases hc : channelReady s with
  | none =>
    cases he : engineReady s with
    | none => simp [step, fetch, nextTurn, hs, hc, he, runFetched]
    | some b => exact step_eq_step_given (by simp [nextTurn, hs, hc, he]) hs
  | some a =>
    cases he : engineReady s with
    | none => exact step_eq_step_given (by simp [nextTurn, hs, hc, he]) hs
    | some b =>
      have hchosen : step s = step { s with
          turns := [if Config.engineMovesFirst s.tick then b else a], tick := s.tick + 1 } :=
        step_eq_step_given (u := { s with tick := s.tick + 1 }) (by simp [nextTurn, hs, hc, he]) hs
      split at hchosen
      · exact .inr hchosen
      · exact .inl hchosen

/-- Settles O32: without its guard a token's meaning is the state it was offered in. -/
theorem tokenWaitsWhereItsStepIsDisabled : Obligations.TokenWaitsWhereItsStepIsDisabled := by
  refine ⟨fun s b h => ?_, fun s b h => ?_⟩
  · have hguard : ¬ encTakesToken s = true := mt (encTakesToken_iff s).mp h
    simp [exec, execEncInData, execEncInEnd, hguard]
  · have hfill : ¬ decFills s = true := by
      rw [decFills_iff]
      exact fun ⟨hj, hp⟩ => h ⟨hj, .inl hp⟩
    have hdrain : ¬ decDrains s = true := by
      rw [decDrains_iff]
      exact fun ⟨hj, hp⟩ => h ⟨hj, .inr hp⟩
    simp [exec, execDecInData, execDecInEnd, hfill, hdrain]

/-- Settles O51, by the instruction. -/
theorem everyInstructionAnswersANextState : Obligations.EveryInstructionAnswersANextState := exec_completes

end Sys2Proof.Machine
end

section
/-! PROOFS. What a command, a token and a start of an engine can do, said once: one inversion lemma for each, as
`step_cases` is for the step. -/

namespace Sys2Proof.Machine

/-- The states the command `i` can lead to from `s` (R120 to R127, R131, R140, R160). -/
inductive Commanded (s : State) : Instr → State → Prop where
  /-- `NOP`. -/
  | nop : Commanded s .nop s
  /-- A reserved ref. -/
  | illcmd (i : Instr) : Commanded s i (reject .illcmd s)
  /-- A command allowed in `IDLE` only, elsewhere. -/
  | busy (i : Instr) (h : s.job ≠ .idle) : Commanded s i (reject .busycmd s)
  /-- `SETROOT`. -/
  | setroot (h : s.job = .idle) (r : Ref) (hr : Ref.reserved r = false) : Commanded s (.setroot r) (loadRoot r s)
  /-- `LDNODE`. -/
  | ldnode (h : s.job = .idle) (n : Byte) (l r : Ref) (hl : Ref.reserved l = false) (hr : Ref.reserved r = false) :
      Commanded s (.ldnode n l r) (loadNode n l r s)
  /-- `CLRTREE`. -/
  | clrtree (h : s.job = .idle) : Commanded s .clrtree (clearTree s)
  /-- `ENC_START`. -/
  | encStart (h : s.job = .idle) : Commanded s .encStart (encStartEffect s)
  /-- `DEC_START`. -/
  | decStart (h : s.job = .idle) : Commanded s .decStart (decStartEffect s)
  /-- `ABORT`. -/
  | abort : Commanded s .abort (endJob s)
  /-- `CLRERR`. -/
  | clrerr : Commanded s .clrerr (clearFaults s)
  /-- `RDREG` of a mapped address. -/
  | rdreg (a : RegAddr) : Commanded s (.rdreg a) (respond (regRead a s) s)
  /-- `RDREG` of an unmapped address. -/
  | badaddr (a : RegAddr) : Commanded s (.rdreg a) (respond 0 (reject .badaddr s))

/-- A command that is allowed in `IDLE` only leads to its effect there and to the rejection elsewhere (R127). -/
theorem Commanded.whenIdle {s e : State} {i : Instr} (h : s.job = .idle → Commanded s i e) :
    Commanded s i (whenIdle s e) := by
  rcases whenIdle_cases s e with ⟨hj, he⟩ | ⟨hj, he⟩ <;> rw [he]
  · exact h hj
  · exact .busy i hj

/-- A word that decodes selects its row of the opcode map (R91). -/
theorem eq_selectRow_of_decodeCmd {w : Word} {i : Instr} (hd : decodeCmd w = .ok i) : i = selectRow w := by
  unfold decodeCmd at hd
  repeat' split at hd
  all_goals cases hd
  rfl

/-- Inversion of a command: what a decoded word's instruction can do. -/
theorem exec_command {w : Word} {i : Instr} {s t : State} (hd : decodeCmd w = .ok i) (he : exec i s = .next t) :
    Commanded s i t := by
  rw [eq_selectRow_of_decodeCmd hd] at he ⊢
  revert he
  unfold selectRow
  -- The rows of the opcode map, in its order (R91).
  split <;> intro he
  case h_1 | h_7 | h_8 => cases he; constructor
  case h_2 =>
    simp only [exec, execSetroot] at he
    split at he <;> cases he
    · exact .illcmd _
    · rename_i hr
      exact .whenIdle fun h => .setroot h _ (by simpa using hr)
  case h_3 =>
    simp only [exec, execLdnode] at he
    split at he <;> cases he
    · exact .illcmd _
    · rename_i hr
      obtain ⟨hl, hr⟩ := by simpa using hr
      exact .whenIdle fun h => .ldnode h _ _ _ hl hr
  case h_4 => cases he; exact .whenIdle .clrtree
  case h_5 => cases he; exact .whenIdle .encStart
  case h_6 => cases he; exact .whenIdle .decStart
  case h_9 =>
    simp only [exec, execRdreg] at he
    split at he <;> cases he
    · exact .rdreg _
    · exact .badaddr _

/-- Inversion of ENC-TOKEN: an `END` starts the end-of-stream path, a byte with an entry its own, and any other byte is
`UNKSYM` (R171, R172). -/
theorem exec_encToken {tok : Token} {s t : State} (ha : encAction s = some .token)
    (he : exec (decodeEncIn tok) s = .next t) :
    (∃ k, t = startPath k (takeEncIn s) ∧ (k = Config.eofId ∨ hasEntry s.tbl k = true))
      ∨ ∃ info, t = raise .unksym info (takeEncIn s) := by
  obtain ⟨hj, hp, hn, -⟩ := encAction_some ha
  have hg : encTakesToken s = true := (encTakesToken_iff s).mpr ⟨hj, hp, hn⟩
  unfold decodeEncIn at he
  split at he
  · simp only [exec, execEncInEnd, hg, if_true] at he
    cases he
    exact .inl ⟨_, rfl, .inl rfl⟩
  · simp only [exec, execEncInData, lookupByte, hg, if_true] at he
    split at he <;> cases he
    · exact .inl ⟨_, rfl, .inr ‹_›⟩
    · exact .inr ⟨_, rfl⟩

/-- Inversion of DEC-FILL and DEC-DRAIN: a byte is filled or discarded, an `END` is `TRUNC` or ends the job (R143, R148). -/
theorem exec_decToken {tok : Token} {s t : State} (ha : decAction s = some .token)
    (he : exec (decodeDecIn tok) s = .next t) :
    (∃ b, t = fillByte b (takeDecIn s)) ∨ t = takeDecIn s ∨ (∃ info, t = raise .trunc info (takeDecIn s))
      ∨ (t = endJob (takeDecIn s) ∧ s.dec.phase = .drain ∧ ∃ d, decodeDecIn tok = .decInEnd d) := by
  obtain ⟨hj, hg, -⟩ := decAction_some ha
  have hguard : decFills s = true ∨ decFills s = false ∧ decDrains s = true := by
    rw [← Bool.not_eq_true, decFills_iff, decDrains_iff]
    rcases hg with ⟨hp, hb⟩ | hp
    · exact .inl ⟨hj, hp, hb⟩
    · exact .inr ⟨by simp [hp], hj, hp⟩
  unfold decodeDecIn at he ⊢
  split at he
  · rcases hguard with hf | ⟨hf, hd⟩
    · simp only [exec, execDecInEnd, hf, if_true] at he
      cases he
      exact .inr (.inr (.inl ⟨_, rfl⟩))
    · simp only [exec, execDecInEnd, hf, hd, if_true] at he
      cases he
      exact .inr (.inr (.inr ⟨rfl, ((decDrains_iff s).mp hd).2, _, if_pos ‹_›⟩))
  · rcases hguard with hf | ⟨hf, hd⟩
    · simp only [exec, execDecInData, hf, if_true] at he
      cases he
      exact .inl ⟨_, rfl⟩
    · simp only [exec, execDecInData, hf, hd, if_true] at he
      cases he
      exact .inr (.inl rfl)

/-- `ENC_START` in `IDLE` raises the fault that the build met or starts the encoder; the table is the build's (R160, R169). -/
theorem encStartEffect_cases (s : State) :
    (∃ f info tbl, build s.root s.nodes (invalidateTbl s.tbl) = (some (f, info), tbl)
        ∧ encStartEffect s = raise f info { s with tbl := tbl })
      ∨ ∃ tbl, build s.root s.nodes (invalidateTbl s.tbl) = (none, tbl)
        ∧ encStartEffect s = startEncoder { s with tbl := tbl } := by
  unfold encStartEffect
  rcases build s.root s.nodes (invalidateTbl s.tbl) with ⟨_ | ⟨f, info⟩, tbl⟩
  · exact .inr ⟨tbl, rfl, rfl⟩
  · exact .inl ⟨f, info, tbl, rfl, rfl⟩

/-- `DEC_START` in `IDLE` raises a fault, goes to `D_FIN` at an end-of-stream root, or starts the walk at a valid root node
(R140). -/
theorem decStartEffect_cases (s : State) :
    (∃ f info u, decStartEffect s = raise f info u ∧ (u = dropBits s ∨ u = goToRoot (dropBits s)))
      ∨ (s.root.v = true ∧ ∃ p, decStartEffect s = startDecoder p (goToRoot (dropBits s))
        ∧ (p = .fin ∨ p = .walk ∧ Ref.isLeaf s.root.ref = false ∧ (s.node (Ref.val s.root.ref)).v = true)) := by
  unfold decStartEffect
  split
  · rename_i hv
    split
    · exact .inr ⟨hv, _, rfl, .inl rfl⟩
    · split
      · exact .inl ⟨_, _, _, rfl, .inr rfl⟩
      · split
        · exact .inr ⟨hv, _, rfl, .inr ⟨rfl, by simpa using ‹¬ Ref.isLeaf _ = true›, ‹_›⟩⟩
        · exact .inl ⟨_, _, _, rfl, .inr rfl⟩
  · exact .inl ⟨_, _, _, rfl, .inl rfl⟩

/-- DEC-BIT arrives at the end-of-stream leaf, at a byte leaf, at a valid node, or raises `BADNODE` (R144, R145). -/
theorem arrive_cases (r : Ref) (s : State) :
    arrive r s = { s with dec := { s.dec with phase := .fin } }
      ∨ arrive r s = { s with dec := { s.dec with outb := Ref.val r, phase := .emit } }
      ∨ (Ref.isLeaf r = false ∧ (s.node (Ref.val r)).v = true ∧ arrive r s = { s with dec := { s.dec with cur := r } })
      ∨ arrive r s = raise .badnode (Byte.zext9 (Ref.val r)) s := by
  unfold arrive
  split
  · exact .inl rfl
  · split
    · exact .inr (.inl rfl)
    · split
      · exact .inr (.inr (.inl ⟨by simpa using ‹¬ Ref.isLeaf r = true›, ‹_›, rfl⟩))
      · exact .inr (.inr (.inr rfl))

end Sys2Proof.Machine
end

section
/-! PROOFS. The invariant of the block's state (10_state.md R24, R36; R151, R166, R172, R181, R190): its parts, what each
operation does to them, and that every step keeps it. -/

namespace Sys2Proof.Machine

/-! ### The parts of the invariant -/

/-- The tree store holds legal refs (R36). -/
def TreeLegal (root : RootReg) (nodes : Nodes) : Prop :=
  (root.v = true → Ref.reserved root.ref = false)
    ∧ ∀ i : Byte, (nodes[i.toNat]'i.isLt).v = true →
        Ref.reserved (nodes[i.toNat]'i.isLt).left = false ∧ Ref.reserved (nodes[i.toNat]'i.isLt).right = false

theorem TreeLegal.reserved_child {root : RootReg} {nodes : Nodes} (h : TreeLegal root nodes) {i : Byte}
    (hv : (nodes[i.toNat]'i.isLt).v = true) (b : Bool) : Ref.reserved (child (nodes[i.toNat]'i.isLt) b) = false := by
  obtain ⟨hleft, hright⟩ := h.2 i hv
  cases b
  · exact hleft
  · exact hright

/-- The table's paths fit (R37, R166). -/
def PathsFit (t : Tbl) : Prop := ∀ k e, entryOf t k = some e → e.len ≤ Config.maxLen

/-- The accumulator holds `NB` bits and zeros above (R24, R181). -/
def AccClean (e : EncRegs) : Prop :=
  e.nb.toNat ≤ 8 ∧ (e.nb.toNat < 8 → e.acc.toNat < 2 ^ e.nb.toNat)

/-- What holds of the table and the encoder's registers during an encode job (R163, R171, R172, R176, R181). -/
def EncodeOk (t : Tbl) (e : EncRegs) : Prop :=
  hasEntry t Config.eofId = true
    ∧ (e.phase = .shift → ∃ x, entryOf t e.psym = some x ∧ x.v = true ∧ e.pidx.toNat ≤ x.len)
    ∧ (e.phase = .fin → e.nb = 0#4)

/-- `r` is an internal ref that names a valid entry (R34, R151). -/
def NodeRef (nodes : Nodes) (r : Ref) : Prop :=
  Ref.isLeaf r = false ∧ (nodes[(Ref.val r).toNat]'(Ref.val r).isLt).v = true

/-- What holds of the tree store and the decoder's registers during a decode job (R36, R140, R146, R151). -/
def DecodeOk (root : RootReg) (nodes : Nodes) (d : DecRegs) : Prop :=
  Ref.reserved d.cur = false
    ∧ (d.phase = .walk ∨ d.phase = .emit → root.v = true ∧ NodeRef nodes root.ref)
    ∧ (d.phase = .walk → NodeRef nodes d.cur)

/-- The invariant, by the part of the state that each clause is about: what an update leaves alone, it keeps. -/
theorem State.inv_iff (s : State) :
    s.Inv ↔ TreeLegal s.root s.nodes ∧ PathsFit s.tbl ∧ s.fault.cause.toNat ≤ 7 ∧ AccClean s.enc ∧ s.dec.bn.toNat ≤ 8
      ∧ (s.job = .enc → EncodeOk s.tbl s.enc) ∧ (s.job = .dec → DecodeOk s.root s.nodes s.dec) := by
  constructor
  · intro h
    exact ⟨⟨h.rootLegal, h.nodeLegal⟩, h.pathLen, h.cause, ⟨h.nbBound, h.accZeros⟩, h.bnBound,
      fun hj => ⟨h.eofEntry hj, h.shifting hj, h.finEmpty hj⟩,
      fun hj => ⟨h.curLegal hj, h.rootNode hj, h.curNode hj⟩⟩
  · rintro ⟨⟨hr, hn⟩, hp, hc, ⟨hnb, ha⟩, hb, he, hd⟩
    exact ⟨hr, hn, hp, hc, hnb, hb, ha, fun hj => (he hj).1, fun hj => (he hj).2.1, fun hj => (he hj).2.2,
      fun hj => (hd hj).1, fun hj => (hd hj).2.1, fun hj => (hd hj).2.2⟩

/-! ### Updates that the invariant does not speak of, and the ends of a job -/

theorem State.inv_run_iff (s : State) (ts : List Turn) (n : Nat) : State.Inv { s with turns := ts, tick := n } ↔ s.Inv := by
  simp [State.inv_iff]

@[simp] theorem inv_reject_iff (f : ErrBit) (s : State) : (reject f s).Inv ↔ s.Inv := by simp [State.inv_iff]

@[simp] theorem inv_respond_iff (d : Word) (s : State) : (respond d s).Inv ↔ s.Inv := by simp [State.inv_iff]

@[simp] theorem inv_sendResponse_iff (s : State) : (sendResponse s).Inv ↔ s.Inv := by simp [State.inv_iff]

@[simp] theorem inv_takeCmd_iff (s : State) : (takeCmd s).Inv ↔ s.Inv := by simp [State.inv_iff]

@[simp] theorem inv_takeEncIn_iff (s : State) : (takeEncIn s).Inv ↔ s.Inv := by simp [State.inv_iff]

@[simp] theorem inv_takeDecIn_iff (s : State) : (takeDecIn s).Inv ↔ s.Inv := by simp [State.inv_iff]

@[simp] theorem inv_offer_iff (o : Offer) (s : State) : (offer o s).Inv ↔ s.Inv := by simp [State.inv_iff]

theorem inv_clearFaults {s : State} (h : s.Inv) : (clearFaults s).Inv := by
  obtain ⟨htree, htbl, -, hrest⟩ := s.inv_iff.mp h
  exact (State.inv_iff _).mpr ⟨htree, htbl, Nat.zero_le 7, hrest⟩

theorem inv_endJob {s : State} (h : s.Inv) : (endJob s).Inv := by
  obtain ⟨htree, htbl, hcause, hacc, hbn, -, -⟩ := s.inv_iff.mp h
  exact (State.inv_iff _).mpr ⟨htree, htbl, hcause, hacc, hbn, by simp, by simp⟩

theorem inv_raise (f : JobFault) (info : BitVec 9) {s : State} (h : s.Inv) : (raise f info s).Inv := by
  obtain ⟨htree, htbl, -, hacc, hbn, -, -⟩ := s.inv_iff.mp h
  exact (State.inv_iff _).mpr ⟨htree, htbl, f.cause_range.2, hacc, hbn, by simp, by simp⟩

/-! ### The tree store is written in `IDLE`, with legal refs (R36, R121 to R123) -/

theorem inv_loadRoot {s : State} {r : Ref} (hj : s.job = .idle) (hr : Ref.reserved r = false) (h : s.Inv) :
    (loadRoot r s).Inv := by
  obtain ⟨⟨-, hnodes⟩, htbl, hcause, hacc, hbn, -, -⟩ := s.inv_iff.mp h
  exact (State.inv_iff _).mpr ⟨⟨fun _ => hr, hnodes⟩, htbl, hcause, hacc, hbn, by simp [hj], by simp [hj]⟩

theorem inv_loadNode {s : State} {n : Byte} {l r : Ref} (hj : s.job = .idle) (hl : Ref.reserved l = false)
    (hr : Ref.reserved r = false) (h : s.Inv) : (loadNode n l r s).Inv := by
  obtain ⟨⟨hroot, hnodes⟩, htbl, hcause, hacc, hbn, -, -⟩ := s.inv_iff.mp h
  refine (State.inv_iff _).mpr ⟨⟨hroot, fun i hv => ?_⟩, htbl, hcause, hacc, hbn, by simp [hj], by simp [hj]⟩
  have hnode := node_loadNode n l r s i
  rw [State.node] at hnode
  rw [hnode] at hv ⊢
  by_cases hi : i = n
  · simp [hi, hl, hr]
  · rw [if_neg hi] at hv ⊢
    exact hnodes i hv

theorem inv_clearTree {s : State} (hj : s.job = .idle) (h : s.Inv) : (clearTree s).Inv := by
  obtain ⟨-, htbl, hcause, hacc, hbn, -, -⟩ := s.inv_iff.mp h
  exact (State.inv_iff _).mpr
    ⟨⟨by simp, by simp⟩, htbl, hcause, hacc, hbn, by simp [hj], by simp [hj]⟩

/-! ### `ENC_START` -/

theorem pathsFit_invalidateTbl {t : Tbl} (h : PathsFit t) : PathsFit (invalidateTbl t) := by
  intro k e he
  rw [entryOf_invalidateTbl, Option.map_eq_some_iff] at he
  obtain ⟨x, hx, rfl⟩ := he
  exact h k x hx

/-- What the traversal recorded is the table of the build, also after a fault (R161, R169). -/
theorem build_snd (root : RootReg) (nodes : Nodes) (t : Tbl) :
    (build root nodes t).2 = if root.v then (visit nodes Config.maxLen root.ref [] t).2 else t := by
  unfold build
  split
  · rcases visit nodes Config.maxLen root.ref [] t with ⟨_ | f, t'⟩
    · dsimp only
      split <;> rfl
    · rfl
  · rfl

/-- No path that the build records is longer than 256 (R166). -/
theorem pathsFit_build (root : RootReg) (nodes : Nodes) {t : Tbl} (h : PathsFit t) :
    PathsFit (build root nodes t).2 := by
  rw [build_snd]
  split
  · exact visit_len (Nat.le_refl _) h
  · exact h

/-- A build without a fault is a traversal without one from a valid root, and it found an end-of-stream leaf (R163). -/
theorem build_none {root : RootReg} {nodes : Nodes} {t t' : Tbl} (h : build root nodes t = (none, t')) :
    root.v = true ∧ visit nodes Config.maxLen root.ref [] t = (none, t') ∧ hasEntry t' Config.eofId = true := by
  unfold build at h
  split at h
  · rename_i hv
    split at h
    · cases h
    · rename_i hvisit
      split at h
      · cases h
        exact ⟨hv, hvisit, ‹_›⟩
      · cases h
  · cases h

theorem inv_encStartEffect {s : State} (hj : s.job = .idle) (h : s.Inv) : (encStartEffect s).Inv := by
  obtain ⟨htree, htbl, hcause, hacc, hbn, -, -⟩ := s.inv_iff.mp h
  have hfit := pathsFit_build s.root s.nodes (pathsFit_invalidateTbl htbl)
  rcases encStartEffect_cases s with ⟨f, info, tbl, hb, he⟩ | ⟨tbl, hb, he⟩ <;> rw [he] <;> rw [hb] at hfit
  · refine inv_raise f info ((State.inv_iff _).mpr ⟨htree, hfit, hcause, hacc, hbn, ?_, ?_⟩) <;> simp [hj]
  · obtain ⟨-, -, heof⟩ := build_none hb
    refine (State.inv_iff _).mpr ⟨htree, hfit, hcause, ?_, hbn, fun _ => ?_, by simp⟩
    · simp [AccClean]
    · exact ⟨heof, by simp, by simp⟩

/-! ### `DEC_START` -/

theorem inv_dropBits {s : State} (h : s.Inv) : (dropBits s).Inv := by
  obtain ⟨htree, htbl, hcause, hacc, -, henc, hdec⟩ := s.inv_iff.mp h
  exact (State.inv_iff _).mpr ⟨htree, htbl, hcause, hacc, Nat.zero_le 8, henc, hdec⟩

theorem inv_goToRoot {s : State} (hj : s.job = .idle) (h : s.Inv) : (goToRoot s).Inv := by
  obtain ⟨htree, htbl, hcause, hacc, hbn, -, -⟩ := s.inv_iff.mp h
  exact (State.inv_iff _).mpr ⟨htree, htbl, hcause, hacc, hbn, by simp [hj], by simp [hj]⟩

theorem inv_decStartEffect {s : State} (hj : s.job = .idle) (h : s.Inv) : (decStartEffect s).Inv := by
  have hdrop : (dropBits s).Inv := inv_dropBits h
  have hroot : (goToRoot (dropBits s)).Inv := inv_goToRoot hj hdrop
  rcases decStartEffect_cases s with ⟨f, info, u, he, hu⟩ | ⟨hv, p, he, hp⟩ <;> rw [he]
  · exact inv_raise f info (by rcases hu with rfl | rfl <;> assumption)
  · obtain ⟨htree, htbl, hcause, hacc, hbn, -, -⟩ := (State.inv_iff _).mp hroot
    refine (State.inv_iff _).mpr ⟨htree, htbl, hcause, hacc, hbn, by simp, fun _ => ⟨htree.1 hv, ?_⟩⟩
    rcases hp with rfl | ⟨rfl, hnode⟩
    · simp
    · exact ⟨fun _ => ⟨hv, hnode⟩, fun _ => hnode⟩

/-- Every command keeps the invariant. -/
theorem Commanded.inv {s t : State} {i : Instr} (hc : Commanded s i t) (h : s.Inv) : t.Inv := by
  cases hc with
  | nop => exact h
  | illcmd | busy => simpa using h
  | setroot hj r hr => exact inv_loadRoot hj hr h
  | ldnode hj n l r hl hr => exact inv_loadNode hj hl hr h
  | clrtree hj => exact inv_clearTree hj h
  | encStart hj => exact inv_encStartEffect hj h
  | decStart hj => exact inv_decStartEffect hj h
  | abort => exact inv_endJob h
  | clrerr => exact inv_clearFaults h
  | rdreg | badaddr => simpa using h

/-! ### The encoder's steps -/

/-- A step that writes the encoder's registers only keeps the invariant if it keeps its clauses about them. -/
theorem State.Inv.with_enc {s : State} {e : EncRegs} (h : s.Inv) (hj : s.job = .enc) (hacc : AccClean e)
    (hok : EncodeOk s.tbl e) : State.Inv { s with enc := e } := by
  obtain ⟨htree, htbl, hcause, -, hbn, -, -⟩ := s.inv_iff.mp h
  exact (State.inv_iff _).mpr ⟨htree, htbl, hcause, hacc, hbn, fun _ => hok, by simp [hj]⟩

theorem inv_startPath {s : State} {k : SymId} (hj : s.job = .enc) (hk : k = Config.eofId ∨ hasEntry s.tbl k = true)
    (h : s.Inv) : (startPath k s).Inv := by
  obtain ⟨-, -, -, hacc, -, henc, -⟩ := s.inv_iff.mp h
  obtain ⟨heof, -, -⟩ := henc hj
  refine h.with_enc hj hacc ⟨heof, fun _ => ?_, by simp⟩
  have hentry : hasEntry s.tbl k = true := hk.elim (fun e => e ▸ heof) id
  obtain ⟨p, hp⟩ := (hasEntry_iff _ _).mp hentry
  exact ⟨_, hp, rfl, Nat.zero_le _⟩

/-- A bit shifted in from below doubles the bound of the accumulator (R173). -/
theorem acc_shift_lt {acc : Byte} {n : Nat} (b : Bool) (h : acc.toNat < 2 ^ n) :
    (acc <<< 1 ||| (BitVec.ofBool b).setWidth 8 : Byte).toNat < 2 ^ (n + 1) := by
  rw [BitVec.toNat_or]
  apply Nat.or_lt_two_pow
  · rw [BitVec.toNat_shiftLeft, Nat.shiftLeft_eq, Nat.pow_succ]
    exact Nat.lt_of_le_of_lt (Nat.mod_le _ _) (by omega)
  · have hb : ((BitVec.ofBool b).setWidth 8 : Byte).toNat ≤ 1 := by cases b <;> decide
    have hn : 1 ≤ 2 ^ n := Nat.one_le_two_pow
    rw [Nat.pow_succ]
    omega

theorem inv_encShift {s : State} {b : Bool} (ha : encAction s = some (.shift b)) (h : s.Inv) : (encShift b s).Inv := by
  obtain ⟨hj, hp, hn, e, he, hlt, -⟩ := encAction_some ha
  obtain ⟨-, htbl, -, ⟨hnb, hacc⟩, -, henc, -⟩ := s.inv_iff.mp h
  obtain ⟨heof, hshift, -⟩ := henc hj
  have hn8 : s.enc.nb.toNat < 8 := by simpa [BitVec.lt_def] using hn
  have hnb' : (s.enc.nb + 1).toNat = s.enc.nb.toNat + 1 := by rw [BitVec.toNat_add]; simp; omega
  have hlen : e.len ≤ 256 := htbl _ _ he
  have hidx : (s.enc.pidx + 1).toNat = s.enc.pidx.toNat + 1 := by rw [BitVec.toNat_add]; simp; omega
  refine h.with_enc hj ⟨?_, fun _ => ?_⟩ ⟨heof, fun _ => ?_, by simp [hp]⟩
  · rw [hnb']; exact hn8
  · rw [hnb']; exact acc_shift_lt b (hacc hn8)
  · obtain ⟨x, hx, hv, -⟩ := hshift hp
    obtain rfl : x = e := Option.some.inj (hx.symm.trans he)
    exact ⟨x, hx, hv, by rw [hidx]; exact hlt⟩

theorem inv_encNext {s : State} (ha : encAction s = some .next) (h : s.Inv) : (encNext s).Inv := by
  obtain ⟨hj, -⟩ := encAction_some ha
  obtain ⟨-, -, -, hacc, -, henc, -⟩ := s.inv_iff.mp h
  obtain ⟨heof, -, -⟩ := henc hj
  refine h.with_enc hj hacc ⟨heof, ?_, ?_⟩ <;> dsimp only <;> split <;> simp

theorem inv_encByte {s : State} (ha : encAction s = some .byte) (h : s.Inv) : (encByte s).Inv := by
  obtain ⟨hj, -⟩ := encAction_some ha
  obtain ⟨-, -, -, -, -, henc, -⟩ := s.inv_iff.mp h
  obtain ⟨heof, hshift, -⟩ := henc hj
  have hput : (putEncOut (Token.data s.enc.acc) s).Inv := by simpa [State.inv_iff] using h
  exact hput.with_enc hj (by simp [AccClean]) ⟨heof, hshift, fun _ => rfl⟩

theorem inv_encPad {s : State} (ha : encAction s = some .pad) (h : s.Inv) : (encPad s).Inv := by
  obtain ⟨hj, hp, -⟩ := encAction_some ha
  obtain ⟨-, -, -, hacc, -, henc, -⟩ := s.inv_iff.mp h
  obtain ⟨heof, -, -⟩ := henc hj
  unfold encPad
  split
  · rename_i hnb
    exact h.with_enc hj hacc ⟨heof, by simp, fun _ => hnb⟩
  · exact h.with_enc hj (by simp [AccClean]) ⟨heof, by simp [hp], by simp [hp]⟩

theorem inv_encEnd {s : State} (h : s.Inv) : (encEnd s).Inv :=
  inv_endJob (by simpa [State.inv_iff] using h)

/-! ### The decoder's steps -/

/-- A step that writes the decoder's registers only keeps the invariant if it keeps its clauses about them. -/
theorem State.Inv.with_dec {s : State} {d : DecRegs} (h : s.Inv) (hj : s.job = .dec) (hbn : d.bn.toNat ≤ 8)
    (hok : DecodeOk s.root s.nodes d) : State.Inv { s with dec := d } := by
  obtain ⟨htree, htbl, hcause, hacc, -, -, -⟩ := s.inv_iff.mp h
  exact (State.inv_iff _).mpr ⟨htree, htbl, hcause, hacc, hbn, by simp [hj], fun _ => hok⟩

theorem inv_fillByte {s : State} (b : Byte) (hj : s.job = .dec) (h : s.Inv) : (fillByte b s).Inv := by
  obtain ⟨-, -, -, -, -, -, hdec⟩ := s.inv_iff.mp h
  exact h.with_dec hj (Nat.le_refl 8) (hdec hj)

theorem inv_consumeBit {s : State} (hj : s.job = .dec) (hb : s.dec.bn ≠ 0#4) (h : s.Inv) : (consumeBit s).Inv := by
  obtain ⟨-, -, -, -, hbn, -, hdec⟩ := s.inv_iff.mp h
  refine h.with_dec hj ?_ (hdec hj)
  have hpos : s.dec.bn.toNat ≠ 0 := fun e => hb (BitVec.eq_of_toNat_eq e)
  show (s.dec.bn - 1).toNat ≤ 8
  bv_omega

theorem inv_arrive {s : State} {r : Ref} (hj : s.job = .dec) (hp : s.dec.phase = .walk) (hr : Ref.reserved r = false)
    (h : s.Inv) : (arrive r s).Inv := by
  obtain ⟨-, -, -, -, hbn, -, hdec⟩ := s.inv_iff.mp h
  obtain ⟨hcur, hroot, -⟩ := hdec hj
  rcases arrive_cases r s with he | he | ⟨hleaf, hv, he⟩ | he <;> rw [he]
  · exact h.with_dec hj hbn ⟨hcur, by simp, by simp⟩
  · exact h.with_dec hj hbn ⟨hcur, fun _ => hroot (.inl hp), by simp⟩
  · exact h.with_dec hj hbn ⟨hr, hroot, fun _ => ⟨hleaf, hv⟩⟩
  · exact inv_raise _ _ h

theorem inv_decBit {s : State} (ha : decAction s = some .bit) (h : s.Inv) : (decBit s).Inv := by
  obtain ⟨hj, hp, hb⟩ := decAction_some ha
  obtain ⟨htree, -⟩ := s.inv_iff.mp h
  exact inv_arrive hj hp (htree.reserved_child (h.curNode hj hp).2 _) (inv_consumeBit hj hb h)

theorem inv_decEmit {s : State} (ha : decAction s = some .emit) (h : s.Inv) : (decEmit s).Inv := by
  obtain ⟨hj, hp⟩ := decAction_some ha
  obtain ⟨-, -, -, -, hbn, -, -⟩ := s.inv_iff.mp h
  have hput : (putDecOut (Token.data s.dec.outb) s).Inv := by simpa [State.inv_iff] using h
  obtain ⟨hv, hnode⟩ := h.rootNode hj (.inr hp)
  exact hput.with_dec hj hbn ⟨h.rootLegal hv, fun _ => ⟨hv, hnode⟩, fun _ => hnode⟩

theorem inv_decFin {s : State} (ha : decAction s = some .fin) (h : s.Inv) : (decFin s).Inv := by
  obtain ⟨hj, -⟩ := decAction_some ha
  obtain ⟨-, -, -, -, hbn, -, -⟩ := s.inv_iff.mp h
  have hput : (putDecOut Token.fin s).Inv := by simpa [State.inv_iff] using h
  exact hput.with_dec hj hbn ⟨h.curLegal hj, by simp, by simp⟩

/-! ### Reset -/

/-- Settles O48: every store is empty and every counter 0, and no job runs. -/
theorem invariantHoldsAtReset : Obligations.InvariantHoldsAtReset := by
  refine (State.inv_iff _).mpr ⟨⟨by simp [State.reset], by simp [State.reset]⟩, fun k e he => ?_, Nat.zero_le 7,
    by simp [AccClean, State.reset], Nat.zero_le 8, by simp [State.reset], by simp [State.reset]⟩
  obtain ⟨hk, rfl⟩ : k.toNat < 257 ∧ { v := false, path := [] } = e := by
    simpa [entryOf, State.reset, Vector.getElem?_eq_some_iff] using he
  exact Nat.zero_le _

theorem inv_resetEvent (s : State) : (resetEvent s).Inv :=
  (State.inv_iff _).mpr ((State.inv_iff State.reset).mp invariantHoldsAtReset)

/-! ### The step -/

/-- Settles O49, by the move that the step makes. -/
theorem everyStepKeepsTheInvariant : Obligations.EveryStepKeepsTheInvariant := by
  intro s t h hstep
  have hu : (nextTurn s).2.Inv := by
    obtain ⟨ts, n, hu⟩ := nextTurn_state s
    rw [hu]
    exact (s.inv_run_iff ts n).mpr h
  have hmove := step_cases hstep
  generalize (nextTurn s).2 = u at hu hmove
  cases hmove with
  | pass => exact hu
  | illcmd | response | offer => simpa using hu
  | command _ i _ he hc =>
    obtain ⟨w, ws, -, hd⟩ := hc
    exact (exec_command hd he).inv (by simpa using hu)
  | encToken _ tok toks _ ha _ he =>
    have htake : (takeEncIn u).Inv := by simpa using hu
    rcases exec_encToken ha he with ⟨k, rfl, hk⟩ | ⟨info, rfl⟩
    · exact inv_startPath (encAction_some ha).1 hk htake
    · exact inv_raise _ _ htake
  | encShift _ b ha => exact inv_encShift ha hu
  | encNext _ ha => exact inv_encNext ha hu
  | encByte _ ha => exact inv_encByte ha hu
  | encPad _ ha => exact inv_encPad ha hu
  | encEnd => exact inv_encEnd hu
  | decToken _ tok toks _ ha _ he =>
    have htake : (takeDecIn u).Inv := by simpa using hu
    rcases exec_decToken ha he with ⟨b, rfl⟩ | rfl | ⟨info, rfl⟩ | ⟨rfl, -, -⟩
    · exact inv_fillByte b (decAction_some ha).1 htake
    · exact htake
    · exact inv_raise _ _ htake
    · exact inv_endJob htake
  | decBit _ ha => exact inv_decBit ha hu
  | decEmit _ ha => exact inv_decEmit ha hu
  | decFin _ ha => exact inv_decFin ha hu
  | reset => exact inv_resetEvent u

end Sys2Proof.Machine
end

section
/-! PROOFS. Who writes what (10_state.md R28, R31, R38, R45, R48): the transitions of `JOB`, and the writers of the code
table, of `ERR` and `FAULT` and of the engines' registers. -/

namespace Sys2Proof.Machine

/-! ### The turn used up changes nothing of the block -/

@[simp] theorem nextTurn_job (s : State) : (nextTurn s).2.job = s.job := by
  obtain ⟨ts, n, hu⟩ := nextTurn_state s
  rw [hu]

@[simp] theorem nextTurn_err (s : State) : (nextTurn s).2.err = s.err := by
  obtain ⟨ts, n, hu⟩ := nextTurn_state s
  rw [hu]

@[simp] theorem nextTurn_fault (s : State) : (nextTurn s).2.fault = s.fault := by
  obtain ⟨ts, n, hu⟩ := nextTurn_state s
  rw [hu]

@[simp] theorem nextTurn_tbl (s : State) : (nextTurn s).2.tbl = s.tbl := by
  obtain ⟨ts, n, hu⟩ := nextTurn_state s
  rw [hu]

@[simp] theorem nextTurn_enc (s : State) : (nextTurn s).2.enc = s.enc := by
  obtain ⟨ts, n, hu⟩ := nextTurn_state s
  rw [hu]

@[simp] theorem nextTurn_dec (s : State) : (nextTurn s).2.dec = s.dec := by
  obtain ⟨ts, n, hu⟩ := nextTurn_state s
  rw [hu]

@[simp] theorem nextTurn_encAction (s : State) : encAction (nextTurn s).2 = encAction s := by
  obtain ⟨ts, n, hu⟩ := nextTurn_state s
  rw [hu, encAction_turns]

/-! ### The code table -/

@[simp] theorem decStartEffect_tbl (s : State) : (decStartEffect s).tbl = s.tbl := by
  rcases decStartEffect_cases s with ⟨f, info, u, he, rfl | rfl⟩ | ⟨-, p, he, -⟩ <;> simp [he]

@[simp] theorem arrive_tbl (r : Ref) (s : State) : (arrive r s).tbl = s.tbl := by
  rcases arrive_cases r s with he | he | ⟨-, -, he⟩ | he <;> simp [he]

/-- Of the commands only `ENC_START` in `IDLE` writes the code table (R38). -/
theorem Commanded.tbl {s t : State} {i : Instr} (hc : Commanded s i t) (h : t.tbl ≠ s.tbl) :
    s.job = .idle ∧ i = .encStart := by
  cases hc with
  | encStart hj => exact ⟨hj, rfl⟩
  | _ => simp at h

/-- Settles O54, by the move that the step makes. -/
theorem tableWrittenOnlyByEncStart : Obligations.TableWrittenOnlyByEncStart := by
  intro s t hstep hne
  rw [← nextTurn_tbl s] at hne
  rw [← nextTurn_job s]
  have hmove := step_cases hstep
  generalize (nextTurn s).2 = u at hne hmove ⊢
  cases hmove with
  | command _ i hf he hc =>
    obtain ⟨w, ws, -, hd⟩ := hc
    obtain ⟨hj, rfl⟩ := (exec_command hd he).tbl hne
    exact .inr ⟨hj, _, hf⟩
  | encToken _ tok toks _ ha _ he =>
    rcases exec_encToken ha he with ⟨k, rfl, -⟩ | ⟨info, rfl⟩ <;> simp at hne
  | decToken _ tok toks _ ha _ he =>
    rcases exec_decToken ha he with ⟨b, rfl⟩ | rfl | ⟨info, rfl⟩ | ⟨rfl, -, -⟩ <;> simp at hne
  | decBit => simp [decBit] at hne
  | reset h => exact .inl h
  | _ => simp at hne

/-! ### `ERR` and `FAULT` -/

/-- No bit of `ERR` is cleared (R28), and `FAULT` is kept but for a job fault, which halts the job (R31). -/
def FaultsKept (s t : State) : Prop :=
  (∀ f : ErrBit, errHas f s.err = true → errHas f t.err = true)
    ∧ (t.fault ≠ s.fault → t.job = .halted ∧ s.job ≠ .halted)

theorem faultsKept_of_eq {s t : State} (he : t.err = s.err) (hf : t.fault = s.fault) : FaultsKept s t :=
  ⟨fun _ h => he ▸ h, fun h => absurd hf h⟩

theorem errHas_errSet_of_errHas {f g : ErrBit} {e : BitVec 10} (h : errHas g e = true) : errHas g (errSet f e) = true := by
  rw [errHas_errSet, h, Bool.true_or]

theorem faultsKept_of_errSet {s t : State} (f : ErrBit) (he : t.err = errSet f s.err) (hf : t.fault = s.fault) :
    FaultsKept s t :=
  ⟨fun _ h => he ▸ errHas_errSet_of_errHas h, fun h => absurd hf h⟩

theorem faultsKept_raise {s u : State} (f : JobFault) (info : BitVec 9) (hu : u.err = s.err) (hj : s.job ≠ .halted) :
    FaultsKept s (raise f info u) :=
  ⟨fun g h => by simpa [hu] using errHas_errSet_of_errHas h, fun _ => ⟨rfl, hj⟩⟩

/-- Of the commands only `CLRERR` clears an error or a fault. -/
theorem Commanded.faultsKept {s t : State} {i : Instr} (hc : Commanded s i t) (hi : i ≠ .clrerr) : FaultsKept s t := by
  cases hc with
  | illcmd => exact faultsKept_of_errSet .illcmd rfl rfl
  | busy => exact faultsKept_of_errSet .busycmd rfl rfl
  | badaddr => exact faultsKept_of_errSet .badaddr rfl rfl
  | encStart hj =>
    rcases encStartEffect_cases s with ⟨f, info, tbl, -, he⟩ | ⟨tbl, -, he⟩ <;> rw [he]
    · exact faultsKept_raise f info rfl (by simp [hj])
    · exact faultsKept_of_eq rfl rfl
  | decStart hj =>
    rcases decStartEffect_cases s with ⟨f, info, u, he, hu⟩ | ⟨-, p, he, -⟩ <;> rw [he]
    · exact faultsKept_raise f info (by rcases hu with rfl | rfl <;> rfl) (by simp [hj])
    · exact faultsKept_of_eq rfl rfl
  | clrerr => exact absurd rfl hi
  | nop | setroot | ldnode | clrtree | abort | rdreg => exact faultsKept_of_eq rfl rfl

theorem faultsKept_decBit {s : State} (hj : s.job = .dec) : FaultsKept s (decBit s) := by
  unfold decBit
  rcases arrive_cases (child (s.node s.dec.cur.val) (s.dec.sr.getLsbD 7)) (consumeBit s)
    with he | he | ⟨-, -, he⟩ | he <;> rw [he]
  · exact faultsKept_of_eq rfl rfl
  · exact faultsKept_of_eq rfl rfl
  · exact faultsKept_of_eq rfl rfl
  · exact faultsKept_raise _ _ rfl (by simp [hj])

/-- Settles O55, by the move that the step makes. -/
theorem errIsStickyAndFaultIsKept : Obligations.ErrIsStickyAndFaultIsKept := by
  intro s t hstep hreset hclr
  rw [← nextTurn_err s, ← nextTurn_fault s, ← nextTurn_job s]
  have hmove := step_cases hstep
  generalize (nextTurn s).2 = u at hmove ⊢
  show FaultsKept u t
  cases hmove with
  | illcmd => exact faultsKept_of_errSet .illcmd rfl rfl
  | command _ i hf he hc =>
    obtain ⟨w, ws, -, hd⟩ := hc
    exact (exec_command hd he).faultsKept fun hi => hclr ⟨_, hi ▸ hf⟩
  | encToken _ tok toks _ ha _ he =>
    rcases exec_encToken ha he with ⟨k, rfl, -⟩ | ⟨info, rfl⟩
    · exact faultsKept_of_eq rfl rfl
    · exact faultsKept_raise _ _ rfl (by simp [(encAction_some ha).1])
  | decToken _ tok toks _ ha _ he =>
    rcases exec_decToken ha he with ⟨b, rfl⟩ | rfl | ⟨info, rfl⟩ | ⟨rfl, -, -⟩
    · exact faultsKept_of_eq rfl rfl
    · exact faultsKept_of_eq rfl rfl
    · exact faultsKept_raise _ _ rfl (by simp [(decAction_some ha).1])
    · exact faultsKept_of_eq rfl rfl
  | decBit _ ha => exact faultsKept_decBit (decAction_some ha).1
  | reset h => exact absurd h hreset
  | _ => exact faultsKept_of_eq (by simp) (by simp)

/-! ### The engines' registers -/

@[simp] theorem encStartEffect_dec (s : State) : (encStartEffect s).dec = s.dec := by
  rcases encStartEffect_cases s with ⟨f, info, tbl, -, he⟩ | ⟨tbl, -, he⟩ <;> simp [he]

@[simp] theorem decStartEffect_enc (s : State) : (decStartEffect s).enc = s.enc := by
  rcases decStartEffect_cases s with ⟨f, info, u, he, rfl | rfl⟩ | ⟨-, p, he, -⟩ <;> simp [he]

@[simp] theorem arrive_enc (r : Ref) (s : State) : (arrive r s).enc = s.enc := by
  rcases arrive_cases r s with he | he | ⟨-, -, he⟩ | he <;> simp [he]

/-- Of the commands only an engine's own start command writes its registers (R48). -/
theorem Commanded.engines {s t : State} {i : Instr} (hc : Commanded s i t) :
    (t.enc ≠ s.enc → i = .encStart) ∧ (t.dec ≠ s.dec → i = .decStart) := by
  cases hc <;> simp

/-- Settles O56, by the move that the step makes. -/
theorem engineRegistersHaveTheirWriters : Obligations.EngineRegistersHaveTheirWriters := by
  intro s t hstep hreset
  rw [← nextTurn_enc s, ← nextTurn_dec s]
  have hmove := step_cases hstep
  generalize (nextTurn s).2 = u at hmove ⊢
  cases hmove with
  | command _ i hf he hc =>
    obtain ⟨w, ws, -, hd⟩ := hc
    obtain ⟨henc, hdec⟩ := (exec_command hd he).engines
    exact ⟨fun h => .inr ⟨_, henc h ▸ hf⟩, fun h => .inr ⟨_, hdec h ▸ hf⟩⟩
  | encToken h tok toks _ ha _ he =>
    refine ⟨fun _ => .inl h, fun hne => ?_⟩
    rcases exec_encToken ha he with ⟨k, rfl, -⟩ | ⟨info, rfl⟩ <;> simp at hne
  | decToken h tok toks _ ha _ he =>
    refine ⟨fun hne => ?_, fun _ => .inl h⟩
    rcases exec_decToken ha he with ⟨b, rfl⟩ | rfl | ⟨info, rfl⟩ | ⟨rfl, -, -⟩ <;> simp at hne
  | encShift h | encNext h | encByte h | encPad h | encEnd h =>
    exact ⟨fun _ => .inl h, fun hne => absurd (by simp) hne⟩
  | decBit h => exact ⟨fun hne => absurd (by simp [decBit]) hne, fun _ => .inl h⟩
  | decEmit h | decFin h => exact ⟨fun hne => absurd rfl hne, fun _ => .inl h⟩
  | reset h => exact absurd h hreset
  | pass | illcmd | response | offer => simp

/-! ### `JOB` -/

/-- A job fault halts the job and is recorded (R196). -/
def Halted (s t : State) : Prop :=
  t.job = .halted ∧ ∃ f : JobFault, t.err = errSet f.bit s.err ∧ t.fault.cause = f.cause

theorem halted_raise {s u : State} (f : JobFault) (info : BitVec 9) (hu : u.err = s.err) : Halted s (raise f info u) :=
  ⟨rfl, f, by simp [hu], rfl⟩

/-- Where a command changes `JOB`, it is `ABORT`, or in `IDLE` a start command, whose job starts or faults (R45). -/
theorem Commanded.job {s t : State} {i : Instr} (hc : Commanded s i t) (h : t.job ≠ s.job) :
    (t.job = .idle ∧ i = .abort)
      ∨ (s.job = .idle ∧ ((t.job = .enc ∧ i = .encStart) ∨ (t.job = .dec ∧ i = .decStart)
          ∨ (Halted s t ∧ (i = .encStart ∨ i = .decStart)))) := by
  cases hc with
  | abort => exact .inl ⟨rfl, rfl⟩
  | encStart hj =>
    refine .inr ⟨hj, ?_⟩
    rcases encStartEffect_cases s with ⟨f, info, tbl, -, he⟩ | ⟨tbl, -, he⟩ <;> rw [he]
    · exact .inr (.inr ⟨halted_raise f info rfl, .inl rfl⟩)
    · exact .inl ⟨rfl, rfl⟩
  | decStart hj =>
    refine .inr ⟨hj, ?_⟩
    rcases decStartEffect_cases s with ⟨f, info, u, he, hu⟩ | ⟨-, p, he, -⟩ <;> rw [he]
    · exact .inr (.inr ⟨halted_raise f info (by rcases hu with rfl | rfl <;> rfl), .inr rfl⟩)
    · exact .inr (.inl ⟨rfl, rfl⟩)
  | _ => simp at h

/-- DEC-BIT keeps `JOB` or raises `BADNODE` (R144, R145). -/
theorem decBit_job (s : State) : (decBit s).job = s.job ∨ Halted s (decBit s) := by
  unfold decBit
  rcases arrive_cases (child (s.node s.dec.cur.val) (s.dec.sr.getLsbD 7)) (consumeBit s)
    with he | he | ⟨-, -, he⟩ | he <;> rw [he]
  · exact .inl rfl
  · exact .inl rfl
  · exact .inl rfl
  · exact .inr (halted_raise _ _ rfl)

/-- Settles O52, by the move that the step makes. -/
theorem jobChangesOnlyAsR45Says : Obligations.JobChangesOnlyAsR45Says := by
  intro s t hstep hne
  rw [← nextTurn_job s, ← nextTurn_encAction s, ← nextTurn_dec s, ← nextTurn_err s]
  rw [← nextTurn_job s] at hne
  have hmove := step_cases hstep
  generalize (nextTurn s).2 = u at hne hmove ⊢
  cases hmove with
  | command _ i hf he hc =>
    obtain ⟨w, ws, -, hd⟩ := hc
    rcases (exec_command hd he).job hne with
      ⟨ht, rfl⟩ | ⟨hj, ⟨ht, rfl⟩ | ⟨ht, rfl⟩ | ⟨⟨ht, hfault⟩, hi⟩⟩
    · exact .inl ⟨ht, .inr (.inl ⟨_, hf⟩)⟩
    · exact .inr (.inl ⟨ht, hj, _, hf⟩)
    · exact .inr (.inr (.inl ⟨ht, hj, _, hf⟩))
    · refine .inr (.inr (.inr ⟨ht, hfault, .inl ⟨hj, takeCmd u, ?_⟩⟩))
      rcases hi with rfl | rfl
      · exact .inl hf
      · exact .inr hf
  | encToken h tok toks _ ha _ he =>
    rcases exec_encToken ha he with ⟨k, rfl, -⟩ | ⟨info, rfl⟩
    · simp at hne
    · obtain ⟨ht, hfault⟩ := halted_raise (s := u) .unksym info (takeEncIn_err u)
      exact .inr (.inr (.inr ⟨ht, hfault, .inr (.inl ⟨(encAction_some ha).1, h⟩)⟩))
  | encEnd h ha => exact .inl ⟨rfl, .inr (.inr (.inl ⟨(encAction_some ha).1, h, ha⟩))⟩
  | decToken h tok toks _ ha hf he =>
    rcases exec_decToken ha he with ⟨b, rfl⟩ | rfl | ⟨info, rfl⟩ | ⟨rfl, hp, d, hd⟩
    · simp at hne
    · simp at hne
    · obtain ⟨ht, hfault⟩ := halted_raise (s := u) .trunc info (takeDecIn_err u)
      exact .inr (.inr (.inr ⟨ht, hfault, .inr (.inr ⟨(decAction_some ha).1, h⟩)⟩))
    · exact .inl ⟨rfl, .inr (.inr (.inr ⟨(decAction_some ha).1, hp, d, u, hd ▸ hf⟩))⟩
  | decBit h ha =>
    rcases decBit_job u with hj | ⟨ht, hfault⟩
    · exact absurd hj hne
    · exact .inr (.inr (.inr ⟨ht, hfault, .inr (.inr ⟨(decAction_some ha).1, h⟩)⟩))
  | reset h => exact .inl ⟨rfl, .inl h⟩
  | _ => simp at hne

end Sys2Proof.Machine
end

section
/-! PROOFS. The register space bit for bit (10_state.md R29 to R32, R39; 30_encoding.md R104; 40_config_commands.md R133). -/

namespace Sys2Proof.Machine

/-! ### Which word an address names (R133) -/

theorem regRead_node (s : State) (i : Byte) : regRead (0x0100#16 + i.setWidth 16) s = nodeWord (s.node i) := by
  have hi : i.toNat < 256 := i.isLt
  have ha : (0x0100#16 + i.setWidth 16).toNat = 256 + i.toNat := by bv_omega
  have hword : regRead (0x0100#16 + i.setWidth 16) s = nodesWord s i.toNat := by
    simp (disch := omega) only [regRead, ha, if_neg, if_pos, Nat.add_sub_cancel_left]
  rw [hword, nodesWord, Vector.getElem?_eq_getElem hi]
  rfl


theorem tblWord_entry {s : State} {k : SymId} {e : TblEntry} (he : s.entry k = some e) (f : TblEntry → Word) :
    tblWord f s k.toNat = f e := by
  have hget : s.tbl[k.toNat]? = some e := he
  rw [tblWord, hget]

theorem regRead_clen {s : State} {k : SymId} {e : TblEntry} (he : s.entry k = some e) :
    regRead (0x0200#16 + k.setWidth 16) s = clenWord e := by
  have hk : k.toNat < 257 := (entryOf_isSome_iff s.tbl k).mp (Option.isSome_of_eq_some he)
  have ha : (0x0200#16 + k.setWidth 16).toNat = 512 + k.toNat := by bv_omega
  have hword : regRead (0x0200#16 + k.setWidth 16) s = tblWord clenWord s k.toNat := by
    simp (disch := omega) only [regRead, ha, if_neg, if_pos, Nat.add_sub_cancel_left]
  rw [hword, tblWord_entry he]

theorem regRead_cbits {s : State} {k : SymId} {e : TblEntry} (he : s.entry k = some e) {w : Nat} (hw : w < 8) :
    regRead (0x0800#16 + 8#16 * k.setWidth 16 + BitVec.ofNat 16 w) s = cbitsWord e w := by
  have hk : k.toNat < 257 := (entryOf_isSome_iff s.tbl k).mp (Option.isSome_of_eq_some he)
  have ha : (0x0800#16 + 8#16 * k.setWidth 16 + BitVec.ofNat 16 w).toNat = 2048 + 8 * k.toNat + w := by bv_omega
  have hword : regRead (0x0800#16 + 8#16 * k.setWidth 16 + BitVec.ofNat 16 w) s
      = tblWord (fun e => cbitsWord e w) s k.toNat := by
    simp (disch := omega) only [regRead, ha, if_neg, if_pos]
    rw [show 2048 + 8 * k.toNat + w - 2048 = w + 8 * k.toNat by omega, Nat.add_mul_mod_self_left,
      Nat.mod_eq_of_lt hw, Nat.add_mul_div_left _ _ (by decide), Nat.div_eq_of_lt hw, Nat.zero_add]
  rw [hword, tblWord_entry he]

/-! ### The fields of a word -/

theorem zero_append_eq_setWidth {n m : Nat} (x : BitVec m) : 0#n ++ x = x.setWidth (n + m) := by
  rw [← BitVec.setWidth_eq (0#n ++ x), BitVec.setWidth_append_eq_shiftLeft_setWidth_or]
  simp

theorem rootWord_fields (ref : Ref) : (1#1 ++ 0#21 ++ ref : BitVec 32) = validBit ||| ref.setWidth 32 := by
  refine (BitVec.setWidth_eq _).symm.trans (BitVec.setWidth_append_append_eq_shiftLeft_setWidth_or.trans ?_)
  simp [validBit]

theorem clenWord_fields (n : BitVec 9) : (1#1 ++ 0#22 ++ n : BitVec 32) = validBit ||| n.setWidth 32 := by
  refine (BitVec.setWidth_eq _).symm.trans (BitVec.setWidth_append_append_eq_shiftLeft_setWidth_or.trans ?_)
  simp [validBit]

theorem nodeWord_fields (l r : Ref) :
    (1#1 ++ 0#11 ++ l ++ r : BitVec 32) = validBit ||| (l.setWidth 32 <<< 10 ||| r.setWidth 32) := by
  refine (BitVec.setWidth_eq _).symm.trans (BitVec.setWidth_append_append_append_eq_shiftLeft_setWidth_or.trans ?_)
  simp [validBit, BitVec.or_assoc]

theorem faultWord_fields (info : BitVec 9) (cause : BitVec 4) :
    (0#7 ++ info ++ 0#12 ++ cause : BitVec 32) = info.setWidth 32 <<< 16 ||| cause.setWidth 32 := by
  refine (BitVec.setWidth_eq _).symm.trans (BitVec.setWidth_append_append_append_eq_shiftLeft_setWidth_or.trans ?_)
  simp

/-- Settles O22: each address reads its register's word, and that word is the fields put together. -/
theorem registerWordLayouts : Obligations.RegisterWordLayouts := by
  intro s
  refine ⟨?_, ?_, ?_, ?_, fun i => ?_, fun k e he _ => ?_⟩
  · rw [zero_append_eq_setWidth]
    cases hj : s.job <;> simp [regRead, statusWord, hj, Job.code]
  · exact (zero_append_eq_setWidth s.err).symm
  · exact (faultWord_fields s.fault.info s.fault.cause).symm
  · rw [rootWord_fields]
    rfl
  · rw [regRead_node, nodeWord_fields]
    rfl
  · rw [regRead_clen he, clenWord_fields]
    rfl

/-! ### The path bits (R39) -/

theorem testBit_bitsToNat (l : List Bool) (j : Nat) : (bitsToNat l).testBit j = l.getD j false := by
  induction l generalizing j with
  | nil => simp [bitsToNat]
  | cons b l ih =>
    cases j with
    | zero => cases b <;> simp [bitsToNat, Nat.testBit_zero]
    | succ j =>
      have hhalf : bitsToNat (b :: l) / 2 = bitsToNat l := by
        cases b
        · simp [bitsToNat]
        · simp only [bitsToNat, Bool.toNat_true]
          omega
      rw [Nat.testBit_succ, hhalf, ih, List.getD_cons_succ]

/-- Bit `j` of `CBITS[k][w]` (R39). -/
theorem getLsbD_cbitsWord (e : TblEntry) (w : Nat) {j : Nat} (hj : j < 32) :
    (cbitsWord e w).getLsbD j = (e.v && e.path.getD (32 * w + j) false) := by
  unfold cbitsWord
  split
  · rename_i hv
    have hbit : ((e.path.drop (32 * w)).take 32).getD j false = e.path.getD (32 * w + j) false := by
      simp [List.getD_eq_getElem?_getD, hj, List.getElem?_drop]
    rw [BitVec.getLsbD_ofNat, testBit_bitsToNat, hbit]
    simp [hj, hv]
  · rename_i hv
    simp [hv]

/-- Settles O23: the address reads the entry's word `w`, whose bit `j` is the path's. -/
theorem cbitsReadsThePathBits : Obligations.CbitsReadsThePathBits := by
  intro s k e w j he hw hj
  rw [regRead_cbits he hw, getLsbD_cbitsWord e w hj]

end Sys2Proof.Machine
end

section
/-! PROOFS. Reset (10_state.md R47, 70_reset_and_hazards.md R220, R221), the pending response (R44, R132, R226), and the
engines and pins outside a job (R42, R43, R45). -/

namespace Sys2Proof.Machine

/-! ### Reset -/

theorem node_reset (i : Byte) : State.reset.node i = { v := false, left := 0, right := 0 } := by
  simp [State.node, State.reset]

theorem hasEntry_reset (k : SymId) : hasEntry State.reset.tbl k = false := by
  rw [← Bool.not_eq_true, hasEntry_iff]
  rintro ⟨p, hp⟩
  simp [entryOf, State.reset, Vector.getElem?_replicate] at hp

/-- Settles O11: the stores are read entry by entry, every other field as it stands in `State.reset`. -/
theorem resetValues : Obligations.ResetValues :=
  ⟨rfl, rfl, rfl, rfl, rfl, fun i => by rw [node_reset], hasEntry_reset, rfl, rfl, rfl⟩

/-- Settles O12: the step on a reset turn is the reset event, which gives the block's fields their reset values. -/
theorem resetEmptiesTheBlock : Obligations.ResetEmptiesTheBlock := by
  intro s ts hts
  obtain ⟨hjob, herr, hcause, hinfo, hroot, hnodes, htbl, hrsp, -⟩ := resetValues
  exact ⟨resetEvent { s with turns := ts }, step_given hts, hjob, herr, hcause, hinfo, hroot, hnodes, htbl, hrsp,
    rfl, rfl, rfl⟩

/-! ### The pending response -/

theorem commandTurn_pending {s : State} (hv : s.rsp.v = true) : commandTurn s = .done (.next s) := by
  simp [commandTurn, hv]

/-- Settles O8: the command unit's turn passes, and no engine's guard reads the response slot. -/
theorem pendingResponseBlocksCommandsOnly : Obligations.PendingResponseBlocksCommandsOnly := by
  refine ⟨fun s ts hts hv => ?_, fun s r => ⟨rfl, rfl⟩⟩
  have hturn : commandTurn { s with turns := ts } = .done (.next { s with turns := ts }) := commandTurn_pending hv
  rw [step_given hts, takeTurn, hturn, runFetched]

/-! ### The engines outside a job -/

theorem encAction_eq_none {s : State} (h : s.job ≠ .enc) : encAction s = none := by
  simp [encAction, h]

theorem decAction_eq_none {s : State} (h : s.job ≠ .dec) : decAction s = none := by
  simp [decAction, h]

/-- Settles O58: an engine has a step only in its own job. -/
theorem oneEngineAtATime : Obligations.OneEngineAtATime := by
  refine fun s => ⟨fun hj => ?_, ?_, busyPin_iff s, by simp [faultPin]⟩
  · rcases hj with hj | hj <;> exact ⟨encAction_eq_none (by simp [hj]), decAction_eq_none (by simp [hj])⟩
  · by_cases hj : s.job = .enc
    · exact .inr (decAction_eq_none (by simp [hj]))
    · exact .inl (encAction_eq_none hj)

end Sys2Proof.Machine
end

section
/-! PROOFS. The table build on valid trees (10_state.md R35, R36; 42_table_build.md R160 to R166): a valid tree is less than
256 internal nodes deep, its leaves' symbols fit the table, and a build succeeds exactly on a valid tree. -/

namespace Sys2Proof.Machine

/-! ### The refs of a legal tree -/

/-- Every ref met from a legal root is legal (R36). -/
theorem TreeLegal.reserved_follow {root : RootReg} {nodes : Nodes} (h : TreeLegal root nodes) {r r' : Ref} {p : Path}
    (hr : Ref.reserved r = false) (hf : follow nodes r p = some r') : Ref.reserved r' = false := by
  induction p generalizing r with
  | nil =>
    obtain rfl : r = r' := by simpa [follow] using hf
    exact hr
  | cons b p ih =>
    simp only [follow] at hf
    split at hf
    · cases hf
    · split at hf
      · exact ih (h.reserved_child ‹_› b) hf
      · cases hf

/-- A legal leaf's symbol id is a byte or the end-of-stream marker (R96, R97). -/
theorem sym_toNat_lt {r : Ref} (hr : Ref.reserved r = false) (hl : Ref.isLeaf r = true) : (Ref.sym r).toNat < 257 := by
  have hsym : (Ref.sym r).toNat = r.toNat % 512 := by simp [Ref.sym]
  rw [Ref.isLeaf] at hl
  rw [Ref.reserved, hl] at hr
  rcases h8 : r.getLsbD 8 with _ | _
  · have hbit : r.toNat / 256 % 2 = 0 := by
      simpa [BitVec.getLsbD, Nat.testBit_eq_decide_div_mod_eq] using h8
    omega
  · have hval : r.setWidth 8 = 0#8 := by simpa [h8] using hr
    have hmod : r.toNat % 256 = 0 := by simpa using congrArg BitVec.toNat hval
    omega

/-- The leaves of a legal tree have entries in the table (R37). -/
theorem TreeLegal.leafAt_toNat_lt {root : RootReg} {nodes : Nodes} (h : TreeLegal root nodes) (hv : root.v = true)
    {p : Path} {k : SymId} (hk : leafAt nodes root.ref p k) : k.toNat < 257 := by
  obtain ⟨r, hf, hl, rfl⟩ := hk
  exact sym_toNat_lt (h.reserved_follow (h.1 hv) hf) hl

/-! ### A finite tree is at most 256 levels deep -/

/-- The walk along a path passes the place that each first part of it leads to. -/
theorem follow_take {nodes : Nodes} {r r' : Ref} {p : Path} (hf : follow nodes r p = some r') (k : Nat) :
    ∃ x, follow nodes r (p.take k) = some x ∧ follow nodes x (p.drop k) = some r' := by
  rw [← List.take_append_drop k p, follow_append] at hf
  simpa [Option.bind_eq_some_iff] using hf

/-- Internal refs of one index lead to the same places. -/
theorem follow_cons_congr {nodes : Nodes} {x y : Ref} (hx : Ref.isLeaf x = false) (hy : Ref.isLeaf y = false)
    (hval : Ref.val x = Ref.val y) (b : Bool) (p : Path) : follow nodes x (b :: p) = follow nodes y (b :: p) := by
  simp only [follow, hx, hy, hval]

/-- A path that leads back to where it starts can be walked any number of times. -/
theorem follow_cycle {nodes : Nodes} {r : Ref} {w : Path} (h : follow nodes r w = some r) (m : Nat) :
    follow nodes r (List.replicate m w).flatten = some r := by
  induction m with
  | zero => rfl
  | succ m ih => rw [List.replicate_succ, List.flatten_cons, follow_append, h]; exact ih

/-- No walk in a finite tree meets the same internal entry twice: the way from the one place to the other could be walked
again without end. -/
theorem val_ne_of_finite {nodes : Nodes} {r x y : Ref} {n : Nat} {p w : Path}
    (hfin : ∀ q z, follow nodes r q = some z → q.length ≤ n) (hx : follow nodes r p = some x)
    (hy : follow nodes x w = some y) (hw : w ≠ []) (hxl : Ref.isLeaf x = false) (hyl : Ref.isLeaf y = false) :
    Ref.val x ≠ Ref.val y := by
  intro hval
  obtain ⟨b, v, rfl⟩ := List.exists_cons_of_ne_nil hw
  have hcycle : follow nodes y (b :: v) = some y := by rw [← follow_cons_congr hxl hyl hval]; exact hy
  have hlong : follow nodes r (p ++ (b :: v) ++ (List.replicate (n + 1) (b :: v)).flatten) = some y := by
    rw [follow_append, follow_append, hx]
    simp only [Option.bind_some, hy]
    exact follow_cycle hcycle _
  have hlen := hfin _ _ hlong
  simp at hlen
  nlinarith

/-- The internal refs of a finite tree are less than 256 deep: there are 256 entries, and no walk meets one twice (R35). -/
theorem length_lt_of_finite {nodes : Nodes} {r r' : Ref} {n : Nat} {p : Path}
    (hfin : ∀ q z, follow nodes r q = some z → q.length ≤ n) (hf : follow nodes r p = some r')
    (hl : Ref.isLeaf r' = false) : p.length < 256 := by
  by_contra hlen
  have hplace : ∀ k : Fin 257, ∃ x, follow nodes r (p.take k) = some x ∧ Ref.isLeaf x = false := by
    intro k
    obtain ⟨x, hx, hrest⟩ := follow_take hf k
    refine ⟨x, hx, ?_⟩
    by_contra hxl
    obtain ⟨-, rfl⟩ := follow_leaf (by simpa using hxl) hrest
    exact hxl hl
  choose place hplace hinner using hplace
  have hdistinct : ∀ i j : Fin 257, i < j → Ref.val (place i) ≠ Ref.val (place j) := by
    intro i j hij
    obtain ⟨x, hx, hw⟩ := follow_take (hplace j) i
    rw [List.take_take, Nat.min_eq_left (by omega), hplace i] at hx
    obtain rfl := Option.some.inj hx
    refine val_ne_of_finite hfin (hplace i) hw ?_ (hinner i) (hinner j)
    simp only [ne_eq, List.drop_eq_nil_iff, List.length_take]
    omega
  obtain ⟨i, j, hij, heq⟩ := Fintype.exists_ne_map_eq_of_card_lt (fun k => (Ref.val (place k)).toFin) (by simp)
  have hval : Ref.val (place i) = Ref.val (place j) := BitVec.eq_of_toFin_eq heq
  rcases lt_or_gt_of_ne hij with h | h
  · exact hdistinct i j h hval
  · exact hdistinct j i h hval.symm

/-! ### The build -/

/-- The table after a build without a fault holds exactly the leaves' paths (R164). -/
theorem holdsPath_of_build_none {root : RootReg} {nodes : Nodes} {t t' : Tbl} (htree : TreeLegal root nodes)
    (hb : build root nodes (invalidateTbl t) = (none, t')) (k : SymId) (p : Path) :
    holdsPath t' k p ↔ leafAt nodes root.ref p k := by
  obtain ⟨hv, hvisit, -⟩ := build_none hb
  obtain ⟨hholds, -⟩ := visit_none hvisit
  rw [hholds]
  constructor
  · rintro (h | ⟨q, rfl, hq, -⟩)
    · exact absurd h (not_holdsPath_invalidateTbl t k p)
    · simpa using hq
  · exact fun h => .inr ⟨p, rfl, h, htree.leafAt_toNat_lt hv h⟩

/-- A build without a fault went over a valid tree (R164). -/
theorem validTree_of_build_none {s : State} {t t' : Tbl} (htree : TreeLegal s.root s.nodes)
    (hb : build s.root s.nodes (invalidateTbl t) = (none, t')) : s.ValidTree := by
  obtain ⟨hv, hvisit, heof⟩ := build_none hb
  obtain ⟨-, hdepth⟩ := visit_none hvisit
  have hholds := holdsPath_of_build_none htree hb
  obtain ⟨p, hp⟩ := (hasEntry_iff_holdsPath _ _).mp heof
  exact {
    rootValid := hv
    finite := ⟨Config.maxLen, fun q r hf => (hdepth q r hf).1⟩
    nodesValid := fun q r hf hl => ((hdepth q r hf).2 hl).1
    symbolsUnique := fun q q' k hq hq' => holdsPath_inj ((hholds k q).mpr hq) ((hholds k q').mpr hq')
    eofReached := ⟨p, (hholds _ _).mp hp⟩ }

/-- The traversal of a valid tree meets no defect: every internal ref names a valid entry less than 256 deep, and the leaf to
the left of a doubled one would be the leaf itself (R161, R162, R164). -/
theorem visit_of_validTree {s : State} (h : s.ValidTree) (t : Tbl) :
    ∃ t', visit s.nodes Config.maxLen s.root.ref [] (invalidateTbl t) = (none, t') := by
  obtain ⟨n, hfin⟩ := h.finite
  rcases hvisit : visit s.nodes Config.maxLen s.root.ref [] (invalidateTbl t) with ⟨_ | ⟨f, info⟩, t'⟩
  · exact ⟨t', rfl⟩
  · obtain ⟨p, -, hholds, -, hdefect⟩ := visit_some hvisit
    exfalso
    rcases hdefect with ⟨-, r, hf, hl, hv, -⟩ | ⟨-, hleaf, q, hq⟩ | ⟨-, r, hf, hl, -, hlen, -⟩
    · have hvalid : (s.nodes[(Ref.val r).toNat]'(Ref.val r).isLt).v = true := h.nodesValid p r hf hl
      simp [hv] at hvalid
    · rcases (hholds info q).mp hq with hno | ⟨q', -, hq', hleft, -⟩
      · exact not_holdsPath_invalidateTbl t info q hno
      · rw [h.symbolsUnique q' p info hq' hleaf, leftOf_irrefl] at hleft
        cases hleft
    · exact absurd (length_lt_of_finite hfin hf hl) (by simp [hlen])

/-- The build of a valid tree meets no fault. -/
theorem build_of_validTree {s : State} (h : s.ValidTree) (t : Tbl) :
    ∃ t', build s.root s.nodes (invalidateTbl t) = (none, t') := by
  obtain ⟨t', hvisit⟩ := visit_of_validTree h t
  obtain ⟨p, hp⟩ := h.eofReached
  have heof : hasEntry t' Config.eofId = true :=
    (hasEntry_iff_holdsPath _ _).mpr ⟨p, ((visit_none hvisit).1 _ _).mpr (.inr ⟨p, rfl, hp, by decide⟩)⟩
  refine ⟨t', ?_⟩
  rw [build, if_pos h.rootValid, hvisit]
  exact if_pos heof

/-- Settles O24: the build of a valid tree meets no fault, and its table is that of a traversal without one. -/
theorem encStartBuildsValidTree : Obligations.EncStartBuildsValidTree := by
  intro s hinv hj hvalid
  obtain ⟨htree, -⟩ := s.inv_iff.mp hinv
  obtain ⟨tbl, hb⟩ := build_of_validTree hvalid s.tbl
  refine ⟨startEncoder { s with tbl := tbl }, ?_, holdsPath_of_build_none htree hb, rfl⟩
  simp only [exec, execEncStart, whenIdle_idle hj, encStartEffect, hb]

/-- Settles O25: `JOB` is `ENC` only after a build without a fault. -/
theorem encStartAcceptsOnlyValidTrees : Obligations.EncStartAcceptsOnlyValidTrees := by
  intro s t hinv hj he ht
  obtain ⟨htree, -⟩ := s.inv_iff.mp hinv
  obtain rfl : encStartEffect s = t := by simpa [exec, execEncStart, whenIdle_idle hj] using he
  rcases encStartEffect_cases s with ⟨f, info, tbl, -, heff⟩ | ⟨tbl, hb, heff⟩ <;> rw [heff] at ht ⊢
  · cases ht
  · exact ⟨validTree_of_build_none htree hb, holdsPath_of_build_none htree hb⟩

end Sys2Proof.Machine
end

section
/-! PROOFS. What leaves the tree store alone and what moves at the channels (20_memory.md R66, R67, R72, R75; R132, R224). -/

namespace Sys2Proof.Machine

/-! ### The turn used up changes neither the tree store nor the channels -/

@[simp] theorem nextTurn_root (s : State) : (nextTurn s).2.root = s.root := by
  obtain ⟨ts, n, hu⟩ := nextTurn_state s
  rw [hu]

@[simp] theorem nextTurn_nodes (s : State) : (nextTurn s).2.nodes = s.nodes := by
  obtain ⟨ts, n, hu⟩ := nextTurn_state s
  rw [hu]

@[simp] theorem nextTurn_rsp (s : State) : (nextTurn s).2.rsp = s.rsp := by
  obtain ⟨ts, n, hu⟩ := nextTurn_state s
  rw [hu]

@[simp] theorem nextTurn_ports (s : State) : (nextTurn s).2.ports = s.ports := by
  obtain ⟨ts, n, hu⟩ := nextTurn_state s
  rw [hu]

@[simp] theorem nextTurn_encOutOffer (s : State) : encOutOffer (nextTurn s).2 = encOutOffer s := by
  obtain ⟨ts, n, hu⟩ := nextTurn_state s
  rw [hu]
  rfl

@[simp] theorem nextTurn_decOutOffer (s : State) : decOutOffer (nextTurn s).2 = decOutOffer s := by
  obtain ⟨ts, n, hu⟩ := nextTurn_state s
  rw [hu]
  rfl

/-! ### The tree store -/

@[simp] theorem arrive_root (r : Ref) (s : State) : (arrive r s).root = s.root := by
  rcases arrive_cases r s with he | he | ⟨-, -, he⟩ | he <;> simp [he]

@[simp] theorem arrive_nodes (r : Ref) (s : State) : (arrive r s).nodes = s.nodes := by
  rcases arrive_cases r s with he | he | ⟨-, -, he⟩ | he <;> simp [he]

/-- Outside `IDLE` no command writes the tree store: those that write it are rejected (R75, R224). -/
theorem Commanded.treeStore {s t : State} {i : Instr} (hc : Commanded s i t) (hj : s.job ≠ .idle) :
    t.root = s.root ∧ t.nodes = s.nodes := by
  cases hc with
  | setroot h | ldnode h | clrtree h | encStart h | decStart h => exact absurd h hj
  | nop | illcmd | busy | abort | clrerr | rdreg | badaddr => exact ⟨rfl, rfl⟩

/-- Settles O53, by the move that the step makes. -/
theorem treeStoreConstantOutsideIdle : Obligations.TreeStoreConstantOutsideIdle := by
  intro s t hstep hj hreset
  rw [← nextTurn_root s, ← nextTurn_nodes s]
  rw [← nextTurn_job s] at hj
  have hmove := step_cases hstep
  generalize (nextTurn s).2 = u at hj hmove ⊢
  cases hmove with
  | command _ i _ he hc =>
    obtain ⟨w, ws, -, hd⟩ := hc
    exact (exec_command hd he).treeStore hj
  | encToken _ tok toks _ ha _ he =>
    rcases exec_encToken ha he with ⟨k, rfl, -⟩ | ⟨info, rfl⟩ <;> exact ⟨rfl, rfl⟩
  | decToken _ tok toks _ ha _ he =>
    rcases exec_decToken ha he with ⟨b, rfl⟩ | rfl | ⟨info, rfl⟩ | ⟨rfl, -, -⟩ <;> exact ⟨rfl, rfl⟩
  | decBit => simp [decBit]
  | reset h => exact absurd h hreset
  | _ => simp

/-! ### The channels, turn by turn -/

@[simp] theorem encStartEffect_ports (s : State) : (encStartEffect s).ports = s.ports := by
  rcases encStartEffect_cases s with ⟨f, info, tbl, -, he⟩ | ⟨tbl, -, he⟩ <;> simp [he]

@[simp] theorem decStartEffect_ports (s : State) : (decStartEffect s).ports = s.ports := by
  rcases decStartEffect_cases s with ⟨f, info, u, he, rfl | rfl⟩ | ⟨-, p, he, -⟩ <;> simp [he]

@[simp] theorem arrive_ports (r : Ref) (s : State) : (arrive r s).ports = s.ports := by
  rcases arrive_cases r s with he | he | ⟨-, -, he⟩ | he <;> simp [he]

/-- No command moves anything at a channel: its word has been taken before it runs (R126). -/
theorem Commanded.ports {s t : State} {i : Instr} (hc : Commanded s i t) : t.ports = s.ports := by
  cases hc <;> simp

/-- The command unit's turn takes the oldest command word or nothing (R72, R126). -/
theorem commandTurn_ports {s t : State} (h : runFetched (commandTurn s) = .next t) :
    t.ports = s.ports ∨ t.ports = { s.ports with cmd := s.ports.cmd.tail } := by
  unfold commandTurn at h
  split at h
  · cases h
    exact .inl rfl
  · split at h
    · cases h
      exact .inl rfl
    · split at h
      · cases h
        exact .inr rfl
      · exact .inr (exec_command ‹_› h).ports

/-- The response's turn sends `RSPD` if a response is pending (R132). -/
theorem responseTurn_ports {s t : State} (h : runFetched (responseTurn s) = .next t) :
    t.ports = if s.rsp.v then { s.ports with rspOut := s.ports.rspOut ++ [s.rsp.data] } else s.ports := by
  unfold responseTurn at h
  cases h
  split <;> rfl

/-- The encoder's turn sends exactly the token on `enc_out` and takes at most the oldest one of `enc_in` (R67, R72). -/
theorem encoderTurn_ports {s t : State} (h : runFetched (encoderTurn s) = .next t) :
    ∃ toks, (toks = s.ports.encIn ∨ toks = s.ports.encIn.tail)
      ∧ t.ports = { s.ports with encIn := toks, encOut := s.ports.encOut ++ (encOutOffer s).toList } := by
  unfold encoderTurn at h
  unfold encOutOffer
  cases ha : encAction s with
  | none =>
    rw [ha] at h
    cases h
    exact ⟨_, .inl rfl, by simp⟩
  | some a =>
    rw [ha] at h
    cases a with
    | token =>
      cases ht : s.ports.encIn with
      | nil => exact absurd ht (encAction_some ha).2.2.2
      | cons tok toks =>
        simp only [ht] at h
        refine ⟨toks, .inr rfl, ?_⟩
        rcases exec_encToken ha h with ⟨k, rfl, -⟩ | ⟨info, rfl⟩ <;> simp [ht]
    | noEntry => cases h
    | shift | next | byte | pad | fin =>
      cases h
      exact ⟨_, .inl rfl, by simp⟩

/-- The decoder's turn sends exactly the token on `dec_out` and takes at most the oldest one of `dec_in` (R67, R72). -/
theorem decoderTurn_ports {s t : State} (h : runFetched (decoderTurn s) = .next t) :
    ∃ toks, (toks = s.ports.decIn ∨ toks = s.ports.decIn.tail)
      ∧ t.ports = { s.ports with decIn := toks, decOut := s.ports.decOut ++ (decOutOffer s).toList } := by
  unfold decoderTurn at h
  unfold decOutOffer
  cases ha : decAction s with
  | none =>
    rw [ha] at h
    cases h
    exact ⟨_, .inl rfl, by simp⟩
  | some a =>
    rw [ha] at h
    cases a with
    | token =>
      cases ht : s.ports.decIn with
      | nil => exact absurd ht (decAction_some ha).2.2
      | cons tok toks =>
        simp only [ht] at h
        refine ⟨toks, .inr rfl, ?_⟩
        rcases exec_decToken ha h with ⟨b, rfl⟩ | rfl | ⟨info, rfl⟩ | ⟨rfl, -, -⟩ <;> simp [ht]
    | bit | emit | fin =>
      cases h
      exact ⟨_, .inl rfl, by simp [decBit]⟩

/-- Settles O57, by whose turn it is. -/
theorem outputsAreWhatThePortsOffer : Obligations.OutputsAreWhatThePortsOffer := by
  intro s t hstep
  unfold rspValid rspData
  rw [← nextTurn_ports s, ← nextTurn_rsp s, ← nextTurn_encOutOffer s, ← nextTurn_decOutOffer s]
  rcases hn : nextTurn s with ⟨_ | m, u⟩
  · obtain rfl : u = t := by simpa [step, fetch, hn, runFetched] using hstep
    simp
  · rw [step_of_nextTurn hn] at hstep
    cases m with
    | command => rcases commandTurn_ports hstep with ht | ht <;> simp [ht]
    | response => cases hv : u.rsp.v <;> simp [responseTurn_ports hstep, hv]
    | encoder => obtain ⟨toks, rfl | rfl, ht⟩ := encoderTurn_ports hstep <;> simp [ht]
    | decoder => obtain ⟨toks, rfl | rfl, ht⟩ := decoderTurn_ports hstep <;> simp [ht]
    | reset | offerCmd | offerEncIn | offerDecIn =>
      cases hstep
      simp

end Sys2Proof.Machine
end

section
/-! PROOFS. An encode job (43_encoder.md R170 to R183): the bits of a byte in stream order, what each step of the encoder
does to the bits sent and collected, and the job from its first token to the `END` it sends. -/

namespace Sys2Proof.Machine

/-! ### The bits of a byte in stream order (R60, R61) -/

@[simp] theorem length_byteBits (b : Byte) : (byteBits b).length = 8 := rfl

/-- Shifting a bit in from the right drops the oldest bit and puts the new one last. -/
theorem byteBits_shiftIn (acc : Byte) (b : Bool) :
    byteBits (acc <<< 1 ||| (BitVec.ofBool b).setWidth 8) = (byteBits acc).tail ++ [b] := by
  simp [byteBits]

theorem byteBits_shiftLeft (acc : Byte) {k : Nat} (hk : k ≤ 8) :
    byteBits (acc <<< k) = (byteBits acc).drop k ++ List.replicate k false := by
  induction k with
  | zero => simp
  | succ k ih =>
    have hne : (byteBits acc).drop k ≠ [] := by
      simp only [ne_eq, List.drop_eq_nil_iff, length_byteBits]
      omega
    have hshift : byteBits (acc <<< (k + 1)) = (byteBits (acc <<< k)).tail ++ [false] := by
      rw [BitVec.shiftLeft_add]
      simpa using byteBits_shiftIn (acc <<< k) false
    rw [hshift, ih (by omega), List.tail_append_of_ne_nil hne, List.tail_drop, List.append_assoc, List.replicate_succ']

/-! ### The accumulator (R21) -/

@[simp] theorem accBits_zero (acc : Byte) : accBits acc 0 = [] := rfl

@[simp] theorem accBits_eight (acc : Byte) : accBits acc 8 = byteBits acc := rfl

/-- ENC-SHIFT puts its bit after those collected (R173). -/
theorem accBits_shiftIn (acc : Byte) (b : Bool) {n : Nat} (hn : n < 8) :
    accBits (acc <<< 1 ||| (BitVec.ofBool b).setWidth 8) (n + 1) = accBits acc n ++ [b] := by
  rw [accBits, byteBits_shiftIn, List.drop_append_of_le_length (by simp), List.drop_tail, accBits]
  congr 2
  omega

/-- ENC-PAD puts zero bits after those collected, up to the byte's end (R176). -/
theorem byteBits_pad (acc : Byte) (n : Nat) :
    byteBits (acc <<< (8 - n)) = accBits acc n ++ List.replicate (8 - n) false :=
  byteBits_shiftLeft acc (Nat.sub_le 8 n)

/-! ### Packing bits into bytes (R60, R64, R182) -/

theorem packByte_of_padded {b : Byte} {bits : List Bool}
    (h : byteBits b = bits.take 8 ++ List.replicate (8 - bits.length) false) : packByte bits = b := by
  rw [packByte, ← h]
  apply BitVec.eq_of_getLsbD_eq
  intro i hi
  rw [BitVec.getLsbD_ofNat, testBit_bitsToNat]
  simp only [hi, byteBits]
  interval_cases i <;> rfl

/-- The bytes whose bits are the given ones and fewer than eight zero bits after them are the packed ones. -/
theorem packBytes_of_padded {bytes : List Byte} {bits : List Bool} {k n : Nat} (hk : k < 8) (hn : bytes.length ≤ n)
    (h : bytes.flatMap byteBits = bits ++ List.replicate k false) : packBytes n bits = bytes := by
  induction bytes generalizing bits k n with
  | nil =>
    obtain ⟨rfl, -⟩ : bits = [] ∧ _ := by simpa using h.symm
    cases n <;> rfl
  | cons b bytes ih =>
    have hlen : 8 + 8 * bytes.length = bits.length + k := by
      simpa [List.length_flatMap, mul_comm] using congrArg List.length h
    have hfirst : byteBits b = bits.take 8 ++ List.replicate (8 - bits.length) false := by
      have htake := congrArg (List.take 8) h
      rwa [List.flatMap_cons, List.take_left' (length_byteBits b), List.take_append, List.take_replicate,
        Nat.min_eq_left (by omega)] at htake
    have hrest : bytes.flatMap byteBits = bits.drop 8 ++ List.replicate (k - (8 - bits.length)) false := by
      have hdrop := congrArg (List.drop 8) h
      rwa [List.flatMap_cons, List.drop_left' (length_byteBits b), List.drop_append, List.drop_replicate] at hdrop
    have hne : bits ≠ [] := by
      rintro rfl
      simp at hlen
      omega
    obtain ⟨n, rfl⟩ : ∃ m, n = m + 1 := Nat.exists_eq_add_of_le' (by simp at hn; omega)
    rw [packBytes, if_neg (by simpa using hne), packByte_of_padded hfirst,
      ih (by omega) (by simpa using hn) hrest]

/-! ### The encoder with nobody else to move -/

/-- An encode job runs and nobody else has a move: no order is left, no command is offered and no response is pending. -/
structure Encoding (s : State) : Prop where
  inv : s.Inv
  job : s.job = .enc
  turns : s.turns = []
  cmd : s.ports.cmd = []
  rsp : s.rsp.v = false

/-- Then the step is the encoder's, if it has one. -/
theorem Encoding.step_eq {s : State} (h : Encoding s) {a : EncAct} (ha : encAction s = some a) :
    step s = runFetched (encoderTurn s) := by
  have hturn : nextTurn s = (some .encoder, s) := by
    simp [nextTurn, channelReady, engineReady, h.turns, h.cmd, h.rsp, ha]
  rw [step_of_nextTurn hturn, takeTurn]

/-- A step of the encoder keeps the table, the response slot and the command channel, and it keeps `ERR` where it keeps
`JOB` (R171 to R177). -/
theorem encoderTurn_frame {s t : State} (h : runFetched (encoderTurn s) = .next t) :
    t.tbl = s.tbl ∧ t.turns = s.turns ∧ t.ports.cmd = s.ports.cmd ∧ t.rsp = s.rsp ∧ (t.job = s.job → t.err = s.err) := by
  unfold encoderTurn at h
  cases ha : encAction s with
  | none =>
    rw [ha] at h
    cases h
    simp
  | some a =>
    rw [ha] at h
    cases a with
    | token =>
      cases ht : s.ports.encIn with
      | nil => exact absurd ht (encAction_some ha).2.2.2
      | cons tok toks =>
        simp only [ht] at h
        have hj : s.job = .enc := (encAction_some ha).1
        rcases exec_encToken ha h with ⟨k, rfl, -⟩ | ⟨info, rfl⟩ <;> simp [hj]
    | noEntry => cases h
    | shift | next | byte | pad | fin =>
      cases h
      simp

/-- From `s` to `t` the encoder takes the tokens `toks` and writes `bits` into its accumulator, and it sends the bytes that
become full on the way (R171 to R176). -/
structure Encodes (s t : State) (toks : List Token) (bits : List Bool) : Prop where
  reaches : Reaches s t
  encoding : Encoding t
  tbl : t.tbl = s.tbl
  err : t.err = s.err
  taken : s.ports.encIn = toks ++ t.ports.encIn
  sent : ∃ bytes : List Byte, t.ports.encOut = s.ports.encOut ++ bytes.map Token.data
    ∧ accBits s.enc.acc s.enc.nb.toNat ++ bits = bytes.flatMap byteBits ++ accBits t.enc.acc t.enc.nb.toNat

theorem Encoding.encodes_self {s : State} (h : Encoding s) : Encodes s s [] [] :=
  ⟨.refl, h, rfl, rfl, rfl, [], by simp, by simp⟩

theorem Encodes.trans {s t u : State} {toks toks' : List Token} {bits bits' : List Bool} (h : Encodes s t toks bits)
    (h' : Encodes t u toks' bits') : Encodes s u (toks ++ toks') (bits ++ bits') := by
  obtain ⟨bytes, hout, hbits⟩ := h.sent
  obtain ⟨bytes', hout', hbits'⟩ := h'.sent
  refine ⟨h.reaches.trans h'.reaches, h'.encoding, h'.tbl.trans h.tbl, h'.err.trans h.err, ?_, bytes ++ bytes', ?_, ?_⟩
  · rw [h.taken, h'.taken, List.append_assoc]
  · rw [hout', hout, List.map_append, List.append_assoc]
  · rw [← List.append_assoc, hbits, List.append_assoc, hbits', List.flatMap_append, List.append_assoc]

/-- One step of the encoder that keeps the job running. -/
theorem Encoding.encodes {s t : State} (h : Encoding s) {a : EncAct} (ha : encAction s = some a)
    (hrun : runFetched (encoderTurn s) = .next t) (hj : t.job = .enc) {toks : List Token}
    (htaken : s.ports.encIn = toks ++ t.ports.encIn) {bytes : List Byte}
    (hout : t.ports.encOut = s.ports.encOut ++ bytes.map Token.data) {bits : List Bool}
    (hbits : accBits s.enc.acc s.enc.nb.toNat ++ bits
      = bytes.flatMap byteBits ++ accBits t.enc.acc t.enc.nb.toNat) : Encodes s t toks bits := by
  have hstep : step s = .next t := (h.step_eq ha).trans hrun
  obtain ⟨htbl, hturns, hcmd, hrsp, herr⟩ := encoderTurn_frame hrun
  exact {
    reaches := .single hstep
    encoding := {
      inv := everyStepKeepsTheInvariant s t h.inv hstep
      job := hj
      turns := hturns.trans h.turns
      cmd := hcmd.trans h.cmd
      rsp := hrsp ▸ h.rsp }
    tbl := htbl
    err := herr (hj.trans h.job.symm)
    taken := htaken
    sent := ⟨bytes, hout, hbits⟩ }

/-! ### What each step of the encoder takes, writes and sends (R171 to R176) -/

section
variable {s : State} (h : Encoding s)
include h

theorem Encoding.shift {b : Bool} (ha : encAction s = some (.shift b)) : Encodes s (encShift b s) [] [b] := by
  have hn : s.enc.nb.toNat < 8 := (encAction_some ha).2.2.1
  have hnb : (s.enc.nb + 1).toNat = s.enc.nb.toNat + 1 := by bv_omega
  exact h.encodes (bytes := []) ha (by rw [encoderTurn, ha]; rfl) (by simp [h.job]) (by simp) (by simp)
    (by simp only [encShift_enc, hnb, accBits_shiftIn _ _ hn, List.flatMap_nil, List.nil_append])

theorem Encoding.next (ha : encAction s = some .next) : Encodes s (encNext s) [] [] :=
  h.encodes (bytes := []) ha (by rw [encoderTurn, ha]; rfl) (by simp [h.job]) (by simp) (by simp) (by simp)

theorem Encoding.byte (ha : encAction s = some .byte) : Encodes s (encByte s) [] [] := by
  have hnb : s.enc.nb = 8#4 := (encAction_some ha).2
  exact h.encodes (bytes := [s.enc.acc]) ha (by rw [encoderTurn, ha]; rfl) (by simp [h.job]) (by simp) (by simp)
    (by simp [hnb])

/-- ENC-PAD with bits in the accumulator fills the byte with zero bits (R176). -/
theorem Encoding.pad (ha : encAction s = some .pad) (hnb : s.enc.nb ≠ 0#4) :
    Encodes s (encPad s) [] (List.replicate (8 - s.enc.nb.toNat) false) :=
  h.encodes (bytes := []) ha (by rw [encoderTurn, ha]; rfl) (by simp [h.job]) (by simp) (by simp)
    (by simp [hnb, byteBits_pad])

/-- ENC-PAD with an empty accumulator writes nothing (R176). -/
theorem Encoding.padDone (ha : encAction s = some .pad) (hnb : s.enc.nb = 0#4) : Encodes s (encPad s) [] [] :=
  h.encodes (bytes := []) ha (by rw [encoderTurn, ha]; rfl) (by simp [h.job]) (by simp) (by simp) (by simp [hnb])

/-- ENC-TOKEN on a token that selects the symbol `k` (R171, R172). -/
theorem Encoding.token (ha : encAction s = some .token) {tok : Token} {rest : List Token}
    (hin : s.ports.encIn = tok :: rest) {k : SymId}
    (hexec : exec (decodeEncIn tok) s = .next (startPath k (takeEncIn s))) :
    Encodes s (startPath k (takeEncIn s)) [tok] [] :=
  h.encodes (bytes := []) ha (by rw [encoderTurn, ha, hin]; exact hexec) (by simp [h.job]) (by simp [hin]) (by simp)
    (by simp)

end

/-! ### The parts of a job -/

/-- A full byte enables ENC-BYTE in every phase (R175, R179). -/
theorem encAction_byte {s : State} (hj : s.job = .enc) (hnb : s.enc.nb = 8#4) : encAction s = some .byte := by
  simp [encAction, hj, hnb]

/-- A full byte is sent before anything else (R175, R179). -/
theorem Encoding.flush {s : State} (h : Encoding s) :
    ∃ t, Encodes s t [] [] ∧ t.enc.nb.toNat < 8
      ∧ t.enc.phase = s.enc.phase ∧ t.enc.psym = s.enc.psym ∧ t.enc.pidx = s.enc.pidx := by
  by_cases hnb : s.enc.nb = 8#4
  · exact ⟨encByte s, h.byte (encAction_byte h.job hnb), by simp⟩
  · have hle := h.inv.nbBound
    exact ⟨s, h.encodes_self, by bv_omega, rfl, rfl, rfl⟩

/-- In phase `E_SHIFT`, once a full byte is sent, the next bit of the path is written or the path is done (R173, R174). -/
theorem Encoding.flushInPath {s : State} (h : Encoding s) (hp : s.enc.phase = .shift) {e : TblEntry}
    (he : s.entry s.enc.psym = some e) :
    ∃ t, Encodes s t [] [] ∧ t.enc.nb.toNat < 8
      ∧ t.enc.phase = .shift ∧ t.enc.psym = s.enc.psym ∧ t.enc.pidx = s.enc.pidx
      ∧ encAction t = if s.enc.pidx.toNat < e.len then some (.shift (e.path.getD s.enc.pidx.toNat false))
          else if s.enc.pidx.toNat = e.len then some .next else none := by
  obtain ⟨t, ht, hn, hphase, hpsym, hpidx⟩ := h.flush
  have hlt : t.enc.nb < 8#4 := hn
  have hne : t.enc.nb ≠ 8#4 := by bv_omega
  refine ⟨t, ht, hn, hphase.trans hp, hpsym, hpidx, ?_⟩
  simp [encAction, encShiftAct, ht.encoding.job, hne, hlt, hphase, hp, hpsym, hpidx, entry_congr ht.tbl, he]

/-- The rest of a path is written, full bytes being sent on the way; then the job pads or waits (R173, R174). -/
theorem Encoding.restOfPath {s : State} (h : Encoding s) (hp : s.enc.phase = .shift) {e : TblEntry}
    (he : s.entry s.enc.psym = some e) :
    ∃ t, Encodes s t [] (e.path.drop s.enc.pidx.toNat) ∧ t.enc.nb.toNat < 8
      ∧ t.enc.phase = if s.enc.psym = Config.eofId then .pad else .wait := by
  generalize hrest : e.path.drop s.enc.pidx.toNat = bits
  induction bits generalizing s with
  | nil =>
    obtain ⟨u, hu, hn, -, hpsym, -, ha⟩ := h.flushInPath hp he
    have hend : s.enc.pidx.toNat = e.len := by
      obtain ⟨x, hx, -, hle⟩ := h.inv.shifting h.job hp
      obtain rfl := Option.some.inj (he.symm.trans hx)
      exact le_antisymm hle (List.drop_eq_nil_iff.mp hrest)
    rw [if_neg (by omega), if_pos hend] at ha
    exact ⟨encNext u, hu.trans (hu.encoding.next ha), hn, by simp [hpsym]⟩
  | cons b bits ih =>
    obtain ⟨u, hu, hn, hphase, hpsym, hpidx, ha⟩ := h.flushInPath hp he
    have hlt : s.enc.pidx.toNat < e.len := by
      by_contra hge
      rw [List.drop_of_length_le (Nat.le_of_not_lt hge)] at hrest
      cases hrest
    obtain ⟨hbit, hbits⟩ := List.cons.inj ((List.drop_eq_getElem_cons hlt).symm.trans hrest)
    rw [if_pos hlt, List.getD_eq_getElem _ _ hlt, hbit] at ha
    have hv := hu.trans (hu.encoding.shift ha)
    have hstep : (s.enc.pidx + 1).toNat = s.enc.pidx.toNat + 1 := by
      have hmax : e.len ≤ 256 := h.inv.pathLen _ _ he
      bv_omega
    obtain ⟨t, ht, hnt, hpt⟩ := ih hv.encoding (by simpa using hphase)
      (by rw [entry_congr hv.tbl]; simpa [hpsym] using he) (by simp only [encShift_enc, hpidx, hstep, hbits])
    exact ⟨t, hv.trans ht, hnt, by simpa [hpsym] using hpt⟩

/-- A token that selects the symbol `k` is taken and the path of `k` written (R170 to R174). -/
theorem Encoding.symbol {s : State} (h : Encoding s) (hp : s.enc.phase = .wait) (hn : s.enc.nb.toNat < 8) {tok : Token}
    {rest : List Token} (hin : s.ports.encIn = tok :: rest) {k : SymId}
    (hexec : encTakesToken s = true → exec (decodeEncIn tok) s = .next (startPath k (takeEncIn s)))
    (hk : hasEntry s.tbl k = true) :
    ∃ t, Encodes s t [tok] (pathOf s.tbl k) ∧ t.enc.nb.toNat < 8
      ∧ t.enc.phase = if k = Config.eofId then .pad else .wait := by
  have hg : encTakesToken s = true := (encTakesToken_iff s).mpr ⟨h.job, hp, hn⟩
  have hu := h.token (encAction_token hg (by simp [hin])) hin (hexec hg)
  obtain ⟨p, hentry⟩ := (hasEntry_iff s.tbl k).mp hk
  have hpath : pathOf s.tbl k = p := by simp [pathOf, hentry]
  obtain ⟨t, ht, hnt, hpt⟩ := hu.encoding.restOfPath (e := { v := true, path := p }) rfl hentry
  rw [hpath]
  exact ⟨t, hu.trans ht, hnt, hpt⟩

/-- Input bytes that all have entries are taken and their paths written (R170, R183). -/
theorem Encoding.input {s : State} (h : Encoding s) (hp : s.enc.phase = .wait) (hn : s.enc.nb.toNat < 8)
    {input : List Byte} {rest : List Token} (hin : s.ports.encIn = input.map Token.data ++ rest)
    (hentries : ∀ b ∈ input, hasEntry s.tbl (Byte.zext9 b) = true) :
    ∃ t, Encodes s t (input.map Token.data) (input.flatMap fun b => pathOf s.tbl (Byte.zext9 b))
      ∧ t.enc.nb.toNat < 8 ∧ t.enc.phase = .wait := by
  induction input generalizing s with
  | nil => exact ⟨s, h.encodes_self, hn, hp⟩
  | cons b input ih =>
    obtain ⟨hb, hrest⟩ := List.forall_mem_cons.mp hentries
    have hbyte : Byte.zext9 b ≠ Config.eofId := by
      have := b.isLt
      simp only [Byte.zext9, Config.eofId]
      bv_omega
    obtain ⟨u, hu, hnu, hpu⟩ := h.symbol hp hn hin (k := Byte.zext9 b)
      (fun hg => by simp [decodeEncIn, isEnd_data, payload_data, exec, execEncInData, hg, lookupByte, hb]) hb
    rw [if_neg hbyte] at hpu
    have hin' : u.ports.encIn = input.map Token.data ++ rest := by simpa [hin, eq_comm] using hu.taken
    obtain ⟨t, ht, hnt, hpt⟩ := ih hu.encoding hpu hnu hin' (by simpa [hu.tbl] using hrest)
    rw [hu.tbl] at ht
    exact ⟨t, hu.trans ht, hnt, hpt⟩

theorem encAction_pad {s : State} (hj : s.job = .enc) (hp : s.enc.phase = .pad) (hn : s.enc.nb.toNat < 8) :
    encAction s = some .pad := by
  have hlt : s.enc.nb < 8#4 := hn
  have hne : s.enc.nb ≠ 8#4 := by bv_omega
  simp [encAction, hj, hp, hlt, hne]

/-- A partial byte is filled with zero bits and sent; then the job finishes (R176, R182). -/
theorem Encoding.padding {s : State} (h : Encoding s) (hp : s.enc.phase = .pad) (hn : s.enc.nb.toNat < 8) :
    ∃ t k, k < 8 ∧ Encodes s t [] (List.replicate k false) ∧ t.enc.phase = .fin := by
  have ha := encAction_pad h.job hp hn
  by_cases hnb : s.enc.nb = 0#4
  · exact ⟨encPad s, 0, by decide, h.padDone ha hnb, by simp [hnb]⟩
  · have hu := h.pad ha hnb
    have hv := hu.encoding.byte (encAction_byte hu.encoding.job (by simp [hnb]))
    have ht := hv.encoding.padDone (encAction_pad hv.encoding.job (by simp [hnb, hp]) (by simp)) (by simp)
    have hpos : s.enc.nb.toNat ≠ 0 := fun h0 => hnb (BitVec.eq_of_toNat_eq h0)
    have hall := (hu.trans hv).trans ht
    exact ⟨encPad (encByte (encPad s)), 8 - s.enc.nb.toNat, by omega, by simpa using hall, by simp⟩

/-- ENC-END sends `END` and ends the job (R177). -/
theorem Encoding.step_end {s : State} (h : Encoding s) (hp : s.enc.phase = .fin) : step s = .next (encEnd s) := by
  have hnb : s.enc.nb = 0#4 := h.inv.finEmpty h.job hp
  have ha : encAction s = some .fin := by simp [encAction, h.job, hp, hnb]
  rw [h.step_eq ha, encoderTurn, ha]
  rfl

/-- Settles O38: the input's paths, the end-of-stream path and the padding are written, and the bits sent are those of the
packed bytes. -/
theorem encodeJobSendsThePayload : Obligations.EncodeJobSendsThePayload := by
  intro s input d rest hinv hj hp hnb hturns hcmd hrsp hin hentries
  have h : Encoding s := ⟨hinv, hj, hturns, hcmd, hrsp⟩
  obtain ⟨u, hu, hnu, hpu⟩ := h.input hp (by simp [hnb]) hin hentries
  have hinu : u.ports.encIn = Token.endWith d :: rest := by simpa [hin, eq_comm] using hu.taken
  obtain ⟨v, hv, hnv, hpv⟩ := hu.encoding.symbol hpu hnu hinu (k := Config.eofId)
    (fun hg => by simp [decodeEncIn, isEnd_endWith, exec, execEncInEnd, hg]) (hu.encoding.inv.eofEntry hu.encoding.job)
  obtain ⟨t, k, hk, ht, hpt⟩ := hv.encoding.padding hpv hnv
  rw [hu.tbl] at hv
  have hst := (hu.trans hv).trans ht
  obtain ⟨bytes, hout, hbits⟩ := hst.sent
  have hpadded : bytes.flatMap byteBits = payloadBits s.tbl input ++ List.replicate k false := by
    have hnt : t.enc.nb = 0#4 := hst.encoding.inv.finEmpty hst.encoding.job hpt
    simpa [hnb, hnt, payloadBits] using hbits.symm
  have hlen : bytes.length ≤ (payloadBits s.tbl input).length := by
    have hcount : 8 * bytes.length = (payloadBits s.tbl input).length + k := by
      simpa [List.length_flatMap, mul_comm] using congrArg List.length hpadded
    omega
  refine ⟨encEnd t, hst.reaches.tail (hst.encoding.step_end hpt), ?_, ?_, rfl, hst.err⟩
  · rw [packBytes_of_padded hk hlen hpadded, encEnd_ports, hout]
    rfl
  · simpa [hin, eq_comm] using hst.taken

end Sys2Proof.Machine
end

section
/-! PROOFS. The encodings (30_encoding.md R90, R91, R96, R98 to R100, R106): when a command word of each format is accepted,
both round trips, and the rows of the opcode map. -/

namespace Sys2Proof

/-! ### When a command word is accepted, by its opcode (R106) -/

/-- The opcodes: the format Z ones, those of `SETROOT`, `LDNODE` and `RDREG`, and the reserved ones (R91, R99 case 1). -/
theorem opcode_cases (op : BitVec 4) :
    isFormatZ op = true ∨ op = 1#4 ∨ op = 2#4 ∨ op = 8#4 ∨ 8#4 < op := by
  revert op
  decide

section
variable {w : Word} {i : Instr}

theorem decodeCmd_reserved (hop : 8#4 < w.op) : decodeCmd w = .error .opcode := by
  simp [decodeCmd, hop]

/-- A format Z word is accepted if bits 27:0 are 0 (R99 case 2). -/
theorem decodeCmd_formatZ_iff (hop : isFormatZ w.op = true) :
    decodeCmd w = .ok i ↔ w.extractLsb' 0 28 = 0#28 ∧ selectRow w = i := by
  obtain ⟨hle, h1, h2, h8⟩ : ¬ 8#4 < w.op ∧ w.op ≠ 1#4 ∧ w.op ≠ 2#4 ∧ w.op ≠ 8#4 := by
    generalize w.op = op at hop ⊢
    revert op
    decide
  simp [decodeCmd, hle, hop, h1, h2, h8, ite_eq_iff]

/-- A `SETROOT` word is accepted if bits 27:10 are 0 and its ref is legal (R99 cases 3 and 5). -/
theorem decodeCmd_setroot_iff (hop : w.op = 1#4) :
    decodeCmd w = .ok i ↔ w.extractLsb' 10 18 = 0#18 ∧ w.right.legal = true ∧ .setroot w.right = i := by
  simp [decodeCmd, hop, isFormatZ, selectRow, Ref.legal, ite_eq_iff]

/-- An `LDNODE` word is accepted if both refs are legal (R99 case 6). -/
theorem decodeCmd_ldnode_iff (hop : w.op = 2#4) :
    decodeCmd w = .ok i ↔ (w.left.legal = true ∧ w.right.legal = true) ∧ .ldnode w.idx w.left w.right = i := by
  simp [decodeCmd, hop, isFormatZ, selectRow, Ref.legal, ite_eq_iff]

/-- An `RDREG` word is accepted if bits 27:16 are 0 (R99 case 4). -/
theorem decodeCmd_rdreg_iff (hop : w.op = 8#4) :
    decodeCmd w = .ok i ↔ w.extractLsb' 16 12 = 0#12 ∧ .rdreg w.addr = i := by
  simp [decodeCmd, hop, isFormatZ, selectRow, ite_eq_iff]

end

/-! ### The round trips (R90, R91, R98 to R100) -/

/-- Settles O2, by the instruction: the fields read from a word are those it was packed from. -/
theorem decodeOfEncodeIsIdentity : Obligations.DecodeOfEncodeIsIdentity := by
  intro i hwf
  cases i with
  | nop | clrtree | encStart | decStart | abort | clrerr => rfl
  | setroot ref =>
    obtain ⟨hop, hzero, hright⟩ := fields_formatR 0x1#4 0#18 ref
    exact (decodeCmd_setroot_iff hop).mpr ⟨hzero, by rwa [hright], by rw [hright]⟩
  | ldnode idx left right =>
    obtain ⟨hop, hidx, hleft, hright⟩ := fields_formatN 0x2#4 idx left right
    refine (decodeCmd_ldnode_iff hop).mpr ⟨?_, by rw [hidx, hleft, hright]⟩
    rw [hleft, hright]
    simpa [Instr.wellFormed] using hwf
  | rdreg addr =>
    obtain ⟨hop, hzero, haddr⟩ := fields_formatA 0x8#4 0#12 addr
    exact (decodeCmd_rdreg_iff hop).mpr ⟨hzero, by rw [haddr]⟩
  | encInData b | decInData b => simp [encode, decode, decodeEncIn, decodeDecIn, isEnd_data, payload_data]
  | encInEnd d | decInEnd d => simp [encode, decode, decodeEncIn, decodeDecIn, isEnd_endWith, payload_endWith]

theorem encode_selectRow_formatZ (op : BitVec 4) (hop : isFormatZ op = true) :
    encode (selectRow (op ++ 0#28)) = .cmd (op ++ 0#28) ∧ (selectRow (op ++ 0#28)).wellFormed = true := by
  revert op
  decide

/-- An accepted command word is the word of its instruction, and that instruction is well formed (R91, R99). -/
theorem encode_of_decodeCmd {w : Word} {i : Instr} (hd : decodeCmd w = .ok i) :
    encode i = .cmd w ∧ i.wellFormed = true := by
  rcases opcode_cases w.op with hop | hop | hop | hop | hop
  · obtain ⟨hzero, rfl⟩ := (decodeCmd_formatZ_iff hop).mp hd
    have hw : w.op ++ 0#28 = w := hzero ▸ word_formatZ w
    have h := encode_selectRow_formatZ w.op hop
    rwa [hw] at h
  · obtain ⟨hzero, hlegal, rfl⟩ := (decodeCmd_setroot_iff hop).mp hd
    have hw : 0x1#4 ++ 0#18 ++ w.right = w := hop ▸ hzero ▸ word_formatR w
    exact ⟨congrArg Offer.cmd hw, hlegal⟩
  · obtain ⟨⟨hleft, hright⟩, rfl⟩ := (decodeCmd_ldnode_iff hop).mp hd
    have hw : 0x2#4 ++ w.idx ++ w.left ++ w.right = w := hop ▸ word_formatN w
    exact ⟨congrArg Offer.cmd hw, by simp [Instr.wellFormed, hleft, hright]⟩
  · obtain ⟨hzero, rfl⟩ := (decodeCmd_rdreg_iff hop).mp hd
    have hw : 0x8#4 ++ 0#12 ++ w.addr = w := hop ▸ hzero ▸ word_formatA w
    exact ⟨congrArg Offer.cmd hw, rfl⟩
  · rw [decodeCmd_reserved hop] at hd
    cases hd

/-- Settles O3, by the channel; a token is its end flag and its payload put together. -/
theorem encodeOfDecodeIsIdentity : Obligations.EncodeOfDecodeIsIdentity := by
  intro o i hd
  cases o with
  | cmd w => exact encode_of_decodeCmd hd
  | encIn t =>
    obtain rfl : decodeEncIn t = i := Except.ok.inj hd
    rcases token_parts t with ⟨hend, ht⟩ | ⟨hend, ht⟩ <;> simp [decodeEncIn, hend, encode, ← ht, Instr.wellFormed]
  | decIn t =>
    obtain rfl : decodeDecIn t = i := Except.ok.inj hd
    rcases token_parts t with ⟨hend, ht⟩ | ⟨hend, ht⟩ <;> simp [decodeDecIn, hend, encode, ← ht, Instr.wellFormed]

/-- The accepted command words are those of the well-formed instructions. -/
theorem decodeCmd_ok_iff {w : Word} {i : Instr} : decodeCmd w = .ok i ↔ encode i = .cmd w ∧ i.wellFormed = true := by
  refine ⟨encode_of_decodeCmd, fun ⟨hw, hwf⟩ => ?_⟩
  have h := decodeOfEncodeIsIdentity i hwf
  rwa [hw] at h

/-! ### The rows of the opcode map (R91) -/

/-- A word matches a row that fixes its upper bits exactly if it is those bits and a free field. -/
theorem matches_high_iff {n m : Nat} (w : BitVec (n + m)) (hi : BitVec n) :
    w &&& (BitVec.allOnes n ++ 0#m) = hi ++ 0#m ↔ ∃ lo : BitVec m, w = hi ++ lo := by
  have hw : w.extractLsb' m n ++ w.extractLsb' 0 m = w :=
    (BitVec.extractLsb'_append_extractLsb'_eq_extractLsb' (Nat.zero_add m).symm).trans (extract_all w)
  constructor
  · intro h
    rw [← hw, Laws.and_fixed_high, BitVec.and_allOnes, BitVec.append_left_inj] at h
    exact ⟨w.extractLsb' 0 m, h ▸ hw.symm⟩
  · rintro ⟨lo, rfl⟩
    rw [Laws.and_fixed_high, BitVec.and_allOnes]

section
variable (w : Word)

theorem row_formatZ_iff {v : Word} {i : Instr} (hv : encode i = .cmd v) (hwf : i.wellFormed = true) :
    w &&& 0xFFFFFFFF#32 = v ↔ decodeCmd w = .ok i := by
  rw [show 0xFFFFFFFF#32 = BitVec.allOnes 32 from rfl, BitVec.and_allOnes, decodeCmd_ok_iff, hv, Offer.cmd.injEq]
  exact ⟨fun h => ⟨h.symm, hwf⟩, fun h => h.1.symm⟩

theorem row_setroot_iff :
    (w &&& 0xFFFFFC00#32 = 0x10000000#32 ∧ Ref.legal (w.extractLsb' 0 10) = true)
      ↔ ∃ ref, decodeCmd w = .ok (.setroot ref) := by
  have hrow : w &&& 0xFFFFFC00#32 = 0x10000000#32 ↔ ∃ ref : Ref, w = 0x1#4 ++ 0#18 ++ ref :=
    matches_high_iff (n := 22) (m := 10) w (0x1#4 ++ 0#18)
  rw [hrow]
  constructor
  · rintro ⟨⟨ref, rfl⟩, hlegal⟩
    obtain ⟨hop, hzero, -⟩ := fields_formatR 0x1#4 0#18 ref
    exact ⟨_, (decodeCmd_setroot_iff hop).mpr ⟨hzero, hlegal, rfl⟩⟩
  · rintro ⟨ref, hd⟩
    obtain rfl := Offer.cmd.inj (encode_of_decodeCmd hd).1
    obtain ⟨hop, -⟩ := fields_formatR 0x1#4 0#18 ref
    obtain ⟨-, hlegal, -⟩ := (decodeCmd_setroot_iff hop).mp hd
    exact ⟨⟨ref, rfl⟩, hlegal⟩

theorem row_ldnode_iff :
    (w &&& 0xF0000000#32 = 0x20000000#32 ∧ Ref.legal (w.extractLsb' 10 10) = true
        ∧ Ref.legal (w.extractLsb' 0 10) = true)
      ↔ ∃ idx left right, decodeCmd w = .ok (.ldnode idx left right) := by
  have hrow : w &&& 0xF0000000#32 = 0x20000000#32 ↔ ∃ rest : BitVec 28, w = 0x2#4 ++ rest :=
    matches_high_iff (n := 4) (m := 28) w 0x2#4
  rw [hrow]
  constructor
  · rintro ⟨⟨rest, rfl⟩, hlegal⟩
    exact ⟨_, _, _, (decodeCmd_ldnode_iff (op_append 0x2#4 rest)).mpr ⟨hlegal, rfl⟩⟩
  · rintro ⟨idx, left, right, hd⟩
    have hop : w.op = 2#4 := by
      obtain rfl := Offer.cmd.inj (encode_of_decodeCmd hd).1
      exact (fields_formatN 0x2#4 idx left right).1
    exact ⟨⟨_, (hop ▸ word_formatZ w).symm⟩, ((decodeCmd_ldnode_iff hop).mp hd).1⟩

theorem row_rdreg_iff : w &&& 0xFFFF0000#32 = 0x80000000#32 ↔ ∃ addr, decodeCmd w = .ok (.rdreg addr) := by
  have hrow : w &&& 0xFFFF0000#32 = 0x80000000#32 ↔ ∃ addr : RegAddr, w = 0x8#4 ++ 0#12 ++ addr :=
    matches_high_iff (n := 16) (m := 16) w (0x8#4 ++ 0#12)
  rw [hrow]
  constructor
  · rintro ⟨addr, rfl⟩
    exact ⟨addr, decodeCmd_ok_iff.mpr ⟨rfl, rfl⟩⟩
  · rintro ⟨addr, hd⟩
    exact ⟨addr, (Offer.cmd.inj (encode_of_decodeCmd hd).1).symm⟩

/-- No command word decodes to a token's instruction (R98). -/
theorem decodeCmd_cases {i : Instr} (hd : decodeCmd w = .ok i) :
    decodeCmd w = .ok .nop ∨ (∃ ref, decodeCmd w = .ok (.setroot ref))
      ∨ (∃ idx left right, decodeCmd w = .ok (.ldnode idx left right)) ∨ decodeCmd w = .ok .clrtree
      ∨ decodeCmd w = .ok .encStart ∨ decodeCmd w = .ok .decStart ∨ decodeCmd w = .ok .abort
      ∨ decodeCmd w = .ok .clrerr ∨ ∃ addr, decodeCmd w = .ok (.rdreg addr) := by
  cases i with
  | encInData b | encInEnd d | decInData b | decInEnd d => cases (encode_of_decodeCmd hd).1
  | _ => simp [hd]

end

/-- Settles O4, row by row. -/
theorem acceptedWordsAreTheMapRows : Obligations.AcceptedWordsAreTheMapRows := by
  intro w
  rw [row_setroot_iff, row_ldnode_iff, row_rdreg_iff, row_formatZ_iff (i := .nop) w rfl rfl,
    row_formatZ_iff (i := .clrtree) w rfl rfl, row_formatZ_iff (i := .encStart) w rfl rfl,
    row_formatZ_iff (i := .decStart) w rfl rfl, row_formatZ_iff (i := .abort) w rfl rfl,
    row_formatZ_iff (i := .clrerr) w rfl rfl]
  constructor
  · rintro ⟨i, hd⟩
    exact decodeCmd_cases w hd
  · rintro (hd | ⟨ref, hd⟩ | ⟨idx, left, right, hd⟩ | hd | hd | hd | hd | hd | ⟨addr, hd⟩) <;> exact ⟨_, hd⟩

/-- Settles O1: the decoder evaluated at each word. -/
theorem vectorWordsDecode : Obligations.VectorWordsDecode := by
  unfold Obligations.VectorWordsDecode
  decide

end Sys2Proof
end

section
/-! PROOFS. Where the encodings meet the machine: a reserved word or ref is rejected and nothing else (30_encoding.md R96,
R99; 40_config_commands.md R121, R122, R126), `CLRTREE` as the registers read it (R104, R123), the `END` token on `enc_in`
(R98, R172) and a `PSYM` that is no symbol id (R97). -/

namespace Sys2Proof.Machine

/-- A reserved word is taken and rejected (R99, R126). -/
theorem commandTurn_error {s : State} {w : Word} {ws : List Word} {e : IllCmd} (hv : s.rsp.v = false)
    (hc : s.ports.cmd = w :: ws) (hd : decodeCmd w = .error e) :
    commandTurn s = .done (.next (reject .illcmd { s with ports := { s.ports with cmd := ws } })) := by
  simp [commandTurn, takeCmd, hv, hc, hd]

/-- Settles O7: the turn is given, so the step is the command unit's rejection. -/
theorem reservedWordOnlySetsIllcmd : Obligations.ReservedWordOnlySetsIllcmd := by
  intro s ts w ws e hts hv hc hd
  rw [step_given hts, takeTurn, commandTurn_error (s := { s with turns := ts }) hv hc hd]
  rfl

/-- Settles O18: the refs are tested before the state (log 8). -/
theorem reservedRefOnlySetsIllcmd : Obligations.ReservedRefOnlySetsIllcmd := by
  intro s n l r
  refine ⟨fun hr => ?_, fun hlr => ?_⟩
  · have hexec : exec (.setroot r) s = .next (reject .illcmd s) := if_pos hr
    exact hexec
  · have hexec : exec (.ldnode n l r) s = .next (reject .illcmd s) := if_pos (by simpa using hlr)
    exact hexec

/-- Settles O16: the registers are those of a tree store whose valid bits are all clear. -/
theorem clrtreeInvalidatesTheTree : Obligations.ClrtreeInvalidatesTheTree := by
  intro s hj
  obtain ⟨-, -, -, hroot, hnode, -⟩ := registerWordLayouts (clearTree s)
  refine ⟨clearTree s, ?_, rfl, node_clearTree s, ?_, fun i => ?_, rfl⟩
  · show Host.Outcome.next (whenIdle s (clearTree s)) = _
    rw [whenIdle_idle hj]
  · simpa using hroot
  · simpa [node_clearTree] using hnode i

/-- Settles O31: with its guard the token is taken and the end-of-stream path started. -/
theorem encEndTokenStartsEofPath : Obligations.EncEndTokenStartsEofPath := by
  intro s d hj hp hn
  have hguard : encTakesToken s = true := (encTakesToken_iff s).mpr ⟨hj, hp, hn⟩
  have hexec : exec (.encInEnd d) s = .next (startPath Config.eofId (takeEncIn s)) := by
    simp [exec, execEncInEnd, hguard]
  exact hexec

/-- A `PSYM` of 257 to 511 names no entry (R97). -/
theorem entry_eq_none {s : State} {k : SymId} (hk : 256 < k.toNat) : s.entry k = none := by
  rw [← Option.not_isSome_iff_eq_none, State.entry, entryOf_isSome_iff]
  omega

theorem encAction_noEntry {s : State} (hj : s.job = .enc) (hp : s.enc.phase = .shift) (hn : s.enc.nb.toNat < 8)
    (he : s.entry s.enc.psym = none) : encAction s = some .noEntry := by
  have hlt : s.enc.nb < 8#4 := hn
  have hne : s.enc.nb ≠ 8#4 := by bv_omega
  simp [encAction, encShiftAct, hj, hne, hp, hlt, he]

/-- Settles O36: the encoder's step is then the one that stops (log 9). -/
theorem noEntryForPsymStops : Obligations.NoEntryForPsymStops := by
  intro s ts hts hj hp hn hk
  have ha : encAction { s with turns := ts } = some .noEntry := encAction_noEntry hj hp hn (entry_eq_none hk)
  rw [step_given hts, takeTurn, encoderTurn, ha]
  rfl

end Sys2Proof.Machine
end

section
/-! PROOFS. The configuration and system commands (40_config_commands.md R120 to R122, R124, R125, R131) and the response
transfer (R132): what each writes, with everything else unchanged. -/

namespace Sys2Proof.Machine

/-! ### The response transfer -/

theorem responseTurn_pending {s : State} (hv : s.rsp.v = true) :
    responseTurn s = .done (.next (sendResponse s)) := by
  rw [responseTurn, if_pos hv]

/-- Settles O9: with a response pending the turn comes to `sendResponse`, which writes `RSPV` and the host's side only. -/
theorem responseTransferClearsTheSlot : Obligations.ResponseTransferClearsTheSlot := by
  intro s ts hts hv
  have hturn : responseTurn { s with turns := ts } = .done (.next (sendResponse { s with turns := ts })) :=
    responseTurn_pending hv
  rw [step_given hts, takeTurn, hturn]
  rfl

/-! ### The commands that load the tree store -/

/-- With a legal ref, `SETROOT` goes on to the state check (R121, R197). -/
theorem exec_setroot_of_legal {r : Ref} (hr : Ref.legal r = true) (s : State) :
    exec (.setroot r) s = .next (whenIdle s (loadRoot r s)) := by
  have hnot : ¬ Ref.reserved r = true := by simpa [Ref.legal] using hr
  exact if_neg hnot

/-- With two legal refs, `LDNODE` goes on to the state check (R122, R197). -/
theorem exec_ldnode_of_legal {l r : Ref} (hl : Ref.legal l = true) (hr : Ref.legal r = true) (i : Byte) (s : State) :
    exec (.ldnode i l r) s = .next (whenIdle s (loadNode i l r s)) := by
  have hnot : ¬ (Ref.reserved l || Ref.reserved r) = true := by
    simp only [Ref.legal, Bool.not_eq_true'] at hl hr
    simp [hl, hr]
  exact if_neg hnot

/-- Settles O14: in `IDLE` the state check lets `loadRoot` through. -/
theorem setrootLoadsRoot : Obligations.SetrootLoadsRoot := by
  intro s r hj hr
  rw [exec_setroot_of_legal hr, whenIdle_idle hj]
  rfl

/-- Settles O15: in `IDLE` the state check lets `loadNode` through, which writes the entry named and no other. -/
theorem ldnodeLoadsOneEntry : Obligations.LdnodeLoadsOneEntry := by
  intro s i l r hj hl hr
  refine ⟨loadNode i l r s, ?_, ?_, fun j hne => ?_, rfl⟩
  · rw [exec_ldnode_of_legal hl hr, whenIdle_idle hj]
  · rw [node_loadNode, if_pos rfl]
  · rw [node_loadNode, if_neg hne]

/-! ### The commands that any `JOB` allows -/

/-- Settles O13: the arm of `NOP` answers the state it was given. -/
theorem nopChangesNothing : Obligations.NopChangesNothing := fun _ => rfl

/-- Settles O19: `ABORT` has no state check; `endJob` writes `JOB` only. -/
theorem abortOnlyIdlesTheJob : Obligations.AbortOnlyIdlesTheJob := by
  intro s
  have hexec : exec .abort s = .next (endJob s) := rfl
  exact hexec

/-- Settles O20: `CLRERR` has no state check; `clearFaults` writes `ERR` and `FAULT` only. -/
theorem clrerrClearsErrAndFault : Obligations.ClrerrClearsErrAndFault := by
  intro s
  have hexec : exec .clrerr s = .next (clearFaults s) := rfl
  exact hexec

/-! ### `RDREG` -/

/-- The mapped addresses: the four registers, `NODE`, `CLEN` and `CBITS` (R133). -/
theorem mapped_iff (a : RegAddr) :
    mapped a = true ↔ a.toNat ≤ 0x0003 ∨ (0x0100 ≤ a.toNat ∧ a.toNat ≤ 0x01FF)
      ∨ (0x0200 ≤ a.toNat ∧ a.toNat ≤ 0x0300) ∨ (0x0800 ≤ a.toNat ∧ a.toNat ≤ 0x1007) := by
  simp [mapped, or_assoc]

theorem exec_rdreg_of_mapped {a : RegAddr} (ha : mapped a = true) (s : State) :
    exec (.rdreg a) s = .next (respond (regRead a s) s) :=
  if_pos ha

theorem exec_rdreg_of_not_mapped {a : RegAddr} (ha : ¬ mapped a = true) (s : State) :
    exec (.rdreg a) s = .next (respond 0 (reject .badaddr s)) :=
  if_neg ha

/-- Settles O21, by whether the address is mapped; `BADADDR` is bit 2 of `ERR`. -/
theorem rdregFillsTheSlot : Obligations.RdregFillsTheSlot := by
  intro s a
  split
  · rename_i ha
    exact exec_rdreg_of_mapped ((mapped_iff a).mpr ha) s
  · rename_i ha
    exact exec_rdreg_of_not_mapped (mt (mapped_iff a).mp ha) s

end Sys2Proof.Machine
end

section
/-! PROOFS. The steps of the decoder (41_decoder.md R140 to R152): `DEC_START` and each step with everything else unchanged,
what the decoder's turn can come to, and the measure that every step lowers. -/

namespace Sys2Proof.Machine

/-! ### The kinds of a ref (R96, R140, R145) -/

/-- The tests of R140 and R145 in the spec's bits are the model's. -/
theorem ite_refKind {α : Type} (s : State) (r : Ref) (eof byte missing node : α) :
    (if r.getLsbD 9 = true ∧ r.getLsbD 8 = true then eof
      else if r.getLsbD 9 = true then byte
      else if (s.node (r.extractLsb' 0 8)).v = false then missing
      else node)
    = if (Ref.isLeaf r && Ref.isEof r) = true then eof
      else if Ref.isLeaf r = true then byte
      else if (s.node (Ref.val r)).v = true then node
      else missing := by
  have hval : r.extractLsb' 0 8 = Ref.val r := rfl
  rw [hval, Ref.isLeaf, Ref.isEof]
  cases r.getLsbD 9 <;> cases r.getLsbD 8 <;> cases (s.node (Ref.val r)).v <;> rfl

/-! ### `DEC_START` and the tokens -/

/-- Settles O40: in `IDLE` the state check lets the effect through, which tests the root as R140 does. -/
theorem decStartChecksTheRoot : Obligations.DecStartChecksTheRoot := by
  intro s hj
  have hexec : exec .decStart s = .next (decStartEffect s) := by
    simp only [exec, execDecStart, whenIdle_idle hj]
  rw [hexec, ite_refKind, decStartEffect]
  cases s.root.v <;> rfl

/-- DEC-FILL on `DATA(b)` (R143). -/
theorem exec_decInData_of_decFills {s : State} (hg : decFills s = true) (b : Byte) :
    exec (.decInData b) s = .next (fillByte b (takeDecIn s)) := by
  simp only [exec, execDecInData, hg, if_true]

/-- DEC-FILL on `END` (R143). -/
theorem exec_decInEnd_of_decFills {s : State} (hg : decFills s = true) (d : Byte) :
    exec (.decInEnd d) s = .next (raise .trunc (s.dec.cur.setWidth 9) (takeDecIn s)) := by
  simp only [exec, execDecInEnd, hg, if_true]

/-- While draining the guard of DEC-FILL does not hold. -/
theorem not_decFills_of_decDrains {s : State} (hg : decDrains s = true) : ¬ decFills s = true := by
  obtain ⟨-, hp⟩ := (decDrains_iff s).mp hg
  rw [decFills_iff]
  simp [hp]

/-- DEC-DRAIN on `DATA(b)` (R148). -/
theorem exec_decInData_of_decDrains {s : State} (hg : decDrains s = true) (b : Byte) :
    exec (.decInData b) s = .next (takeDecIn s) := by
  simp [exec, execDecInData, not_decFills_of_decDrains hg, hg]

/-- DEC-DRAIN on `END` (R148). -/
theorem exec_decInEnd_of_decDrains {s : State} (hg : decDrains s = true) (d : Byte) :
    exec (.decInEnd d) s = .next (endJob (takeDecIn s)) := by
  simp [exec, execDecInEnd, not_decFills_of_decDrains hg, hg]

/-- Settles O41: with the guard of DEC-FILL the byte is filled, and `END` raises `TRUNC` at `CUR`. -/
theorem decTokenInTheWalk : Obligations.DecTokenInTheWalk := by
  intro s b hj hp hbn
  have hguard : decFills s = true := (decFills_iff s).mpr ⟨hj, hp, hbn⟩
  exact ⟨exec_decInData_of_decFills hguard b, exec_decInEnd_of_decFills hguard b⟩

/-- Settles O42: with the guard of DEC-DRAIN a byte is taken only, and `END` ends the job. -/
theorem decTokenInTheDrain : Obligations.DecTokenInTheDrain := by
  intro s b hj hp
  have hguard : decDrains s = true := (decDrains_iff s).mpr ⟨hj, hp⟩
  exact ⟨exec_decInData_of_decDrains hguard b, exec_decInEnd_of_decDrains hguard b⟩

/-! ### The steps that take no token -/

theorem decAction_bit {s : State} (hj : s.job = .dec) (hp : s.dec.phase = .walk) (hbn : s.dec.bn ≠ 0#4) :
    decAction s = some .bit := by
  simp [decAction, hj, hp, hbn]

theorem decAction_emit {s : State} (hj : s.job = .dec) (hp : s.dec.phase = .emit) : decAction s = some .emit := by
  simp [decAction, hj, hp]

theorem decAction_fin {s : State} (hj : s.job = .dec) (hp : s.dec.phase = .fin) : decAction s = some .fin := by
  simp [decAction, hj, hp]

/-- The turn comes to the one step that is enabled (R152). -/
theorem step_decoder {s : State} {ts : List Turn} (hts : s.turns = .decoder :: ts) :
    step s = runFetched (decoderTurn { s with turns := ts }) := by
  rw [step_given hts, takeTurn]

/-- `{SR[6:0], 0}` is `SR` shifted by one (R144). -/
theorem extract_append_zero (sr : Byte) : (sr.extractLsb' 0 7 ++ 0#1 : BitVec 8) = sr <<< 1 := by
  simpa using (BitVec.shiftLeft_eq_concat_of_lt (x := sr) (n := 1) (by decide)).symm

/-- Settles O43: the turn is given, so the step is DEC-BIT, which tests the child as R145 does. -/
theorem decBitWalksOneBit : Obligations.DecBitWalksOneBit := by
  intro s ts hts hj hp hbn
  have ha : decAction { s with turns := ts } = some .bit := decAction_bit hj hp hbn
  simp only [ite_refKind, extract_append_zero]
  rw [step_decoder hts, decoderTurn, ha]
  rfl

/-- Settles O44: the turn is given, so the step is DEC-EMIT in `D_EMIT` and DEC-FIN in `D_FIN`. -/
theorem decEmitAndFin : Obligations.DecEmitAndFin := by
  intro s ts hts hj
  refine ⟨fun hp => ?_, fun hp => ?_⟩
  · have ha : decAction { s with turns := ts } = some .emit := decAction_emit hj hp
    have hdata : (0#1 ++ s.dec.outb : BitVec 9) = Token.data s.dec.outb := zero_append_eq_setWidth s.dec.outb
    rw [step_decoder hts, decoderTurn, ha, hdata]
    rfl
  · have ha : decAction { s with turns := ts } = some .fin := decAction_fin hj hp
    rw [step_decoder hts, decoderTurn, ha]
    rfl

/-! ### What the decoder's turn can come to (R143 to R148) -/

/-- The states that an enabled step of the decoder can lead to. -/
inductive DecoderMoved (s : State) : State → Prop where
  /-- DEC-FILL on `DATA(b)`. -/
  | fill (b : Byte) (ht : s.ports.decIn ≠ []) : DecoderMoved s (fillByte b (takeDecIn s))
  /-- DEC-FILL on `END`. -/
  | trunc (info : BitVec 9) : DecoderMoved s (raise .trunc info (takeDecIn s))
  /-- DEC-DRAIN on `DATA(b)`. -/
  | discard (ht : s.ports.decIn ≠ []) : DecoderMoved s (takeDecIn s)
  /-- DEC-DRAIN on `END`. -/
  | drained : DecoderMoved s (endJob (takeDecIn s))
  /-- DEC-BIT. -/
  | bit (hp : s.dec.phase = .walk) (hbn : s.dec.bn ≠ 0#4) : DecoderMoved s (decBit s)
  /-- DEC-EMIT. -/
  | emit (hp : s.dec.phase = .emit) : DecoderMoved s (decEmit s)
  /-- DEC-FIN. -/
  | fin (hp : s.dec.phase = .fin) : DecoderMoved s (decFin s)

/-- Inversion of the decoder's turn where it has an enabled step. -/
theorem decoderTurn_cases {s t : State} {a : DecAct} (ha : decAction s = some a)
    (h : runFetched (decoderTurn s) = .next t) : DecoderMoved s t := by
  rw [decoderTurn, ha] at h
  cases a with
  | token =>
    obtain ⟨-, -, hne⟩ := decAction_some ha
    cases ht : s.ports.decIn with
    | nil => exact absurd ht hne
    | cons tok toks =>
      simp only [ht] at h
      rcases exec_decToken ha h with ⟨b, rfl⟩ | rfl | ⟨info, rfl⟩ | ⟨rfl, -, -⟩
      · exact .fill b hne
      · exact .discard hne
      · exact .trunc info
      · exact .drained
  | bit =>
    obtain ⟨-, hp, hbn⟩ := decAction_some ha
    cases h
    exact .bit hp hbn
  | emit =>
    cases h
    exact .emit (decAction_some ha).2
  | fin =>
    cases h
    exact .fin (decAction_some ha).2

/-! ### The measure (R152) -/

/-- What a phase adds to the measure. -/
def phaseWeight : DecPhase → Nat
  | .emit => 2
  | .walk => 1
  | .fin => 1
  | .drain => 0

/-- A bound on the decoder's steps left: 24 for a token on offer, 2 for a bit held and the phase's weight. -/
def decMeasure (s : State) : Nat :=
  24 * s.ports.decIn.length + 2 * s.dec.bn.toNat + phaseWeight s.dec.phase

theorem phaseWeight_le_two (p : DecPhase) : phaseWeight p ≤ 2 := by
  cases p <;> decide

@[simp] theorem arrive_dec_bn (r : Ref) (s : State) : (arrive r s).dec.bn = s.dec.bn := by
  rcases arrive_cases r s with he | he | ⟨-, -, he⟩ | he <;> simp [he]

/-- The bit consumed is worth two, and `D_WALK` weighs at most one less than the phase that the arrival leads to. -/
theorem decMeasure_decBit {s : State} (hp : s.dec.phase = .walk) (hbn : s.dec.bn ≠ 0#4) :
    decMeasure (decBit s) < decMeasure s := by
  have hpred : (s.dec.bn - 1).toNat + 1 = s.dec.bn.toNat := by bv_omega
  have hports : (decBit s).ports = s.ports := by simp [decBit]
  have hbits : (decBit s).dec.bn = s.dec.bn - 1 := by simp [decBit]
  have hweight := phaseWeight_le_two (decBit s).dec.phase
  simp only [decMeasure, hports, hbits, hp, phaseWeight] at hweight ⊢
  omega

/-- Every step of the decoder that keeps the job running lowers the measure (R152). -/
theorem DecoderMoved.measure {s t : State} (h : DecoderMoved s t) (hj : t.job = .dec) : decMeasure t < decMeasure s := by
  cases h with
  | fill b ht =>
    have hlen := List.length_tail_add_one _ (List.length_pos_of_ne_nil ht)
    have hfilled : (8 : BitVec 4).toNat = 8 := rfl
    simp only [decMeasure, fillByte_ports, fillByte_dec, takeDecIn_ports, takeDecIn_dec, hfilled]
    omega
  | discard ht =>
    have hlen := List.length_tail_add_one _ (List.length_pos_of_ne_nil ht)
    simp only [decMeasure, takeDecIn_ports, takeDecIn_dec]
    omega
  | trunc | drained => cases hj
  | bit hp hbn => exact decMeasure_decBit hp hbn
  | emit hp => simp [decMeasure, phaseWeight, hp]
  | fin hp => simp [decMeasure, phaseWeight, hp]

/-- Settles O45, by the step that the decoder's turn comes to. -/
theorem decoderStepsLowerAMeasure : Obligations.DecoderStepsLowerAMeasure := by
  intro s t ts hts ha hstep hj
  obtain ⟨a, ha⟩ := Option.isSome_iff_exists.mp ha
  rw [step_decoder hts] at hstep
  have hmoved : DecoderMoved { s with turns := ts } t := decoderTurn_cases ha hstep
  exact hmoved.measure hj

end Sys2Proof.Machine
end

section
/-! PROOFS. How jobs end (70_reset_and_hazards.md R230; 41_decoder.md R148, 43_encoder.md R177). -/

namespace Sys2Proof.Machine

/-! ### Whose turn it is where an instruction runs -/

theorem nextTurn_of_fetch_abort {s u : State} (h : fetch s = .instr .abort u) : (nextTurn s).1 = some .command := by
  rcases fetch_instr h with ⟨hm, -⟩ | ⟨-, tok, htok⟩ | ⟨-, tok, htok⟩
  · exact hm
  · unfold decodeEncIn at htok
    split at htok <;> cases htok
  · unfold decodeDecIn at htok
    split at htok <;> cases htok

theorem nextTurn_of_fetch_decInEnd {s u : State} {d : Byte} (h : fetch s = .instr (.decInEnd d) u) :
    (nextTurn s).1 = some .decoder := by
  rcases fetch_instr h with ⟨-, w, hd⟩ | ⟨-, tok, htok⟩ | ⟨hm, -⟩
  · have hrow := eq_selectRow_of_decodeCmd hd
    unfold selectRow at hrow
    split at hrow <;> cases hrow
  · unfold decodeEncIn at htok
    split at htok <;> cases htok
  · exact hm

/-! ### The two ways a job ends, by `JOB` and by whose turn it was -/

theorem jobEnd_success_iff (s t : State) :
    jobEnd s t = some .success ↔
      t.job = .idle ∧ busyPin s = true ∧ ((nextTurn s).1 = some .encoder ∨ (nextTurn s).1 = some .decoder) := by
  unfold jobEnd
  cases t.job with
  | idle =>
    cases busyPin s
    · simp
    · cases (nextTurn s).1 with
      | none => simp
      | some m => cases m <;> simp
  | halted => by_cases hj : s.job = .halted <;> simp [hj]
  | enc | dec => simp

theorem jobEnd_failure_iff (s t : State) :
    jobEnd s t = some .failure ↔
      (t.job = .halted ∧ s.job ≠ .halted)
        ∨ (t.job = .idle ∧ busyPin s = true ∧ (nextTurn s).1 ≠ some .encoder ∧ (nextTurn s).1 ≠ some .decoder) := by
  unfold jobEnd
  cases t.job with
  | idle =>
    cases busyPin s
    · simp
    · cases (nextTurn s).1 with
      | none => simp
      | some m => cases m <;> simp
  | halted => by_cases hj : s.job = .halted <;> simp [hj]
  | enc | dec => simp

/-! ### The events of R230 -/

/-- A job's engine ends it: ENC-END, or DEC-DRAIN taking `END`. -/
def EngineEnds (s : State) : Prop :=
  (s.job = .enc ∧ (nextTurn s).1 = some .encoder ∧ encAction s = some .fin)
    ∨ (s.job = .dec ∧ s.dec.phase = .drain ∧ ∃ d u, fetch s = .instr (.decInEnd d) u)

/-- The host ends a job: reset, or `ABORT`. -/
def HostEnds (s : State) : Prop :=
  (nextTurn s).1 = some .reset ∨ ∃ u, fetch s = .instr .abort u

theorem EngineEnds.turn {s : State} (h : EngineEnds s) :
    busyPin s = true ∧ ((nextTurn s).1 = some .encoder ∨ (nextTurn s).1 = some .decoder) := by
  rw [busyPin_iff]
  rcases h with ⟨hj, hm, -⟩ | ⟨hj, -, d, u, hf⟩
  · exact ⟨.inl hj, .inl hm⟩
  · exact ⟨.inr hj, .inr (nextTurn_of_fetch_decInEnd hf)⟩

theorem HostEnds.turn {s : State} (h : HostEnds s) :
    (nextTurn s).1 ≠ some .encoder ∧ (nextTurn s).1 ≠ some .decoder := by
  rcases h with hm | ⟨u, hf⟩
  · simp [hm]
  · simp [nextTurn_of_fetch_abort hf]

/-- Reset and `ABORT` leave the block in `IDLE` (R124, R220). -/
theorem HostEnds.idle {s t : State} (h : HostEnds s) (hstep : step s = .next t) : t.job = .idle := by
  rcases h with hm | ⟨u, hf⟩
  · rw [step_of_nextTurn (u := (nextTurn s).2) (Prod.ext hm rfl)] at hstep
    cases hstep
    rfl
  · rw [step, hf] at hstep
    cases hstep
    rfl

/-- A job that stops running in `IDLE` was ended by its engine or by the host (R45). -/
theorem ends_of_idle {s t : State} (hstep : step s = .next t) (hbusy : busyPin s = true) (ht : t.job = .idle) :
    HostEnds s ∨ EngineEnds s := by
  have hne : t.job ≠ s.job := by
    rw [busyPin_iff] at hbusy
    rcases hbusy with hj | hj <;> simp [ht, hj]
  rcases jobChangesOnlyAsR45Says s t hstep hne with ⟨-, hr | ha | he⟩ | ⟨hj, -⟩ | ⟨hj, -⟩ | ⟨hj, -⟩
  · exact .inl (.inl hr)
  · exact .inl (.inr ha)
  · exact .inr he
  all_goals simp [ht] at hj

/-- Settles O59: the engines' and the host's ends are told apart by whose turn it was. -/
theorem jobsEndAsR230Says : Obligations.JobsEndAsR230Says := by
  intro s t hstep
  rw [← busyPin_iff]
  show (_ ↔ t.job = .idle ∧ EngineEnds s) ∧ (_ ↔ _ ∨ (busyPin s = true ∧ HostEnds s))
  rw [jobEnd_success_iff, jobEnd_failure_iff]
  constructor
  · constructor
    · rintro ⟨ht, hbusy, hm⟩
      rcases ends_of_idle hstep hbusy ht with hhost | hengine
      · exact absurd hm (not_or.mpr hhost.turn)
      · exact ⟨ht, hengine⟩
    · rintro ⟨ht, hengine⟩
      exact ⟨ht, hengine.turn⟩
  · refine or_congr_right ⟨?_, ?_⟩
    · rintro ⟨ht, hbusy, hm⟩
      rcases ends_of_idle hstep hbusy ht with hhost | hengine
      · exact ⟨hbusy, hhost⟩
      · exact absurd hengine.turn.2 (not_or.mpr hm)
    · rintro ⟨hbusy, hhost⟩
      exact ⟨hhost.idle hstep, hbusy, hhost.turn⟩

end Sys2Proof.Machine
end

section
/-! PROOFS. The reading of a bit sequence (41_decoder.md R142 to R145, R153): what one bit leads to, the reading of two
sequences in a row, and the reading of a payload with the tree it was built from (95_test_vectors.md P1, P3). -/

namespace Sys2Proof.Machine

/-- The ref that the bit `b` leads to from the node `r` names (R144). -/
def nextRef (nodes : Nodes) (r : Ref) (b : Bool) : Ref := child (nodes[(Ref.val r).toNat]'(Ref.val r).isLt) b

/-! ### One bit, by the kind of the ref it leads to (R145) -/

section
variable {nodes : Nodes} {root r : Ref} {b : Bool} (bits : List Bool)

theorem parse_eof (hl : Ref.isLeaf (nextRef nodes r b) = true) (he : Ref.isEof (nextRef nodes r b) = true) :
    parse nodes root r (b :: bits) = ([], .eof) := by
  unfold nextRef at hl he
  simp [parse, hl, he]

theorem parse_byte (hl : Ref.isLeaf (nextRef nodes r b) = true) (he : Ref.isEof (nextRef nodes r b) = false) :
    parse nodes root r (b :: bits)
      = (Ref.val (nextRef nodes r b) :: (parse nodes root root bits).1, (parse nodes root root bits).2) := by
  unfold nextRef at hl he ⊢
  simp [parse, hl, he]

theorem parse_badnode (hl : Ref.isLeaf (nextRef nodes r b) = false)
    (hv : (nodes[(Ref.val (nextRef nodes r b)).toNat]'(Ref.val (nextRef nodes r b)).isLt).v = false) :
    parse nodes root r (b :: bits) = ([], .badnode (Ref.val (nextRef nodes r b))) := by
  unfold nextRef at hl hv ⊢
  simp [parse, hl, hv]

theorem parse_node (h : NodeRef nodes (nextRef nodes r b)) :
    parse nodes root r (b :: bits) = parse nodes root (nextRef nodes r b) bits := by
  obtain ⟨hl, hv⟩ := h
  unfold nextRef at hl hv ⊢
  simp [parse, hl, hv]

end

/-- A ref is the end-of-stream leaf, a byte leaf, an internal ref of an entry that is not valid, or one of a valid entry. -/
theorem ref_cases (nodes : Nodes) (r : Ref) :
    (Ref.isLeaf r = true ∧ Ref.isEof r = true) ∨ (Ref.isLeaf r = true ∧ Ref.isEof r = false)
      ∨ (Ref.isLeaf r = false ∧ (nodes[(Ref.val r).toNat]'(Ref.val r).isLt).v = false) ∨ NodeRef nodes r := by
  unfold NodeRef
  cases Ref.isLeaf r
  · cases (nodes[(Ref.val r).toNat]'(Ref.val r).isLt).v <;> simp
  · cases Ref.isEof r <;> simp

/-! ### Two sequences in a row -/

/-- A reading goes on with more bits from the place where its bits ran out; one that ended ignores them. -/
def readOn (nodes : Nodes) (root : Ref) (reading : List Byte × WalkEnd) (bits : List Bool) : List Byte × WalkEnd :=
  match reading.2 with
  | .trunc r => (reading.1 ++ (parse nodes root r bits).1, (parse nodes root r bits).2)
  | .eof => reading
  | .badnode _ => reading

theorem readOn_cons (nodes : Nodes) (root : Ref) (b : Byte) (reading : List Byte × WalkEnd) (bits : List Bool) :
    readOn nodes root (b :: reading.1, reading.2) bits
      = (b :: (readOn nodes root reading bits).1, (readOn nodes root reading bits).2) := by
  obtain ⟨bytes, e⟩ := reading
  cases e <;> rfl

theorem parse_append (nodes : Nodes) (root r : Ref) (bits more : List Bool) :
    parse nodes root r (bits ++ more) = readOn nodes root (parse nodes root r bits) more := by
  induction bits generalizing r with
  | nil => rfl
  | cons b bits ih =>
    rw [List.cons_append]
    rcases ref_cases nodes (nextRef nodes r b) with ⟨hl, he⟩ | ⟨hl, he⟩ | ⟨hl, hv⟩ | hnode
    · rw [parse_eof _ hl he, parse_eof _ hl he]
      rfl
    · rw [parse_byte _ hl he, parse_byte _ hl he, readOn_cons, ih]
    · rw [parse_badnode _ hl hv, parse_badnode _ hl hv]
      rfl
    · rw [parse_node _ hnode, parse_node _ hnode, ih]

/-! ### The code words of a tree -/

/-- The reading of a leaf's path ends there: the end-of-stream leaf ends it, after a byte leaf it goes on at the root. -/
theorem parse_path {nodes : Nodes} {root r r' : Ref} {p : Path} (hl : Ref.isLeaf r = false)
    (hf : follow nodes r p = some r') (hl' : Ref.isLeaf r' = true) (bits : List Bool) :
    parse nodes root r (p ++ bits)
      = if Ref.isEof r' = true then ([], .eof)
        else (Ref.val r' :: (parse nodes root root bits).1, (parse nodes root root bits).2) := by
  induction p generalizing r with
  | nil =>
    obtain rfl : r = r' := by simpa [follow] using hf
    simp [hl] at hl'
  | cons b p ih =>
    have hf' : follow nodes (nextRef nodes r b) p = some r' := by
      rw [follow, if_neg (by simp [hl])] at hf
      dsimp only at hf
      split at hf
      · exact hf
      · cases hf
    rw [List.cons_append]
    rcases ref_cases nodes (nextRef nodes r b) with ⟨hn, he⟩ | ⟨hn, he⟩ | ⟨hn, hv⟩ | hnode
    · obtain ⟨rfl, rfl⟩ := follow_leaf hn hf'
      rw [parse_eof _ hn he, if_pos he]
    · obtain ⟨rfl, rfl⟩ := follow_leaf hn hf'
      rw [parse_byte _ hn he, if_neg (by simp [he])]
      rfl
    · cases p with
      | nil =>
        obtain rfl : nextRef nodes r b = r' := by simpa [follow] using hf'
        simp [hn] at hl'
      | cons c p => simp [follow, hn, hv] at hf'
    · rw [parse_node _ hnode, ih hnode.1 hf']

/-- A leaf's `E` bit is bit 8 of its symbol id (R16, R97). -/
theorem isEof_of_isLeaf {r : Ref} (hl : Ref.isLeaf r = true) : Ref.isEof r = (Ref.sym r).getLsbD 8 := by
  rw [Ref.isLeaf] at hl
  simp [Ref.isEof, Ref.sym, hl]

theorem val_eq_sym (r : Ref) : Ref.val r = (Ref.sym r).setWidth 8 := by
  simp [Ref.val, Ref.sym]

theorem parse_eofPath {nodes : Nodes} {root r : Ref} {p : Path} (hl : Ref.isLeaf r = false)
    (hp : leafAt nodes r p Config.eofId) (bits : List Bool) : parse nodes root r (p ++ bits) = ([], .eof) := by
  obtain ⟨r', hf, hl', hsym⟩ := hp
  have heof : Ref.isEof r' = true := by
    rw [isEof_of_isLeaf hl', hsym]
    rfl
  rw [parse_path hl hf hl', if_pos heof]

theorem parse_bytePath {nodes : Nodes} {root r : Ref} {p : Path} {b : Byte} (hl : Ref.isLeaf r = false)
    (hp : leafAt nodes r p (Byte.zext9 b)) (bits : List Bool) :
    parse nodes root r (p ++ bits) = (b :: (parse nodes root root bits).1, (parse nodes root root bits).2) := by
  obtain ⟨r', hf, hl', hsym⟩ := hp
  have heof : ¬ Ref.isEof r' = true := by
    rw [isEof_of_isLeaf hl', hsym]
    simp [Byte.zext9]
  have hval : Ref.val r' = b := by
    rw [val_eq_sym, hsym]
    simp [Byte.zext9]
  rw [parse_path hl hf hl', if_neg heof, hval]

/-- The path of a symbol with an entry is the one the table holds. -/
theorem holdsPath_pathOf {t : Tbl} {k : SymId} (h : hasEntry t k = true) : holdsPath t k (pathOf t k) := by
  obtain ⟨p, hp⟩ := (hasEntry_iff t k).mp h
  rw [holdsPath, pathOf, hp]
  rfl

/-- A table that holds leaves' paths only reads its payloads back, whatever bits follow (R150, R153). -/
theorem parse_payloadBits {nodes : Nodes} {root : Ref} {t : Tbl} (hl : Ref.isLeaf root = false)
    (hleaves : ∀ k p, holdsPath t k p → leafAt nodes root p k) (heof : hasEntry t Config.eofId = true)
    {input : List Byte} (hentries : ∀ b ∈ input, hasEntry t (Byte.zext9 b) = true) (pad : List Bool) :
    parse nodes root root (payloadBits t input ++ pad) = (input, .eof) := by
  have hpath : ∀ k, hasEntry t k = true → leafAt nodes root (pathOf t k) k :=
    fun k hk => hleaves k _ (holdsPath_pathOf hk)
  unfold payloadBits
  induction input with
  | nil => exact parse_eofPath hl (hpath _ heof) pad
  | cons b input ih =>
    obtain ⟨hb, hrest⟩ := List.forall_mem_cons.mp hentries
    rw [List.flatMap_cons, List.append_assoc, List.append_assoc, parse_bytePath hl (hpath _ hb), ← List.append_assoc,
      ih hrest]

/-- Settles O47: the table of a successful build holds exactly the leaves' paths, the end-of-stream leaf's among them. -/
theorem readingInvertsThePayload : Obligations.ReadingInvertsThePayload := by
  intro s t input pad hinv hj hl he ht hentries
  obtain ⟨hvalid, hholds⟩ := encStartAcceptsOnlyValidTrees s t hinv hj he ht
  obtain ⟨p, hp⟩ := hvalid.eofReached
  have heof : hasEntry t.tbl Config.eofId = true := (hasEntry_iff_holdsPath _ _).mpr ⟨p, (hholds _ _).mpr hp⟩
  exact parse_payloadBits hl (fun k q => (hholds k q).mp) heof hentries pad

end Sys2Proof.Machine
end

section
/-! PROOFS. A decode job (41_decoder.md R142 to R154): what each step of the decoder takes and sends with nobody else to move,
the walk over the bits held and over the input bytes, and the job up to each of its three ends. -/

namespace Sys2Proof.Machine

/-! ### The decoder with nobody else to move -/

/-- A decode job runs and nobody else has a move: no order is left, no command is offered and no response is pending. -/
structure Decoding (s : State) : Prop where
  inv : s.Inv
  job : s.job = .dec
  turns : s.turns = []
  cmd : s.ports.cmd = []
  rsp : s.rsp.v = false

/-- Then the step is the decoder's, if it has one. -/
theorem Decoding.step_eq {s : State} (h : Decoding s) {a : DecAct} (ha : decAction s = some a) :
    step s = runFetched (decoderTurn s) := by
  have henc : encAction s = none := by simp [encAction, h.job]
  have hturn : nextTurn s = (some .decoder, s) := by
    simp [nextTurn, channelReady, engineReady, h.turns, h.cmd, h.rsp, henc, ha]
  rw [step_of_nextTurn hturn, takeTurn]

/-- A step of the decoder keeps the tree store, the order, the command channel and the response slot, and it keeps `ERR`
where the job goes on (R143 to R148). -/
theorem DecoderMoved.frame {s t : State} (h : DecoderMoved s t) :
    t.root = s.root ∧ t.nodes = s.nodes ∧ t.turns = s.turns ∧ t.ports.cmd = s.ports.cmd ∧ t.rsp = s.rsp
      ∧ (t.job = .dec → t.err = s.err) := by
  cases h with
  | bit =>
    unfold decBit
    generalize child (s.node s.dec.cur.val) (s.dec.sr.getLsbD 7) = r
    rcases arrive_cases r (consumeBit s) with he | he | ⟨-, -, he⟩ | he <;> simp [he]
  | _ => simp

/-- From `s` to `t` the decoder takes the tokens `taken` and sends the tokens `sent`; the tree store stays, and where the job
goes on `ERR` does too (R143 to R148). -/
structure Decodes (s t : State) (taken sent : List Token) : Prop where
  reaches : Reaches s t
  root : t.root = s.root
  nodes : t.nodes = s.nodes
  decIn : s.ports.decIn = taken ++ t.ports.decIn
  decOut : t.ports.decOut = s.ports.decOut ++ sent
  running : t.job = .dec → Decoding t ∧ t.err = s.err

theorem Decoding.decodes_self {s : State} (h : Decoding s) : Decodes s s [] [] :=
  ⟨.refl, rfl, rfl, rfl, by simp, fun _ => ⟨h, rfl⟩⟩

theorem Decodes.trans {s t u : State} {taken taken' sent sent' : List Token} (h : Decodes s t taken sent)
    (hj : t.job = .dec) (h' : Decodes t u taken' sent') : Decodes s u (taken ++ taken') (sent ++ sent') where
  reaches := h.reaches.trans h'.reaches
  root := h'.root.trans h.root
  nodes := h'.nodes.trans h.nodes
  decIn := by rw [h.decIn, h'.decIn, List.append_assoc]
  decOut := by rw [h'.decOut, h.decOut, List.append_assoc]
  running hu := ⟨(h'.running hu).1, (h'.running hu).2.trans (h.running hj).2⟩

theorem decodeDecIn_data (b : Byte) : decodeDecIn (Token.data b) = .decInData b := by
  simp [decodeDecIn, isEnd_data, payload_data]

theorem decodeDecIn_endWith (d : Byte) : decodeDecIn (Token.endWith d) = .decInEnd d := by
  simp [decodeDecIn, isEnd_endWith, payload_endWith]

/-! ### What each step of the decoder takes and sends (R143 to R148) -/

section
variable {s : State} (h : Decoding s)
include h

/-- One step of the decoder. -/
theorem Decoding.decodes {t : State} {a : DecAct} (ha : decAction s = some a)
    (hrun : runFetched (decoderTurn s) = .next t) {taken sent : List Token}
    (hin : s.ports.decIn = taken ++ t.ports.decIn) (hout : t.ports.decOut = s.ports.decOut ++ sent) :
    Decodes s t taken sent := by
  have hstep : step s = .next t := (h.step_eq ha).trans hrun
  obtain ⟨hroot, hnodes, hturns, hcmd, hrsp, herr⟩ := (decoderTurn_cases ha hrun).frame
  exact {
    reaches := .single hstep
    root := hroot
    nodes := hnodes
    decIn := hin
    decOut := hout
    running := fun hj => ⟨{
      inv := everyStepKeepsTheInvariant s t h.inv hstep
      job := hj
      turns := hturns.trans h.turns
      cmd := hcmd.trans h.cmd
      rsp := hrsp ▸ h.rsp }, herr hj⟩ }

/-- DEC-FILL or DEC-DRAIN on the token offered. -/
theorem Decoding.token {t : State} {tok : Token} {rest : List Token} (hg : decFills s = true ∨ decDrains s = true)
    (hin : s.ports.decIn = tok :: rest) (hexec : exec (decodeDecIn tok) s = .next t) (hrest : t.ports.decIn = rest)
    (hout : t.ports.decOut = s.ports.decOut) : Decodes s t [tok] [] :=
  h.decodes (decAction_token hg (by simp [hin])) (by rw [decoderTurn_token hg hin, runFetched, hexec])
    (by simp [hin, hrest]) (by simp [hout])

theorem Decoding.fill (hp : s.dec.phase = .walk) (hbn : s.dec.bn = 0#4) {b : Byte} {rest : List Token}
    (hin : s.ports.decIn = Token.data b :: rest) : Decodes s (fillByte b (takeDecIn s)) [Token.data b] [] := by
  have hg : decFills s = true := (decFills_iff s).mpr ⟨h.job, hp, hbn⟩
  exact h.token (.inl hg) hin (by rw [decodeDecIn_data, exec_decInData_of_decFills hg]) (by simp [hin]) rfl

theorem Decoding.trunc (hp : s.dec.phase = .walk) (hbn : s.dec.bn = 0#4) {d : Byte} {rest : List Token}
    (hin : s.ports.decIn = Token.endWith d :: rest) :
    Decodes s (raise .trunc (s.dec.cur.setWidth 9) (takeDecIn s)) [Token.endWith d] [] := by
  have hg : decFills s = true := (decFills_iff s).mpr ⟨h.job, hp, hbn⟩
  exact h.token (.inl hg) hin (by rw [decodeDecIn_endWith, exec_decInEnd_of_decFills hg]) (by simp [hin]) rfl

theorem Decoding.discard (hp : s.dec.phase = .drain) {b : Byte} {rest : List Token}
    (hin : s.ports.decIn = Token.data b :: rest) : Decodes s (takeDecIn s) [Token.data b] [] := by
  have hg : decDrains s = true := (decDrains_iff s).mpr ⟨h.job, hp⟩
  exact h.token (.inr hg) hin (by rw [decodeDecIn_data, exec_decInData_of_decDrains hg]) (by simp [hin]) rfl

theorem Decoding.drained (hp : s.dec.phase = .drain) {d : Byte} {rest : List Token}
    (hin : s.ports.decIn = Token.endWith d :: rest) : Decodes s (endJob (takeDecIn s)) [Token.endWith d] [] := by
  have hg : decDrains s = true := (decDrains_iff s).mpr ⟨h.job, hp⟩
  exact h.token (.inr hg) hin (by rw [decodeDecIn_endWith, exec_decInEnd_of_decDrains hg]) (by simp [hin]) rfl

theorem Decoding.bit (hp : s.dec.phase = .walk) (hbn : s.dec.bn ≠ 0#4) : Decodes s (decBit s) [] [] := by
  have ha := decAction_bit h.job hp hbn
  exact h.decodes ha (by rw [decoderTurn, ha]; rfl) (by simp [decBit]) (by simp [decBit])

theorem Decoding.emit (hp : s.dec.phase = .emit) : Decodes s (decEmit s) [] [Token.data s.dec.outb] := by
  have ha := decAction_emit h.job hp
  exact h.decodes ha (by rw [decoderTurn, ha]; rfl) (by simp) (by simp)

theorem Decoding.fin (hp : s.dec.phase = .fin) : Decodes s (decFin s) [] [Token.fin] := by
  have ha := decAction_fin h.job hp
  exact h.decodes ha (by rw [decoderTurn, ha]; rfl) (by simp) (by simp)

end

/-! ### An arrival, by the kind of the ref (R144, R145) -/

section
variable {r : Ref} {s : State}

theorem arrive_eof (hl : Ref.isLeaf r = true) (he : Ref.isEof r = true) :
    arrive r s = { s with dec := { s.dec with phase := .fin } } := by
  simp [arrive, hl, he]

theorem arrive_byte (hl : Ref.isLeaf r = true) (he : Ref.isEof r = false) :
    arrive r s = { s with dec := { s.dec with outb := Ref.val r, phase := .emit } } := by
  simp [arrive, hl, he]

theorem arrive_badnode (hl : Ref.isLeaf r = false) (hv : (s.node (Ref.val r)).v = false) :
    arrive r s = raise .badnode (Byte.zext9 (Ref.val r)) s := by
  simp [arrive, hl, hv]

theorem arrive_node (h : NodeRef s.nodes r) : arrive r s = { s with dec := { s.dec with cur := r } } := by
  obtain ⟨hl, hv⟩ := h
  have hnode : (s.node (Ref.val r)).v = true := hv
  simp [arrive, hl, hnode]

end

/-! ### The walk -/

/-- The reading of `bits` by the walk from where it stands. -/
def State.reading (s : State) (bits : List Bool) : List Byte × WalkEnd := parse s.nodes s.root.ref s.dec.cur bits

/-- Where the machine stands when a walk with `err` in `ERR` has ended: it is about to send `END`, it waits for a token at the
ref where the bits ran out, or it has halted with `BADNODE`. -/
def WalkStands (err : BitVec 10) (t : State) : WalkEnd → Prop
  | .eof => t.job = .dec ∧ t.dec.phase = .fin
  | .trunc r => t.job = .dec ∧ t.dec.phase = .walk ∧ t.dec.bn = 0#4 ∧ t.dec.cur = r
  | .badnode i => t.job = .halted ∧ t.err = err ||| 0x010#10 ∧ t.fault = { cause := 2#4, info := i.setWidth 9 }

/-- From `s` the decoder takes the tokens `taken`, sends the bytes of the reading and stands where it ends. -/
def Reads (s : State) (taken : List Token) (reading : List Byte × WalkEnd) : Prop :=
  ∃ t, Decodes s t taken (reading.1.map Token.data) ∧ WalkStands s.err t reading.2

/-- Steps that keep the job running, and then a reading. -/
theorem Decodes.reads {s u : State} {taken taken' : List Token} {bytes : List Byte} {reading : List Byte × WalkEnd}
    (h : Decodes s u taken (bytes.map Token.data)) (hj : u.job = .dec) (hr : Reads u taken' reading) :
    Reads s (taken ++ taken') (bytes ++ reading.1, reading.2) := by
  obtain ⟨t, ht, hstands⟩ := hr
  refine ⟨t, ?_, (h.running hj).2 ▸ hstands⟩
  rw [List.map_append]
  exact h.trans hj ht

/-- The bits held, next first (R22). -/
theorem srBits_succ (sr : Byte) {n : Nat} (hn : n < 8) :
    srBits sr (n + 1) = sr.getLsbD 7 :: srBits (sr <<< 1) n := by
  have hshift : byteBits (sr <<< 1) = (byteBits sr).drop 1 ++ [false] := byteBits_shiftLeft sr (by decide)
  rw [srBits, srBits, hshift, List.take_append_of_le_length (by simp; omega)]
  rfl

/-- DEC-BIT and, at a byte leaf, DEC-EMIT: the walk reads the bits held (R144 to R146). -/
theorem Decoding.heldBits {s : State} (h : Decoding s) (hp : s.dec.phase = .walk) :
    Reads s [] (s.reading (srBits s.dec.sr s.dec.bn.toNat)) := by
  generalize hn : s.dec.bn.toNat = n
  induction n generalizing s with
  | zero => exact ⟨s, h.decodes_self, h.job, hp, BitVec.eq_of_toNat_eq hn, rfl⟩
  | succ n ih =>
    have hbn : s.dec.bn ≠ 0#4 := by rintro h0; simp [h0] at hn
    have hpred : (s.dec.bn - 1).toNat = n := by bv_omega
    have hbit := h.bit hp hbn
    have hle := h.inv.bnBound
    rw [srBits_succ _ (by omega), State.reading]
    have hdec : decBit s = arrive (nextRef s.nodes s.dec.cur (s.dec.sr.getLsbD 7)) (consumeBit s) := rfl
    rw [hdec] at hbit
    rcases ref_cases s.nodes (nextRef s.nodes s.dec.cur (s.dec.sr.getLsbD 7))
      with ⟨hl, he⟩ | ⟨hl, he⟩ | ⟨hl, hv⟩ | hnode
    · rw [parse_eof _ hl he]
      rw [arrive_eof hl he] at hbit
      exact ⟨_, hbit, h.job, rfl⟩
    · rw [parse_byte _ hl he]
      rw [arrive_byte hl he] at hbit
      have hemit := hbit.trans h.job ((hbit.running h.job).1.emit rfl)
      exact hemit.reads (bytes := [_]) h.job (ih (hemit.running h.job).1 rfl hpred)
    · rw [parse_badnode _ hl hv]
      rw [arrive_badnode (s := consumeBit s) hl hv] at hbit
      exact ⟨_, hbit, rfl, rfl, rfl⟩
    · rw [parse_node _ hnode]
      rw [arrive_node (s := consumeBit s) hnode] at hbit
      exact hbit.reads (bytes := []) h.job (ih (hbit.running h.job).1 hp hpred)

/-- The walk reads input bytes none of which it stops before (R143, R153). -/
theorem Decoding.input {s : State} (h : Decoding s) (hp : s.dec.phase = .walk) (hbn : s.dec.bn = 0#4) (input : List Byte)
    {rest : List Token} (hin : s.ports.decIn = input.map Token.data ++ rest)
    (hopen : ∀ m, m < input.length → ∃ r, (s.reading ((input.take m).flatMap byteBits)).2 = .trunc r) :
    Reads s (input.map Token.data) (s.reading (input.flatMap byteBits)) := by
  induction input using List.reverseRecOn generalizing rest with
  | nil => exact ⟨s, h.decodes_self, h.job, hp, hbn, rfl⟩
  | append_singleton input b ih =>
    rw [List.map_append, List.append_assoc] at hin
    have hinit := ih hin fun m hm => by
      have hm' := hopen m (by simp; omega)
      rwa [List.take_append_of_le_length (by omega)] at hm'
    obtain ⟨r, hr⟩ : ∃ r, (s.reading (input.flatMap byteBits)).2 = .trunc r := by
      simpa using hopen input.length (by simp)
    obtain ⟨t, ht, hstands⟩ := hinit
    rw [hr] at hstands
    obtain ⟨hj, hpt, hbnt, hcur⟩ := hstands
    have hin' : t.ports.decIn = Token.data b :: rest := by
      have := ht.decIn
      rw [hin] at this
      exact (List.append_cancel_left this).symm
    have hfill := (ht.running hj).1.fill hpt hbnt hin'
    have hbyte := hfill.reads (bytes := []) hj ((hfill.running hj).1.heldBits hpt)
    have hwhole : s.reading ((input ++ [b]).flatMap byteBits)
        = ((s.reading (input.flatMap byteBits)).1 ++ (parse s.nodes s.root.ref r (byteBits b)).1,
          (parse s.nodes s.root.ref r (byteBits b)).2) := by
      rw [List.flatMap_append, State.reading, parse_append, readOn, ← State.reading, hr]
      simp
    have hplace : parse s.nodes s.root.ref r (byteBits b) = t.reading (byteBits b) := by
      rw [State.reading, ht.nodes, ht.root, hcur]
    rw [hwhole, hplace, List.map_append]
    exact ht.reads hj hbyte

/-- A reading that ended in the first bytes of an input is the reading of the whole. -/
theorem reading_of_closed (s : State) {input : List Byte} {n : Nat}
    (h : ¬ ∃ r, (s.reading ((input.take n).flatMap byteBits)).2 = .trunc r) :
    s.reading (input.flatMap byteBits) = s.reading ((input.take n).flatMap byteBits) := by
  rw [State.reading] at h
  conv_lhs => rw [← List.take_append_drop n input, List.flatMap_append, State.reading, parse_append, readOn]
  split
  · rename_i r hr
    exact absurd ⟨r, hr⟩ h
  · rfl
  · rfl

/-- Of the first parts of an input, the shortest that reads as the whole: the walk stops before no shorter one, and it is the
whole where the bits run out (R153). -/
theorem exists_shortest_reading (s : State) (input : List Byte) :
    ∃ n, n ≤ input.length
      ∧ s.reading ((input.take n).flatMap byteBits) = s.reading (input.flatMap byteBits)
      ∧ (∀ m, m < n → ∃ r, (s.reading ((input.take m).flatMap byteBits)).2 = .trunc r)
      ∧ (∀ r, (s.reading (input.flatMap byteBits)).2 = .trunc r → n = input.length) := by
  classical
  have hex : ∃ n, n = input.length ∨ ¬ ∃ r, (s.reading ((input.take n).flatMap byteBits)).2 = .trunc r := ⟨_, .inl rfl⟩
  have hopen : ∀ m, m < Nat.find hex → ∃ r, (s.reading ((input.take m).flatMap byteBits)).2 = .trunc r :=
    fun m hm => not_not.mp (not_or.mp (Nat.find_min hex hm)).2
  have hle := Nat.find_min' hex (.inl rfl)
  rcases Nat.find_spec hex with hn | hclosed
  · exact ⟨_, hle, by rw [hn, List.take_length], hopen, fun _ _ => hn⟩
  · have hwhole := reading_of_closed s hclosed
    exact ⟨_, hle, hwhole.symm, hopen, fun r hr => absurd ⟨r, hwhole ▸ hr⟩ hclosed⟩

/-- DEC-DRAIN discards the bytes left and ends the job at the input's `END` (R148, R154). -/
theorem Decoding.drain {s : State} (h : Decoding s) (hp : s.dec.phase = .drain) {input : List Byte} {d : Byte}
    {rest : List Token} (hin : s.ports.decIn = input.map Token.data ++ Token.endWith d :: rest) :
    ∃ t, Decodes s t (input.map Token.data ++ [Token.endWith d]) []
      ∧ t.ports.decIn = rest ∧ t.job = .idle ∧ t.err = s.err := by
  induction input generalizing s with
  | nil => exact ⟨_, h.drained hp hin, by simp [hin], rfl, rfl⟩
  | cons b input ih =>
    have hfirst := h.discard hp hin
    obtain ⟨t, ht, hleft, hj, herr⟩ := ih (hfirst.running h.job).1 hp (by simp [hin])
    exact ⟨t, hfirst.trans h.job ht, hleft, hj, herr⟩

/-! ### The job -/

/-- The walk of a job takes the shortest first part of its input that reads as the whole, sends the bytes read and stands where
the reading ends (R142, R153). -/
theorem Decoding.walkInput {s : State} (h : Decoding s) (hp : s.dec.phase = .walk) (hbn : s.dec.bn = 0#4)
    {input : List Byte} {rest : List Token} (hin : s.ports.decIn = input.map Token.data ++ rest) {n : Nat}
    (hn : n ≤ input.length)
    (hopen : ∀ m, m < n → ∃ r, (s.reading ((input.take m).flatMap byteBits)).2 = .trunc r) :
    ∃ t, Decodes s t ((input.take n).map Token.data) ((s.reading ((input.take n).flatMap byteBits)).1.map Token.data)
      ∧ WalkStands s.err t (s.reading ((input.take n).flatMap byteBits)).2
      ∧ t.ports.decIn = (input.drop n).map Token.data ++ rest := by
  have hsplit : s.ports.decIn
      = (input.take n).map Token.data ++ ((input.drop n).map Token.data ++ rest) := by
    rw [← List.append_assoc, ← List.map_append, List.take_append_drop, hin]
  obtain ⟨t, ht, hstands⟩ := h.input hp hbn (input.take n) hsplit fun m hm => by
    rw [List.length_take_of_le hn] at hm
    rw [List.take_take, Nat.min_eq_left hm.le]
    exact hopen m hm
  exact ⟨t, ht, hstands, List.append_cancel_left (ht.decIn.symm.trans hsplit)⟩

/-- Settles O46, by where the machine stands when the walk has ended. -/
theorem decodeJobSendsTheReading : Obligations.DecodeJobSendsTheReading := by
  intro s input d rest hinv hj hp hbn hcur hturns hcmd hrsp hin reading
  have h : Decoding s := ⟨hinv, hj, hturns, hcmd, hrsp⟩
  have hreading : ∀ bits, s.reading bits = parse s.nodes s.root.ref s.root.ref bits := fun bits => by
    rw [State.reading, hcur]
  obtain ⟨n, hn, hwhole, hopen, hlast⟩ := exists_shortest_reading s input
  obtain ⟨t, ht, hstands, hleft⟩ := h.walkInput hp hbn hin hn hopen
  have hread : s.reading ((input.take n).flatMap byteBits) = reading := hwhole.trans (hreading _)
  have hout := ht.decOut
  rw [hread] at hstands hout
  refine ⟨fun he => ?_, fun r he => ?_, fun i he => ?_⟩ <;> rw [he] at hstands
  · obtain ⟨hjt, hpt⟩ := hstands
    obtain ⟨hdecoding, herr⟩ := ht.running hjt
    have hfin := hdecoding.fin hpt
    obtain ⟨u, hu, hrest, hju, herru⟩ := (hfin.running hjt).1.drain rfl hleft
    refine ⟨u, (ht.reaches.trans hfin.reaches).trans hu.reaches, ?_, hrest, hju, herru.trans herr⟩
    rw [hu.decOut, List.append_nil, hfin.decOut, hout]
    rfl
  · obtain ⟨hjt, hpt, hbnt, rfl⟩ := hstands
    obtain ⟨hdecoding, herr⟩ := ht.running hjt
    rw [hlast _ (hwhole.symm ▸ hread ▸ he), List.drop_length] at hleft
    have htrunc := hdecoding.trunc hpt hbnt hleft
    refine ⟨_, ht.reaches.trans htrunc.reaches, ?_, by simp [hleft], rfl, ?_, rfl⟩
    · rw [htrunc.decOut, List.append_nil, hout]
    · rw [raise_err, takeDecIn_err, herr]
      rfl
  · obtain ⟨hjt, herr, hfault⟩ := hstands
    simp only [hreading] at hread hopen
    exact ⟨t, n, ht.reaches, hout, hn, hleft, by rw [hread, he], hopen, hjt, herr, hfault⟩

end Sys2Proof.Machine
end

section
/-! PROOFS. The table build on any tree (42_table_build.md R160 to R169): the defect behind each fault, the table left by it,
and the build of a tree that is a single leaf. -/

namespace Sys2Proof.Machine

/-! ### The traversal of a table without entries -/

/-- A traversal without a fault leaves in an emptied table exactly the leaves' paths (R161). -/
theorem holdsPath_of_visit_none {nodes : Nodes} {r : Ref} {t t' : Tbl}
    (h : visit nodes Config.maxLen r [] (invalidateTbl t) = (none, t')) (k : SymId) (p : Path) :
    holdsPath t' k p ↔ leafAt nodes r p k ∧ k.toNat < 257 := by
  simp [(visit_none h).1, not_holdsPath_invalidateTbl]

/-- A traversal of an emptied table that faults stopped at one place, with no `BADNODE` and no `DEPTH` to its left, the leaves
to its left recorded, and there the defect that the fault names (R161, R162, R169). -/
theorem exists_defectAt_of_visit_some {nodes : Nodes} {r : Ref} {t t' : Tbl} {f : JobFault} {info : BitVec 9}
    (h : visit nodes Config.maxLen r [] (invalidateTbl t) = (some (f, info), t')) :
    ∃ p, reachedClean nodes r p ∧ recordedBefore nodes r p t' ∧ defectAt nodes Config.maxLen r p t' f info := by
  obtain ⟨p, hlen, hholds, hclean, hdefect⟩ := visit_some h
  refine ⟨p, ⟨hlen, hclean⟩, fun k q hk => ?_, hdefect⟩
  have hk : k.toNat < 257 := hk
  simp [hholds, not_holdsPath_invalidateTbl, hk]

/-- A symbol that the table holds has its leaf to the left of the place where the traversal stopped. -/
theorem recordedBefore.leafAt_of_holdsPath {nodes : Nodes} {r : Ref} {p q : Path} {k : SymId} {t : Tbl}
    (h : recordedBefore nodes r p t) (hq : holdsPath t k q) : leafAt nodes r q k ∧ leftOf q p = true :=
  (h k q ((entryOf_isSome_iff t k).mp (Option.isSome_of_eq_some hq))).mp hq

/-! ### The build -/

/-- A build that faults met no root, a defect in the traversal, or no end-of-stream leaf in a whole traversal (R163). -/
theorem build_some {root : RootReg} {nodes : Nodes} {t t' : Tbl} {f : JobFault} {info : BitVec 9}
    (h : build root nodes t = (some (f, info), t')) :
    (root.v = false ∧ f = .noroot ∧ info = 0#9 ∧ t' = t)
      ∨ (root.v = true ∧ visit nodes Config.maxLen root.ref [] t = (some (f, info), t'))
      ∨ (root.v = true ∧ f = .noeof ∧ info = 0#9 ∧ visit nodes Config.maxLen root.ref [] t = (none, t')
          ∧ hasEntry t' Config.eofId = false) := by
  unfold build at h
  split at h
  · rename_i hv
    split at h
    · cases h
      exact .inr (.inl ⟨hv, ‹_›⟩)
    · split at h
      · cases h
      · cases h
        exact .inr (.inr ⟨hv, rfl, rfl, ‹_›, eq_false_of_ne_true ‹_›⟩)
  · cases h
    exact .inl ⟨eq_false_of_ne_true ‹_›, rfl, rfl, rfl⟩

/-- The build of a root that is a leaf records the root alone, under the zero-length path, and faults unless it is the
end-of-stream leaf (R163, R168). -/
theorem build_leaf {root : RootReg} (hv : root.v = true) (hl : Ref.isLeaf root.ref = true)
    (hk : (Ref.sym root.ref).toNat < 257) (nodes : Nodes) (t : Tbl) :
    ∃ t', build root nodes (invalidateTbl t)
        = (if Ref.sym root.ref = Config.eofId then none else some (.noeof, 0#9), t')
      ∧ ∀ k p, holdsPath t' k p ↔ (k = Ref.sym root.ref ∧ p = []) := by
  have hvisit := visit_leaf nodes Config.maxLen hl [] (invalidateTbl t)
  rw [if_neg (by simp)] at hvisit
  have hholds : ∀ k p, holdsPath (recordEntry (invalidateTbl t) (Ref.sym root.ref) []) k p
      ↔ (k = Ref.sym root.ref ∧ p = []) := fun k p => by
    simp [holdsPath_recordEntry, not_holdsPath_invalidateTbl, hk]
  have heof : hasEntry (recordEntry (invalidateTbl t) (Ref.sym root.ref) []) Config.eofId = true
      ↔ Ref.sym root.ref = Config.eofId := by
    rw [hasEntry_iff_holdsPath]
    simpa [hholds] using eq_comm
  refine ⟨_, ?_, hholds⟩
  rw [build, if_pos hv, hvisit]
  simp only [heof]
  split <;> rfl

/-! ### The command -/

theorem exec_encStart_of_idle {s : State} (hj : s.job = .idle) : exec .encStart s = .next (encStartEffect s) := by
  simp only [exec, execEncStart, whenIdle_idle hj]

theorem eq_encStartEffect {s t : State} (hj : s.job = .idle) (he : exec .encStart s = .next t) : t = encStartEffect s := by
  rw [exec_encStart_of_idle hj] at he
  cases he
  rfl

theorem encStartEffect_of_build_none {s : State} {tbl : Tbl} (hb : build s.root s.nodes (invalidateTbl s.tbl) = (none, tbl)) :
    encStartEffect s = startEncoder { s with tbl := tbl } := by
  simp only [encStartEffect, hb]

theorem encStartEffect_of_build_some {s : State} {f : JobFault} {info : BitVec 9} {tbl : Tbl}
    (hb : build s.root s.nodes (invalidateTbl s.tbl) = (some (f, info), tbl)) :
    encStartEffect s = raise f info { s with tbl := tbl } := by
  simp only [encStartEffect, hb]

/-- Settles O28: without a root the build ends before the traversal, on the emptied table. -/
theorem encStartWithoutRootFaults : Obligations.EncStartWithoutRootFaults := by
  intro s hj hv
  have hb : build s.root s.nodes (invalidateTbl s.tbl) = (some (.noroot, 0#9), invalidateTbl s.tbl) := by
    simp [build, hv]
  refine ⟨_, exec_encStart_of_idle hj, ?_⟩
  rw [encStartEffect_of_build_some hb]
  exact ⟨hasEntry_invalidateTbl s.tbl, rfl⟩

/-- A byte leaf carries the byte as its symbol (R96, R97). -/
theorem byteLeaf_isLeaf_sym (b : Byte) :
    Ref.isLeaf (2#2 ++ b : BitVec 10) = true ∧ Ref.sym (2#2 ++ b : BitVec 10) = b.setWidth 9 := by
  have hb := b.isLt
  refine ⟨(BitVec.getLsbD_append ..).trans (by simp), BitVec.eq_of_toNat_eq ?_⟩
  have hnat : (2#2 ++ b : BitVec 10).toNat = 512 + b.toNat := by
    refine (BitVec.toNat_append 2#2 b).trans ?_
    rw [← Nat.shiftLeft_add_eq_or_of_lt hb]
    rfl
  simp only [Ref.sym, BitVec.toNat_setWidth, hnat]
  omega

/-- Settles O29: the build records the root alone, and that is the end-of-stream leaf or is not. -/
theorem encStartOnSingleLeaf : Obligations.EncStartOnSingleLeaf := by
  intro s hj hv
  refine ⟨fun hroot => ?_, fun b hroot => ?_⟩ <;> refine ⟨_, exec_encStart_of_idle hj, ?_⟩
  · have hsym : Ref.sym s.root.ref = 256#9 := by rw [hroot]; decide
    have hl : Ref.isLeaf s.root.ref = true := by rw [hroot]; decide
    obtain ⟨tbl, hb, hholds⟩ := build_leaf hv hl (by rw [hsym]; decide) s.nodes s.tbl
    rw [hsym] at hb hholds
    rw [encStartEffect_of_build_none hb]
    exact ⟨rfl, hholds⟩
  · obtain ⟨hl, hsym⟩ := byteLeaf_isLeaf_sym b
    rw [← hroot] at hl hsym
    have hk : (b.setWidth 9 : SymId).toNat < 256 := by
      rw [BitVec.toNat_setWidth]
      omega
    have hne : (b.setWidth 9 : SymId) ≠ Config.eofId := fun he => by simp [he] at hk
    obtain ⟨tbl, hb, hholds⟩ := build_leaf hv hl (by rw [hsym]; omega) s.nodes s.tbl
    rw [hsym] at hb hholds
    rw [if_neg hne] at hb
    rw [encStartEffect_of_build_some hb]
    exact ⟨rfl, rfl, rfl, hholds⟩

/-- Settles O26: the table holds only leaves' paths, and no leaf lies below another. -/
theorem encStartTableIsPrefixFree : Obligations.EncStartTableIsPrefixFree := by
  intro s t hj he ht k k' p p' hne hp hp' hprefix
  obtain rfl := eq_encStartEffect hj he
  rcases encStartEffect_cases s with ⟨f, info, tbl, -, heff⟩ | ⟨tbl, hb, heff⟩ <;> rw [heff] at ht hp hp'
  · cases ht
  · obtain ⟨-, hvisit, -⟩ := build_none hb
    obtain ⟨q, rfl⟩ := hprefix
    obtain ⟨hleaf, -⟩ := (holdsPath_of_visit_none hvisit k p).mp hp
    obtain ⟨hleaf', -⟩ := (holdsPath_of_visit_none hvisit k' (p ++ q)).mp hp'
    obtain ⟨-, hk⟩ := leafAt_prefix hleaf hleaf'
    exact hne hk.symm

/-- Settles O27, by what the build met: no root, a defect at the place where the traversal stopped, or no end-of-stream leaf. -/
theorem encStartFaultNamesADefect : Obligations.EncStartFaultNamesADefect := by
  intro s t hj he ht
  obtain rfl := eq_encStartEffect hj he
  rcases encStartEffect_cases s with ⟨f, info, tbl, hb, heff⟩ | ⟨tbl, -, heff⟩ <;> rw [heff] at ht ⊢
  · refine ⟨rfl, ?_⟩
    rcases build_some hb with ⟨hv, rfl, rfl, rfl⟩ | ⟨hv, hvisit⟩ | ⟨hv, rfl, rfl, hvisit, heof⟩
    · exact .inl ⟨rfl, rfl, hv, hasEntry_invalidateTbl s.tbl⟩
    · obtain ⟨p, hclean, hbefore, hdefect⟩ := exists_defectAt_of_visit_some hvisit
      refine .inr (.inl ⟨hv, p, hclean, hbefore, ?_⟩)
      rcases hdefect with ⟨rfl, r, hf, hl, hn, rfl⟩ | ⟨rfl, hleaf, q, hq⟩ | ⟨rfl, r, hf, hl, hn, hlen, rfl⟩
      · exact .inl ⟨r, rfl, rfl, hf, hl, hn⟩
      · obtain ⟨hleaf', hleft⟩ := hbefore.leafAt_of_holdsPath hq
        exact .inr (.inl ⟨q, info, rfl, rfl, hleaf, hleaf', hleft⟩)
      · exact .inr (.inr ⟨r, rfl, rfl, hf, hl, hn, hlen⟩)
    · have hholds := holdsPath_of_visit_none hvisit
      refine .inr (.inr ⟨hv, rfl, rfl, fun p hp => ?_, fun q r hf => ((visit_none hvisit).2 q r hf).2, fun k q hk => ?_⟩)
      · have hentry : hasEntry tbl Config.eofId = true :=
          (hasEntry_iff_holdsPath _ _).mpr ⟨p, (hholds _ p).mpr ⟨hp, by decide⟩⟩
        rw [heof] at hentry
        cases hentry
      · exact (hholds k q).trans (and_iff_left hk)
  · exact absurd rfl ht

end Sys2Proof.Machine
end

section
/-! PROOFS. The steps of the encoder (43_encoder.md R171 to R177), each with everything else unchanged, the bit sequence
that they keep (R179, R183), and the encode job that meets a byte without an entry (R184, R190). -/

namespace Sys2Proof.Machine

/-! ### ENC-TOKEN (R171, R172) -/

theorem exec_encInData_of_encTakesToken {s : State} (hg : encTakesToken s = true) (b : Byte) :
    exec (.encInData b) s = .next (lookupByte b s) := by
  simp only [exec, execEncInData, hg, if_true]

theorem exec_encInEnd_of_encTakesToken {s : State} (hg : encTakesToken s = true) (d : Byte) :
    exec (.encInEnd d) s = .next (startPath Config.eofId (takeEncIn s)) := by
  simp only [exec, execEncInEnd, hg, if_true]

theorem lookupByte_of_entry {s : State} {b : Byte} (h : hasEntry s.tbl (Byte.zext9 b) = true) :
    lookupByte b s = startPath (Byte.zext9 b) (takeEncIn s) := by
  rw [lookupByte, if_pos h]

theorem lookupByte_of_no_entry {s : State} {b : Byte} (h : ¬ hasEntry s.tbl (Byte.zext9 b) = true) :
    lookupByte b s = raise .unksym (Byte.zext9 b) (takeEncIn s) := by
  rw [lookupByte, if_neg h]

/-- Settles O30: with the guard of ENC-TOKEN the byte is looked up, and it has an entry or has none. -/
theorem encDataTokenIsLookedUp : Obligations.EncDataTokenIsLookedUp := by
  intro s b hj hp hn
  rw [exec_encInData_of_encTakesToken ((encTakesToken_iff s).mpr ⟨hj, hp, hn⟩)]
  split
  · rename_i hb
    rw [lookupByte_of_entry hb]
    rfl
  · rename_i hb
    rw [lookupByte_of_no_entry hb]
    rfl

/-- The symbol whose path a token asks for: the end-of-stream marker for `END`, else the byte (R171, R172). -/
def symbolOf (tok : Token) : SymId := if Token.isEnd tok then Config.eofId else Byte.zext9 (Token.payload tok)

/-- ENC-TOKEN that keeps the job running starts the path of the token's symbol. -/
theorem eq_startPath_of_encToken {tok : Token} {s t : State} (ha : encAction s = some .token)
    (he : exec (decodeEncIn tok) s = .next t) (hj : t.job = .enc) : t = startPath (symbolOf tok) (takeEncIn s) := by
  obtain ⟨hjob, hp, hn, -⟩ := encAction_some ha
  have hg : encTakesToken s = true := (encTakesToken_iff s).mpr ⟨hjob, hp, hn⟩
  unfold symbolOf
  unfold decodeEncIn at he
  split at he
  · rename_i hend
    rw [exec_encInEnd_of_encTakesToken hg] at he
    cases he
    rw [if_pos hend]
  · rename_i hend
    rw [exec_encInData_of_encTakesToken hg] at he
    cases he
    rw [if_neg hend]
    by_cases hb : hasEntry s.tbl (Byte.zext9 (Token.payload tok)) = true
    · exact lookupByte_of_entry hb
    · rw [lookupByte_of_no_entry hb] at hj
      cases hj

/-! ### The steps that take no token -/

/-- The turn comes to the one step that is enabled (R179). -/
theorem step_encoder {s : State} {ts : List Turn} (hts : s.turns = .encoder :: ts) :
    step s = runFetched (encoderTurn { s with turns := ts }) := by
  rw [step_given hts, takeTurn]

/-- Phase `E_SHIFT` with room in the accumulator (R173, R174, R179). -/
theorem encAction_of_shift {s : State} (hj : s.job = .enc) (hp : s.enc.phase = .shift) (hn : s.enc.nb.toNat < 8) :
    encAction s = encShiftAct s := by
  have hroom : s.enc.nb < 8#4 := hn
  have hne : s.enc.nb ≠ 8#4 := by bv_omega
  simp [encAction, hj, hne, hp, hroom]

/-- Below the path's end its next bit is written (R173). -/
theorem encShiftAct_shift {s : State} {e : TblEntry} (he : s.entry s.enc.psym = some e)
    (hlt : s.enc.pidx.toNat < e.path.length) : encShiftAct s = some (.shift e.path[s.enc.pidx.toNat]) := by
  simp [encShiftAct, TblEntry.len, he, hlt]

/-- At the path's end the path is left (R174). -/
theorem encShiftAct_next {s : State} {e : TblEntry} (he : s.entry s.enc.psym = some e)
    (hend : s.enc.pidx.toNat = e.path.length) : encShiftAct s = some .next := by
  simp [encShiftAct, TblEntry.len, he, hend]

theorem encAction_fin {s : State} (hj : s.job = .enc) (hp : s.enc.phase = .fin) (hnb : s.enc.nb ≠ 8#4) :
    encAction s = some .fin := by
  simp [encAction, hj, hp, hnb]

/-- All bits but the highest, then one more bit below them, as `{ACC[6:0], bit}` (R173). -/
theorem extract_append_bit {n : Nat} (x : BitVec (n + 1)) (b : Bool) :
    x.extractLsb' 0 n ++ BitVec.ofBool b = x <<< 1 ||| (BitVec.ofBool b).setWidth (n + 1) := by
  ext i hi
  cases i with
  | zero => simp [BitVec.getElem_append]
  | succ i =>
    have hlt : i < n + 1 := by omega
    simp [BitVec.getElem_append, BitVec.getLsbD_eq_getElem hlt]

/-- Settles O33: the turn is given, so the step is ENC-SHIFT below the path's end and ENC-NEXT at it. -/
theorem encShiftAndNext : Obligations.EncShiftAndNext := by
  intro s ts e hts hj hp hn he
  refine ⟨fun hlt => ?_, fun hend => ?_⟩
  · have ha : encAction { s with turns := ts } = some (.shift e.path[s.enc.pidx.toNat]) :=
      (encAction_of_shift hj hp hn).trans (encShiftAct_shift he hlt)
    have hacc : (s.enc.acc.extractLsb' 0 7 ++ BitVec.ofBool e.path[s.enc.pidx.toNat] : BitVec 8)
        = s.enc.acc <<< 1 ||| (BitVec.ofBool e.path[s.enc.pidx.toNat]).setWidth 8 := extract_append_bit s.enc.acc _
    rw [step_encoder hts, encoderTurn, ha, hacc]
    rfl
  · have ha : encAction { s with turns := ts } = some .next :=
      (encAction_of_shift hj hp hn).trans (encShiftAct_next he hend)
    rw [step_encoder hts, encoderTurn, ha]
    rfl

/-- Settles O34: the turn is given, and a full byte enables ENC-BYTE in every phase. -/
theorem encByteSendsTheFullByte : Obligations.EncByteSendsTheFullByte := by
  intro s ts hts hj hnb
  have ha : encAction { s with turns := ts } = some .byte := encAction_byte hj hnb
  have hdata : (0#1 ++ s.enc.acc : BitVec 9) = Token.data s.enc.acc := zero_append_eq_setWidth s.enc.acc
  rw [step_encoder hts, encoderTurn, ha, hdata]
  rfl

/-- ENC-PAD with an empty accumulator (R176). -/
theorem encPad_of_empty {s : State} (hnb : s.enc.nb = 0#4) :
    encPad s = { s with enc := { s.enc with phase := .fin } } := by
  rw [encPad, if_pos hnb]

/-- ENC-PAD with a partial byte (R176). -/
theorem encPad_of_partial {s : State} (hnb : s.enc.nb ≠ 0#4) :
    encPad s = { s with enc := { s.enc with acc := s.enc.acc <<< (8 - s.enc.nb.toNat), nb := 8#4 } } := by
  rw [encPad, if_neg hnb]
  rfl

/-- Settles O35: the turn is given, so the step is ENC-PAD in `E_PAD` and ENC-END in `E_FIN`. -/
theorem encPadAndEnd : Obligations.EncPadAndEnd := by
  intro s ts hts hj
  refine ⟨fun hp hnb => ?_, fun hp hpos hlt => ?_, fun hp hnb => ?_⟩
  · have ha : encAction { s with turns := ts } = some .pad := encAction_pad hj hp (by simp [hnb])
    rw [step_encoder hts, encoderTurn, ha]
    exact congrArg Host.Outcome.next (encPad_of_empty hnb)
  · have ha : encAction { s with turns := ts } = some .pad := encAction_pad hj hp hlt
    have hne : s.enc.nb ≠ 0#4 := by bv_omega
    rw [step_encoder hts, encoderTurn, ha]
    exact congrArg Host.Outcome.next (encPad_of_partial hne)
  · have ha : encAction { s with turns := ts } = some .fin := encAction_fin hj hp (by simp [hnb])
    rw [step_encoder hts, encoderTurn, ha]
    rfl

/-! ### The bit sequence sent, collected and to come (R170, R179, R183) -/

theorem pathOf_of_entry {s : State} {k : SymId} {e : TblEntry} (he : s.entry k = some e) : pathOf s.tbl k = e.path := by
  have hentry : entryOf s.tbl k = some e := he
  simp [pathOf, hentry]

theorem pathRest_of_shift {s : State} (hp : s.enc.phase = .shift) :
    s.pathRest = (pathOf s.tbl s.enc.psym).drop s.enc.pidx.toNat := if_pos hp

theorem pathRest_of_not_shift {s : State} (hp : s.enc.phase ≠ .shift) : s.pathRest = [] := if_neg hp

/-- ENC-TOKEN adds the path it starts. -/
theorem encodedBits_startPath {s : State} (ha : encAction s = some .token) (k : SymId) :
    (startPath k (takeEncIn s)).encodedBits = s.encodedBits ++ pathOf s.tbl k := by
  obtain ⟨-, hp, -⟩ := encAction_some ha
  have hs : s.pathRest = [] := pathRest_of_not_shift (by simp [hp])
  have ht : (startPath k (takeEncIn s)).pathRest = pathOf s.tbl k := pathRest_of_shift rfl
  simp [State.encodedBits, hs, ht]

/-- ENC-SHIFT moves the next bit of the path into the accumulator. -/
theorem encodedBits_encShift {s : State} (h : s.Inv) {b : Bool} (ha : encAction s = some (.shift b)) :
    (encShift b s).encodedBits = s.encodedBits := by
  obtain ⟨-, hp, hn, e, he, hlt, rfl⟩ := encAction_some ha
  have hn8 : s.enc.nb.toNat < 8 := hn
  have hnb : (s.enc.nb + 1).toNat = s.enc.nb.toNat + 1 := by bv_omega
  have hidx : (s.enc.pidx + 1).toNat = s.enc.pidx.toNat + 1 := by
    have hmax : e.len ≤ 256 := h.pathLen _ _ he
    bv_omega
  have hpath := pathOf_of_entry he
  have hs : s.pathRest = e.path[s.enc.pidx.toNat] :: e.path.drop (s.enc.pidx.toNat + 1) := by
    rw [pathRest_of_shift hp, hpath, List.drop_eq_getElem_cons hlt]
  have ht (b : Bool) : (encShift b s).pathRest = e.path.drop (s.enc.pidx.toNat + 1) := by
    rw [pathRest_of_shift (s := encShift b s) hp, encShift_tbl, encShift_enc, hpath, hidx]
  rw [State.encodedBits, State.encodedBits, hs, ht, List.getD_eq_getElem _ _ hlt, encShift_ports, encShift_enc, hnb,
    accBits_shiftIn _ _ hn8]
  simp

/-- ENC-NEXT leaves a path of which no bit is to come. -/
theorem encodedBits_encNext {s : State} (ha : encAction s = some .next) : (encNext s).encodedBits = s.encodedBits := by
  obtain ⟨-, hp, -, e, he, hend⟩ := encAction_some ha
  have hs : s.pathRest = [] := by
    rw [pathRest_of_shift hp, pathOf_of_entry he, hend]
    exact List.drop_length
  have ht : (encNext s).pathRest = [] := pathRest_of_not_shift (by simp only [encNext_enc]; split <;> simp)
  simp [State.encodedBits, hs, ht]

/-- ENC-BYTE sends the bits it takes out of the accumulator. -/
theorem encodedBits_encByte {s : State} (ha : encAction s = some .byte) : (encByte s).encodedBits = s.encodedBits := by
  obtain ⟨-, hnb⟩ := encAction_some ha
  have hrest : (encByte s).pathRest = s.pathRest := rfl
  simp [State.encodedBits, sentBits, hrest, hnb, payload_data]

/-- ENC-PAD adds zero bits up to the byte's end, and none to an empty accumulator. -/
theorem encodedBits_encPad {s : State} (ha : encAction s = some .pad) :
    (encPad s).encodedBits
      = s.encodedBits ++ List.replicate (if s.enc.nb = 0#4 then 0 else 8 - s.enc.nb.toNat) false := by
  obtain ⟨-, hp, -⟩ := encAction_some ha
  have hs : s.pathRest = [] := pathRest_of_not_shift (by simp [hp])
  by_cases hnb : s.enc.nb = 0#4
  · have ht : (encPad s).pathRest = [] := pathRest_of_not_shift (by simp [encPad_of_empty hnb])
    simp [State.encodedBits, hs, ht, hnb]
  · have ht : (encPad s).pathRest = [] := pathRest_of_not_shift (by simp [encPad_of_partial hnb, hp])
    simp [State.encodedBits, hs, ht, hnb, byteBits_pad]

/-- Settles O37, by the encoder's one enabled step, if any; ENC-END and `UNKSYM` do not keep the job running. -/
theorem encoderConservesBits : Obligations.EncoderConservesBits := by
  intro s t ts hinv hts hj hstep htj
  have hu : State.Inv { s with turns := ts } := (s.inv_run_iff ts s.tick).mpr hinv
  rw [step_encoder hts, encoderTurn] at hstep
  cases ha : encAction { s with turns := ts } with
  | none =>
    rw [ha] at hstep
    cases hstep
    rw [← encAction_turns s ts s.tick, ha]
    rfl
  | some a =>
    rw [ha] at hstep
    rw [← encAction_turns s ts s.tick, ha]
    cases a with
    | token =>
      cases hin : s.ports.encIn with
      | nil =>
        obtain ⟨-, -, -, hoffered⟩ := encAction_some ha
        exact absurd hin hoffered
      | cons tok toks =>
        simp only [hin, runFetched] at hstep
        obtain rfl := eq_startPath_of_encToken ha hstep htj
        exact encodedBits_startPath ha (symbolOf tok)
    | shift b =>
      cases hstep
      exact encodedBits_encShift hu ha
    | next =>
      cases hstep
      exact encodedBits_encNext ha
    | byte =>
      cases hstep
      exact encodedBits_encByte ha
    | pad =>
      cases hstep
      exact encodedBits_encPad ha
    | fin =>
      cases hstep
      cases htj
    | noEntry => cases hstep

/-! ### A job that meets an unknown byte (R184, R190) -/

/-- Full bytes are packed as they are; what comes after them is left out. -/
theorem packBytes_full (bytes : List Byte) (more : List Bool) :
    packBytes bytes.length (bytes.flatMap byteBits ++ more) = bytes := by
  induction bytes with
  | nil => rfl
  | cons b bytes ih =>
    have hfirst : packByte (byteBits b ++ (bytes.flatMap byteBits ++ more)) = b :=
      packByte_of_padded (by simp [List.take_left' (length_byteBits b)])
    rw [List.length_cons, packBytes, List.flatMap_cons, List.append_assoc, hfirst,
      List.drop_left' (length_byteBits b), ih]
    rfl

theorem length_accBits (acc : Byte) {n : Nat} (hn : n ≤ 8) : (accBits acc n).length = n := by
  rw [accBits, List.length_drop, length_byteBits]
  omega

/-- ENC-TOKEN on a byte without an entry takes it and raises `UNKSYM` (R171, R184). -/
theorem Encoding.step_unksym {s : State} (h : Encoding s) (hp : s.enc.phase = .wait) (hn : s.enc.nb.toNat < 8)
    {x : Byte} {rest : List Token} (hin : s.ports.encIn = Token.data x :: rest)
    (hx : ¬ hasEntry s.tbl (Byte.zext9 x) = true) :
    step s = .next (raise .unksym (Byte.zext9 x) (takeEncIn s)) := by
  have hg : encTakesToken s = true := (encTakesToken_iff s).mpr ⟨h.job, hp, hn⟩
  have hdec : decodeEncIn (Token.data x) = .encInData x := by simp [decodeEncIn, isEnd_data, payload_data]
  rw [h.step_eq (encAction_token hg (by simp [hin])), encoderTurn_token hg hin, hdec, runFetched,
    exec_encInData_of_encTakesToken hg, lookupByte_of_no_entry hx]

/-- Settles O39: the paths of the input are written, and the bits sent are those of their full bytes. -/
theorem encodeJobStopsAtUnknownByte : Obligations.EncodeJobStopsAtUnknownByte := by
  intro s input x rest hinv hj hp hnb hturns hcmd hrsp hin hentries hx bits
  have h : Encoding s := ⟨hinv, hj, hturns, hcmd, hrsp⟩
  obtain ⟨u, hu, hnu, hpu⟩ := h.input hp (by simp [hnb]) hin hentries
  have hinu : u.ports.encIn = Token.data x :: rest := by simpa [hin, eq_comm] using hu.taken
  have hunknown : ¬ hasEntry u.tbl (Byte.zext9 x) = true := by
    rw [hu.tbl]
    exact Bool.eq_false_iff.mp hx
  have hstep := hu.encoding.step_unksym hpu hnu hinu hunknown
  obtain ⟨bytes, hout, hsent⟩ := hu.sent
  have hbits : bits = bytes.flatMap byteBits ++ accBits u.enc.acc u.enc.nb.toNat := by
    rwa [hnb] at hsent
  have hfull : bits.length / 8 = bytes.length := by
    have hcount : bits.length = 8 * bytes.length + u.enc.nb.toNat := by
      simpa [List.length_flatMap, mul_comm, length_accBits _ hnu.le] using congrArg List.length hbits
    omega
  refine ⟨_, hu.reaches.tail hstep, ?_, ?_, rfl, ?_, rfl⟩
  · rw [hfull, hbits, packBytes_full]
    exact hout
  · simp [hinu]
  · rw [raise_err, takeEncIn_err, hu.err]
    rfl

end Sys2Proof.Machine
end

section
/-! PROOFS. The end of a run and a wait (70_reset_and_hazards.md R228, R230), and the commands that are untimely outside
`IDLE` (40_config_commands.md R127; 70_reset_and_hazards.md R224). -/

namespace Sys2Proof.Machine

/-! ### When an engine of a running job has no step -/

/-- The encoder of a running job has a step in every state that meets the invariant but where it needs a token that is not
offered (R171, R172, R179). -/
theorem State.Inv.encAction_eq_none_iff {s : State} (h : s.Inv) (hj : s.job = .enc) :
    encAction s = none ↔ s.enc.phase = .wait ∧ s.enc.nb.toNat < 8 ∧ s.ports.encIn = [] := by
  by_cases h8 : s.enc.nb = 8#4
  · simp [encAction_byte hj h8, h8]
  · have hroom : s.enc.nb.toNat < 8 := by
      have hle := h.nbBound
      bv_omega
    cases hp : s.enc.phase with
    | wait =>
      have hguard : encTakesToken s = true := (encTakesToken_iff s).mpr ⟨hj, hp, hroom⟩
      simp [encAction, hj, h8, hp, hguard, hroom]
    | shift =>
      obtain ⟨e, he, -, hle⟩ := h.shifting hj hp
      rcases hle.lt_or_eq with hlt | hend
      · simp [encAction_of_shift hj hp hroom, encShiftAct_shift he hlt]
      · simp [encAction_of_shift hj hp hroom, encShiftAct_next he hend]
    | pad => simp [encAction_pad hj hp hroom]
    | fin => simp [encAction_fin hj hp h8]

/-- The decoder of a running job has a step but where it needs a token that is not offered (R143, R148, R152). -/
theorem decAction_eq_none_iff {s : State} (hj : s.job = .dec) :
    decAction s = none ↔
      ((s.dec.phase = .walk ∧ s.dec.bn = 0#4) ∨ s.dec.phase = .drain) ∧ s.ports.decIn = [] := by
  cases hp : s.dec.phase with
  | walk =>
    by_cases hbn : s.dec.bn = 0#4
    · simp [decAction, hj, hp, hbn]
    · simp [decAction_bit hj hp hbn, hbn]
  | emit => simp [decAction_emit hj hp]
  | fin => simp [decAction_fin hj hp]
  | drain => simp [decAction, hj, hp]

/-- A wait (R228, R230). -/
theorem State.Inv.waits_iff {s : State} (h : s.Inv) :
    s.waits = true ↔
      s.rsp.v = false ∧ s.ports.cmd = []
        ∧ ((s.job = .enc ∧ s.enc.phase = .wait ∧ s.enc.nb.toNat < 8 ∧ s.ports.encIn = [])
          ∨ (s.job = .dec ∧ ((s.dec.phase = .walk ∧ s.dec.bn = 0#4) ∨ s.dec.phase = .drain) ∧ s.ports.decIn = [])) := by
  simp only [State.waits, Bool.and_eq_true, quiescent_iff, busyPin_iff]
  cases hj : s.job with
  | idle | halted => simp
  | enc => simp [h.encAction_eq_none_iff hj, decAction_eq_none (s := s) (by simp [hj])]
  | dec => simp [decAction_eq_none_iff hj, encAction_eq_none (s := s) (by simp [hj])]

/-! ### The end of a run -/

/-- Where no step is enabled, every turn of the block's own passes (R230). -/
theorem takeTurn_of_quiescent {s : State} (h : s.quiescent = true) {m : Turn} (hm : m.isHost = false) :
    takeTurn m s = .done (.next s) := by
  obtain ⟨hv, hcmd, henc, hdec⟩ := (quiescent_iff s).mp h
  cases m with
  | command => simp [takeTurn, commandTurn, hv, hcmd]
  | response => simp [takeTurn, responseTurn, hv]
  | encoder => simp [takeTurn, encoderTurn, henc]
  | decoder => simp [takeTurn, decoderTurn, hdec]
  | reset | offerCmd | offerEncIn | offerDecIn => cases hm

/-- Where no step is enabled and the host has no move left, a step only uses up its turn (R230). -/
theorem step_of_quiescent {s : State} (h : s.quiescent = true) (hhost : s.hostMovesLeft = false) :
    step s = .next { s with turns := s.turns.tail } := by
  cases hts : s.turns with
  | nil =>
    have hnone : channelReady s = none ∧ engineReady s = none := by simpa [State.quiescent] using h
    have hnext : nextTurn s = (none, s) := by simp [nextTurn, hts, hnone]
    have hback : { s with turns := [] } = s := by rw [← hts]
    rw [List.tail_nil, hback]
    simp [step, fetch, hnext, runFetched]
  | cons m ms =>
    have hm : m.isHost = false := by
      simp only [State.hostMovesLeft, hts, List.any_cons, Bool.or_eq_false_iff] at hhost
      exact hhost.1
    rw [step_given hts, takeTurn_of_quiescent (s := { s with turns := ms }) h hm]
    rfl

theorem runOver_iff (s : State) :
    s.runOver = true ↔ s.quiescent = true ∧ busyPin s = false ∧ s.hostMovesLeft = false := by
  simp [State.runOver, and_assoc]

theorem hostMovesLeft_tail {s : State} (h : s.hostMovesLeft = false) :
    State.hostMovesLeft { s with turns := s.turns.tail } = false := by
  simp only [State.hostMovesLeft, List.any_eq_false] at h ⊢
  exact fun m hm => h m (List.mem_of_mem_tail hm)

/-- Settles O60: a step of a run that is over uses up a turn that is not the host's, and enabledness does not read the
order; a wait is a job whose engine lacks a token only. -/
theorem runIsOverOrWaitsAsR230Says : Obligations.RunIsOverOrWaitsAsR230Says := by
  refine ⟨fun s hover => ?_, fun s hinv => hinv.waits_iff⟩
  obtain ⟨hquiet, hbusy, hhost⟩ := (runOver_iff s).mp hover
  obtain ⟨hv, hcmd, -, -⟩ := (quiescent_iff s).mp hquiet
  have hjob : s.job = .idle ∨ s.job = .halted := by
    rw [← Bool.not_eq_true, busyPin_iff] at hbusy
    cases hj : s.job <;> simp [hj] at hbusy ⊢
  exact ⟨step_of_quiescent hquiet hhost, (runOver_iff _).mpr ⟨hquiet, hbusy, hostMovesLeft_tail hhost⟩, hjob, hcmd, hv⟩

/-! ### The commands of `IDLE` outside it -/

/-- Settles O17: with legal refs each of the five commands comes to the state check of R127, which rejects it. -/
theorem busyCommandsOnlySetBusycmd : Obligations.BusyCommandsOnlySetBusycmd := by
  intro s i hj hwf hi
  have hcheck : ∃ effect, exec i s = .next (whenIdle s effect) := by
    rcases hi with ⟨r, rfl⟩ | ⟨n, l, r, rfl⟩ | rfl | rfl | rfl
    · exact ⟨_, exec_setroot_of_legal hwf s⟩
    · obtain ⟨hl, hr⟩ : Ref.legal l = true ∧ Ref.legal r = true := by simpa [Instr.wellFormed] using hwf
      exact ⟨_, exec_ldnode_of_legal hl hr n s⟩
    · exact ⟨clearTree s, rfl⟩
    · exact ⟨encStartEffect s, rfl⟩
    · exact ⟨decStartEffect s, rfl⟩
  obtain ⟨effect, hexec⟩ := hcheck
  rw [hexec, whenIdle_busy hj]
  rfl

end Sys2Proof.Machine
end
